-- ==== Sys2Proof/Word.lean ====
section
/-! DEFINITION. The widths of the engine's quantities and the numbers of its two buffers and two gap memories
(spec/00_scope.md R6, spec/30_encoding.md R80, R81). -/

namespace Sys2Proof

/-- A 64-bit quantity: a register, a storage word, the operand `arg`, the result `ret` (R6 `WORD_BITS`, `ACC_BITS`). -/
abbrev Word := BitVec 64

/-- A 32-bit command word `cw` (R80). -/
abbrev CmdWord := BitVec 32

/-- A 32-bit gap-memory entry (R6 `GAP_BITS`). -/
abbrev Gap := BitVec 32

/-- An 8-bit opcode or status code (R80, R81). -/
abbrev Byte := BitVec 8

/-- The six-bit field `W` of a command word, 0 to 63; in RDREG and WRREG it is the register number `R` (R81). -/
abbrev Width := BitVec 6

/-- The number of a bit buffer (R6 `NBUF = 2`, R30). -/
inductive BufId where
  | b0
  | b1
deriving DecidableEq, Repr

/-- The number of a gap memory (R6 `NGAP = 2`, R31). -/
inductive GapId where
  | g0
  | g1
deriving DecidableEq, Repr

end Sys2Proof
end

