-- ==== Sys2Proof/Syntax.lean ====
section
/-! DEFINITION. The 17 commands of spec/30_encoding.md R86, each with the operands its assembler form has (R89): the fields
its format uses and, where the command uses it, the 64-bit operand `arg` (R83, R84). Log 10. -/

namespace Sys2Proof

/-- One command of the engine, one constructor per row of spec/opcode_table.json. A command whose `arg` is "ignored" (R83)
carries none. -/
inductive Instr where
  /-- RESET: every register back to its reset value (R230). -/
  | reset
  /-- RDREG: read register number `r` (R231). -/
  | rdreg (r : Width)
  /-- WRREG: write `value` to register number `r` (R232). -/
  | wrreg (r : Width) (value : Word)
  /-- SETBIT: set position `pos` of buffer `b` to 1 (R121). -/
  | setbit (b : BufId) (pos : Word)
  /-- GETBIT: read position `pos` of buffer `b` (R122). -/
  | getbit (b : BufId) (pos : Word)
  /-- APPEND: write `value` as a `w`-bit field at the append cursor of buffer `b` (R123). -/
  | append (b : BufId) (w : Width) (value : Word)
  /-- READF: read the `w`-bit field at bit offset `offset` of buffer `b` (R124). -/
  | readf (b : BufId) (w : Width) (offset : Word)
  /-- BBCLR: zero buffer `b` up to its capacity and rewind its cursor (R125). -/
  | bbclr (b : BufId)
  /-- EXTRACT: the gap sequence of positions `0 .. n-1` of buffer `b`, into gap memory `g` (R151). -/
  | extract (b : BufId) (g : GapId) (n : Word)
  /-- GAPRD: read entry `index` of gap memory `g` (R152). -/
  | gaprd (g : GapId) (index : Word)
  /-- GAPWR: write `value` to entry `index` of gap memory `g` (R153, R84). -/
  | gapwr (g : GapId) (index value : BitVec 32)
  /-- OPT.FW: the best width of the fixed-width code for the sequence in `g` (R171). -/
  | optFw (g : GapId)
  /-- OPT.RG: the best width of the Rice-Golomb code for the sequence in `g` (R172). -/
  | optRg (g : GapId)
  /-- ENC.FW: encode the sequence in `g` into buffer `b`, fixed-width code of width `w` (R191). -/
  | encFw (b : BufId) (g : GapId) (w : Width)
  /-- DEC.FW: decode `count` gaps of the fixed-width stream in `b` into `g` (R192). -/
  | decFw (b : BufId) (g : GapId) (w : Width) (count : Word)
  /-- ENC.RG: encode the sequence in `g` into buffer `b`, Rice-Golomb code of width `w` (R211). -/
  | encRg (b : BufId) (g : GapId) (w : Width)
  /-- DEC.RG: decode `count` gaps of the Rice-Golomb stream in `b` into `g` (R212). -/
  | decRg (b : BufId) (g : GapId) (w : Width) (count : Word)
deriving DecidableEq, Repr

end Sys2Proof
end

