-- ==== Sys2Proof/WellFormed.lean ====
section
/-! DEFINITION. Which terms of `Instr` are commands: the one check decoding makes that the operand types do not make
already is the register number of RDREG and WRREG (spec/10_state.md R24, spec/30_encoding.md R85). -/

namespace Sys2Proof

/-- Registers are numbered 0 to 9; numbers 10 to 63 are not registers (R24). -/
abbrev registerNumberOk (r : Width) : Prop := r.toNat < 10

/-- `i` is the operand form of some legal command word (R85). A width a command does not admit (`W = 0` in ENC.FW) is still
a legal word (R87). -/
def Instr.wellFormed : Instr → Bool
  | .rdreg r => registerNumberOk r
  | .wrreg r _ => registerNumberOk r
  | .reset => true
  | .setbit _ _ => true
  | .getbit _ _ => true
  | .append _ _ _ => true
  | .readf _ _ _ => true
  | .bbclr _ => true
  | .extract _ _ _ => true
  | .gaprd _ _ => true
  | .gapwr _ _ _ => true
  | .optFw _ => true
  | .optRg _ => true
  | .encFw _ _ _ => true
  | .decFw _ _ _ _ => true
  | .encRg _ _ _ => true
  | .decRg _ _ _ _ => true

end Sys2Proof
end

