-- ==== Sys2Proof/Decode.lean ====
section
/-! DEFINITION. Decoding a command word and its operand (spec/30_encoding.md R81 to R88), total on every pair of words and
rejecting by name; then the encoder, from the same tables. -/

namespace Sys2Proof

/-- The fields of the command word (R81). -/
def opField (cw : CmdWord) : Byte := cw.extractLsb' 0 8
def wField (cw : CmdWord) : Width := cw.extractLsb' 8 6
def bField (cw : CmdWord) : Bool := cw.getLsbD 14
def gField (cw : CmdWord) : Bool := cw.getLsbD 15
def reservedField (cw : CmdWord) : BitVec 16 := cw.extractLsb' 16 16

/-- The buffer a `B` bit names, and the bit that names a buffer (R81, R83). -/
def bufOfBit (t : Bool) : BufId := if t then .b1 else .b0
def bitOfBuf : BufId → Bool
  | .b0 => false
  | .b1 => true

/-- The gap memory a `G` bit names, and the bit that names a gap memory (R81, R83). -/
def gapOfBit (t : Bool) : GapId := if t then .g1 else .g0
def bitOfGap : GapId → Bool
  | .g0 => false
  | .g1 => true

/-- The seven formats of R82, by the fields each uses. -/
inductive Format where
  | n | r | b | bw | g | bg | bgw
deriving DecidableEq, Repr

/-- The format uses `cw[13:8]`, as `W` or as `R` (R82). -/
def formatUsesW : Format → Bool
  | .r => true
  | .bw => true
  | .bgw => true
  | .n => false
  | .b => false
  | .g => false
  | .bg => false

/-- The format uses `cw[14]` (R82). -/
def formatUsesB : Format → Bool
  | .b => true
  | .bw => true
  | .bg => true
  | .bgw => true
  | .n => false
  | .r => false
  | .g => false

/-- The format uses `cw[15]` (R82). -/
def formatUsesG : Format → Bool
  | .g => true
  | .bg => true
  | .bgw => true
  | .n => false
  | .r => false
  | .b => false
  | .bw => false

/-- The mask of fixed bits of R82's table. -/
def formatMask : Format → CmdWord
  | .n => 0xFFFFFFFF#32
  | .r => 0xFFFFC0FF#32
  | .b => 0xFFFFBFFF#32
  | .bw => 0xFFFF80FF#32
  | .g => 0xFFFF7FFF#32
  | .bg => 0xFFFF3FFF#32
  | .bgw => 0xFFFF00FF#32

/-- One row of the command map (R86): the opcode, the format, and the command that the fields `W` (or `R`), `B`, `G` and the
operand `arg` give (R83). -/
structure Row where
  opcode : Byte
  format : Format
  build : Width → BufId → GapId → Word → Instr

/-- `GAPWR` packs its operands: entry index in `arg[63:32]`, value in `arg[31:0]` (R84). -/
def gapwrIndex (arg : Word) : BitVec 32 := arg.extractLsb' 32 32
def gapwrValue (arg : Word) : BitVec 32 := arg.extractLsb' 0 32
def gapwrArg (index value : BitVec 32) : Word := index.setWidth 64 <<< 32 ||| value.setWidth 64

/-- The opcodes of R86. -/
def Instr.opcode : Instr → Byte
  | .reset => 0x01#8
  | .rdreg _ => 0x02#8
  | .wrreg _ _ => 0x03#8
  | .setbit _ _ => 0x10#8
  | .getbit _ _ => 0x11#8
  | .append _ _ _ => 0x12#8
  | .readf _ _ _ => 0x13#8
  | .bbclr _ => 0x14#8
  | .extract _ _ _ => 0x20#8
  | .gaprd _ _ => 0x21#8
  | .gapwr _ _ _ => 0x22#8
  | .optFw _ => 0x30#8
  | .optRg _ => 0x31#8
  | .encFw _ _ _ => 0x40#8
  | .decFw _ _ _ _ => 0x41#8
  | .encRg _ _ _ => 0x50#8
  | .decRg _ _ _ _ => 0x51#8

/-- The command map of R86, in its order. -/
def commandRows : List Row :=
  [ ⟨0x01#8, .n, fun _ _ _ _ => .reset⟩,
    ⟨0x02#8, .r, fun w _ _ _ => .rdreg w⟩,
    ⟨0x03#8, .r, fun w _ _ arg => .wrreg w arg⟩,
    ⟨0x10#8, .b, fun _ b _ arg => .setbit b arg⟩,
    ⟨0x11#8, .b, fun _ b _ arg => .getbit b arg⟩,
    ⟨0x12#8, .bw, fun w b _ arg => .append b w arg⟩,
    ⟨0x13#8, .bw, fun w b _ arg => .readf b w arg⟩,
    ⟨0x14#8, .b, fun _ b _ _ => .bbclr b⟩,
    ⟨0x20#8, .bg, fun _ b g arg => .extract b g arg⟩,
    ⟨0x21#8, .g, fun _ _ g arg => .gaprd g arg⟩,
    ⟨0x22#8, .g, fun _ _ g arg => .gapwr g (gapwrIndex arg) (gapwrValue arg)⟩,
    ⟨0x30#8, .g, fun _ _ g _ => .optFw g⟩,
    ⟨0x31#8, .g, fun _ _ g _ => .optRg g⟩,
    ⟨0x40#8, .bgw, fun w b g _ => .encFw b g w⟩,
    ⟨0x41#8, .bgw, fun w b g arg => .decFw b g w arg⟩,
    ⟨0x50#8, .bgw, fun w b g _ => .encRg b g w⟩,
    ⟨0x51#8, .bgw, fun w b g arg => .decRg b g w arg⟩ ]

/-- The row with opcode `op`, if there is one (R85). -/
def rowOf (op : Byte) : Option Row := commandRows.find? fun row => row.opcode == op

/-- Why a word is no command: the six `raise IllegalCommand` lines of R85, in their order. -/
inductive Reject where
  /-- `cw[31:16] != 0`. -/
  | reservedBits
  /-- No row has the opcode `cw[7:0]`. -/
  | unknownOpcode
  /-- The format does not use `cw[13:8]`, which is not 0. -/
  | unusedW
  /-- The format does not use `cw[14]`, which is not 0. -/
  | unusedB
  /-- The format does not use `cw[15]`, which is not 0. -/
  | unusedG
  /-- RDREG or WRREG of a number that is no register. -/
  | registerNumber
deriving DecidableEq, Repr

/-- Decode (R85): the command that `cw` selects, with its operand `arg` (R83), or the reason there is none. -/
def decode (cw : CmdWord) (arg : Word) : Except Reject Instr :=
  if reservedField cw ≠ 0#16 then .error .reservedBits
  else
    match rowOf (opField cw) with
    | none => .error .unknownOpcode
    | some row =>
      if ¬ formatUsesW row.format ∧ wField cw ≠ 0#6 then .error .unusedW
      else if ¬ formatUsesB row.format ∧ bField cw then .error .unusedB
      else if ¬ formatUsesG row.format ∧ gField cw then .error .unusedG
      else if row.format = .r ∧ ¬ registerNumberOk (wField cw) then .error .registerNumber
      else .ok (row.build (wField cw) (bufOfBit (bField cw)) (gapOfBit (gField cw)) arg)

/-- The command word with the given fields and `cw[31:16] = 0` (R81). -/
def commandWord (op : Byte) (w : Width) (b : BufId) (g : GapId) : CmdWord :=
  op.setWidth 32 ||| w.setWidth 32 <<< 8 ||| (BitVec.ofBool (bitOfBuf b)).setWidth 32 <<< 14 |||
    (BitVec.ofBool (bitOfGap g)).setWidth 32 <<< 15

/-- The transaction of a well-formed command: its word, unused fields 0 (R82), and its operand, 0 where the command ignores
`arg` (R89). -/
def encode (i : Instr) : CmdWord × Word :=
  match i with
  | .reset => (commandWord i.opcode 0#6 .b0 .g0, 0#64)
  | .rdreg r => (commandWord i.opcode r .b0 .g0, 0#64)
  | .wrreg r value => (commandWord i.opcode r .b0 .g0, value)
  | .setbit b pos => (commandWord i.opcode 0#6 b .g0, pos)
  | .getbit b pos => (commandWord i.opcode 0#6 b .g0, pos)
  | .append b w value => (commandWord i.opcode w b .g0, value)
  | .readf b w offset => (commandWord i.opcode w b .g0, offset)
  | .bbclr b => (commandWord i.opcode 0#6 b .g0, 0#64)
  | .extract b g n => (commandWord i.opcode 0#6 b g, n)
  | .gaprd g index => (commandWord i.opcode 0#6 .b0 g, index)
  | .gapwr g index value => (commandWord i.opcode 0#6 .b0 g, gapwrArg index value)
  | .optFw g => (commandWord i.opcode 0#6 .b0 g, 0#64)
  | .optRg g => (commandWord i.opcode 0#6 .b0 g, 0#64)
  | .encFw b g w => (commandWord i.opcode w b g, 0#64)
  | .decFw b g w count => (commandWord i.opcode w b g, count)
  | .encRg b g w => (commandWord i.opcode w b g, 0#64)
  | .decRg b g w count => (commandWord i.opcode w b g, count)

/-- The two words of a transaction as the host numbers them: the command word in bits 31..0 of `w`, the operand in bits
95..32, every bit at or above `nbits` zero. Log 9. -/
def tableCmdWord (nbits w : Nat) : CmdWord := BitVec.ofNat 32 (w % 2 ^ nbits)
def tableArg (nbits w : Nat) : Word := BitVec.ofNat 64 ((w % 2 ^ nbits) >>> 32)

/-- The command the decoder reads from a table word, or `none` where it refuses. -/
def decodeTableWord (nbits w : Nat) : Option Instr :=
  match decode (tableCmdWord nbits w) (tableArg nbits w) with
  | .ok i => some i
  | .error _ => none

end Sys2Proof
end

