-- ==== Sys2Proof/Config.lean ====
section
/-! DEFINITION. The implementation parameters of spec/00_scope.md R6 and the free values of the model: the contents of the
memories after hardware reset (spec/10_state.md R35, spec/70_reset_and_hazards.md R292). -/

namespace Sys2Proof
namespace Config

/-- `WORD_BITS`, the bits of one storage word (R6). -/
@[simp] def wordBits : Nat := 64

/-- `FIELD_MAX`, the largest field width (R6). -/
@[simp] def fieldMax : Nat := 63

/-- `GAP_BITS`, the bits of one gap-memory entry (R6). -/
@[simp] def gapBits : Nat := 32

/-- `MAX_WIDTH`, the exclusive upper bound of the optimizer's search: 30 on this hardware (R6, R7). Log 4. -/
def maxWidth : Nat := 30

/-- The identity string of R2. -/
def identity : String := "acsbs-core/WORD_BITS=64/GAP_BITS=32/MAX_WIDTH=30/NBUF=2/NGAP=2"

/-- The OPEN parameters of R6, which a model takes as an argument: the step takes them with the state, and no step
writes them. Log 3. -/
structure Params where
  /-- `BB_WORDS`, the physical words of each bit buffer. -/
  bbWords : Nat
  /-- `GAP_ENTRIES`, the physical entries of each gap memory. -/
  gapEntries : Nat
deriving DecidableEq, Repr

/-- The constraints R6 puts on the OPEN parameters. -/
abbrev Params.legal (p : Params) : Prop :=
  1 ≤ p.bbWords ∧ p.bbWords ≤ 2 ^ 26 - 1 ∧ 1 ≤ p.gapEntries ∧ p.gapEntries ≤ 2 ^ 24

/-- The values R6 suggests for tests. DESIGN CHOICE, unsafe: log 3. -/
def suggested : Params := { bbWords := 1024, gapEntries := 4096 }

/-- `drawnWord e b k`: what storage word `k` of buffer `b` holds after the `e`-th hardware reset. R35, R292: an arbitrary
value, drawn once at reset and stable from then on. A FREE VALUE: it has no body, so nothing can be proved of it. Log 5. -/
opaque drawnWord : Nat → BufId → Nat → Word

/-- `drawnGap e g i`: what entry `i` of gap memory `g` holds after the `e`-th hardware reset (R35, R292). A FREE VALUE.
Log 5. -/
opaque drawnGap : Nat → GapId → Nat → Gap

end Config
end Sys2Proof
end

