-- ==== Sys2Proof/Machine/State.lean ====
section
/-! DEFINITION. The engine's state as plain data (spec/10_state.md R20 to R36), the host's side of the command port
(spec/00_scope.md R14, spec/30_encoding.md R80), and the state after hardware reset (R34, R290, R292). -/

namespace Sys2Proof
namespace Machine

/-- A memory as a list of (address, content) pairs with strictly rising addresses. An address that is not listed holds no
value of its own: nothing has written it since hardware reset, and it reads as the reset-time draw (R35). Log 7. -/
abbrev Store (α : Type) := List (Nat × α)

/-- What the engine has written of one storage word since hardware reset: which of its 64 bits, and their values (0 where
nothing was written). The other bits still hold the reset-time draw (R35). Log 7. -/
structure Cell where
  written : Word
  value : Word
deriving DecidableEq, Repr

/-- The two bit buffers (R30) and the two gap memories (R31). -/
structure Memory where
  bb0 : Store Cell
  bb1 : Store Cell
  gm0 : Store Gap
  gm1 : Store Gap
deriving DecidableEq, Repr

/-- The ten control and status registers of R24, each 64 bits. -/
structure Regs where
  /-- Register 0, the sticky first-error record (R25). -/
  fault : Word
  /-- Registers 1 and 2, the capacities in storage words (R26). -/
  capw0 : Word
  capw1 : Word
  /-- Registers 3 and 4, append cursor and declared bit length (R27). -/
  len0 : Word
  len1 : Word
  /-- Registers 5 and 6, the gap counts (R28). -/
  glen0 : Word
  glen1 : Word
  /-- Registers 7, 8 and 9, the optimizer's results (R29). -/
  optW : Word
  optBits : Word
  optWords : Word
deriving DecidableEq, Repr

/-- What the host does at the engine's port: issue a command (R80), or pull the hardware reset input, which acts between
commands (R290). Logs 1 and 6. -/
inductive HostEvent where
  | command (cw : CmdWord) (arg : Word)
  | hardwareReset
deriving DecidableEq, Repr

/-- What the engine answers to one command: `status` and `ret` (R80). -/
structure Response where
  status : Byte
  ret : Word
deriving DecidableEq, Repr

/-- The five errors of R251. -/
inductive Error where
  /-- The word is no command (R252). -/
  | illegalCommand
  /-- An operand the command does not admit (R253). -/
  | argumentError
  /-- An access outside a buffer's capacity (R254). -/
  | capacityViolation
  /-- A read past the declared length, or a decoded gap of `2^32` or more (R255). -/
  | decodeError
  /-- A gap index or a gap count beyond the gap memory (R257). -/
  | gapCapacityViolation
deriving DecidableEq, Repr

/-- The whole machine. `regs` and `mem` are the engine's state, all that R20 names. `params`, `epoch`, `pending` and
`responses` are the MODEL's own fields: the OPEN parameters the step takes as an argument (R6, log 3), the index of the
reset-time draw (R292, log 5), and the host's side of the port (R14, log 1). -/
structure State where
  params : Config.Params
  regs : Regs
  mem : Memory
  /-- How many hardware resets have gone before: which draw the unwritten storage shows. -/
  epoch : Nat
  /-- The host's events still to be served, the next one first. -/
  pending : List HostEvent
  /-- The answers given so far, the newest first. -/
  responses : List Response
deriving DecidableEq, Repr

/-- Reasons to stop. There is none: every command of this engine ends, with `OK` or with an error that the host is told of,
and no error is fatal to the engine (R250, R261). Safe. Log 12. -/
inductive Fault where
deriving DecidableEq, Repr

/-- Refusals. Every command has its meaning, so no step gives one. -/
inductive Refusal where
  /-- Raised by `exec` for an instruction without a meaning (no arm does so). Safe: nothing is claimed of it. -/
  | notModelled (mnemonic : String)
deriving DecidableEq, Repr

/-- The result of one step. -/
abbrev StepOutcome := Host.Outcome State Fault Refusal

/-- How a procedure of R11 ends: at its end, with a value, or at a `raise`. Every write made before a `raise` stays. -/
inductive Ended (α : Type) where
  | returned (a : α) (s : State)
  | raised (e : Error) (s : State)
deriving DecidableEq, Repr

/-- Every register holds 0 after reset (R34). -/
def Regs.zero : Regs :=
  { fault := 0#64, capw0 := 0#64, capw1 := 0#64, len0 := 0#64, len1 := 0#64, glen0 := 0#64, glen1 := 0#64,
    optW := 0#64, optBits := 0#64, optWords := 0#64 }

/-- No storage word and no gap entry written: all of it holds the draw (R35, R292). -/
def Memory.unwritten : Memory := { bb0 := [], bb1 := [], gm0 := [], gm1 := [] }

/-- The engine with parameters `p` right after power-on: registers 0, memories unspecified, nothing issued (R290 to R292). -/
def State.powerOn (p : Config.Params) : State :=
  { params := p, regs := Regs.zero, mem := Memory.unwritten, epoch := 0, pending := [], responses := [] }

/-- The machine right after reset, with the parameter values R6 suggests (log 3). -/
def State.reset : State := State.powerOn Config.suggested

end Machine
end Sys2Proof
end

