-- ==== Sys2Proof/Machine/Ops.lean ====
section
/-! DEFINITION. The named operations over registers and memories that every command is written in (spec/20_memory.md R50 to
R61, spec/00_scope.md R10, R11). The taking of an error and the end of a command are in Flags.lean. -/

namespace Sys2Proof
namespace Machine

/-! ## Registers (R10, R24) -/

/-- `CAPW[b]`, `LEN[b]`, `GLEN[g]`, the optimizer's registers and `FAULT` (R10). -/
def State.capw (s : State) : BufId → Word
  | .b0 => s.regs.capw0
  | .b1 => s.regs.capw1
def State.len (s : State) : BufId → Word
  | .b0 => s.regs.len0
  | .b1 => s.regs.len1
def State.glen (s : State) : GapId → Word
  | .g0 => s.regs.glen0
  | .g1 => s.regs.glen1

/-- The registers with another value in one of them. -/
def Regs.setCapw (r : Regs) (b : BufId) (v : Word) : Regs :=
  match b with
  | .b0 => { r with capw0 := v }
  | .b1 => { r with capw1 := v }
def Regs.setLen (r : Regs) (b : BufId) (v : Word) : Regs :=
  match b with
  | .b0 => { r with len0 := v }
  | .b1 => { r with len1 := v }
def Regs.setGlen (r : Regs) (g : GapId) (v : Word) : Regs :=
  match g with
  | .g0 => { r with glen0 := v }
  | .g1 => { r with glen1 := v }
def Regs.setOpt (r : Regs) (w bits words : Word) : Regs := { r with optW := w, optBits := bits, optWords := words }
def Regs.setFault (r : Regs) (v : Word) : Regs := { r with fault := v }

/-- `CAPW[b] <- v`, `LEN[b] <- v`, `GLEN[g] <- v` (R10). -/
def State.setCapw (s : State) (b : BufId) (v : Word) : State := { s with regs := s.regs.setCapw b v }
def State.setLen (s : State) (b : BufId) (v : Word) : State := { s with regs := s.regs.setLen b v }
def State.setGlen (s : State) (g : GapId) (v : Word) : State := { s with regs := s.regs.setGlen g v }
/-- `OPT_W <- w; OPT_BITS <- bits; OPT_WORDS <- words` (R29). -/
def State.setOpt (s : State) (w bits words : Word) : State := { s with regs := s.regs.setOpt w bits words }

/-- `CapBits(b) = WORD_BITS * CAPW[b]` (R26). -/
def State.capBits (s : State) (b : BufId) : Nat := Config.wordBits * (s.capw b).toNat

/-! ## Memories as sparse lists -/

/-- What is written at address `a`, if anything is. -/
def storeGet {α : Type} : Store α → Nat → Option α
  | [], _ => none
  | (k, x) :: rest, a => if k = a then some x else storeGet rest a

/-- Write `v` at address `a`, keeping the addresses strictly rising. -/
def storeSet {α : Type} : Store α → Nat → α → Store α
  | [], a, v => [(a, v)]
  | (k, x) :: rest, a, v =>
    if a < k then (a, v) :: (k, x) :: rest
    else if a = k then (a, v) :: rest
    else (k, x) :: storeSet rest a v

/-- The canonical form of a store: addresses strictly rising. Log 7. -/
abbrev storeWf {α : Type} (m : Store α) : Prop := m.Pairwise fun x y => x.1 < y.1

/-- The canonical form of a cell: something is written, and the value is 0 where nothing is. -/
abbrev cellWf (c : Cell) : Prop := c.written ≠ 0#64 ∧ c.value &&& ~~~c.written = 0#64

/-- The canonical form of the whole memory (log 7). -/
abbrev Memory.wf (m : Memory) : Prop :=
  (storeWf m.bb0 ∧ ∀ x ∈ m.bb0, cellWf x.2) ∧ (storeWf m.bb1 ∧ ∀ x ∈ m.bb1, cellWf x.2) ∧
    storeWf m.gm0 ∧ storeWf m.gm1

/-! ## Bits and fields of a buffer (R50, R51, R54 to R59) -/

/-- Bit `i` of a storage word whose reset-time draw is `draw` and of which `c` has been written. -/
def cellBit (draw : Word) (c : Option Cell) (i : Nat) : Bool :=
  match c with
  | none => draw.getLsbD i
  | some c => if c.written.getLsbD i then c.value.getLsbD i else draw.getLsbD i

/-- R55 on one word: bit `i` becomes `t`, the other 63 bits stay. -/
def cellPutBit (c : Cell) (i : Nat) (t : Bool) : Cell :=
  { written := c.written ||| 1#64 <<< i
    value := (c.value &&& ~~~(1#64 <<< i)) ||| (if t then 1#64 <<< i else 0#64) }

/-- A word all of whose bits are written, with the value 0. -/
def cellZero : Cell := { written := BitVec.allOnes 64, value := 0#64 }

/-- The written part of buffer `b`, and the state with another one. -/
def State.buf (s : State) : BufId → Store Cell
  | .b0 => s.mem.bb0
  | .b1 => s.mem.bb1
def Memory.setBuf (m : Memory) (b : BufId) (c : Store Cell) : Memory :=
  match b with
  | .b0 => { m with bb0 := c }
  | .b1 => { m with bb1 := c }
def State.setBuf (s : State) (b : BufId) (c : Store Cell) : State := { s with mem := s.mem.setBuf b c }

/-- `Bit(b, p)` (R54): bit `p mod 64` of storage word `p div 64`. -/
def State.bit (s : State) (b : BufId) (p : Nat) : Bool :=
  cellBit (Config.drawnWord s.epoch b (p / Config.wordBits)) (storeGet (s.buf b) (p / Config.wordBits)) (p % Config.wordBits)

/-- `BBW[b][k]` (R30), the storage word as a 64-bit value: the written bits over the draw. -/
def State.word (s : State) (b : BufId) (k : Nat) : Word :=
  match storeGet (s.buf b) k with
  | none => Config.drawnWord s.epoch b k
  | some c => (c.value &&& c.written) ||| (Config.drawnWord s.epoch b k &&& ~~~c.written)

/-- `PutBit` (R55) on the written part of a buffer. -/
def bufPutBit (m : Store Cell) (p : Nat) (t : Bool) : Store Cell :=
  storeSet m (p / Config.wordBits)
    (cellPutBit ((storeGet m (p / Config.wordBits)).getD { written := 0#64, value := 0#64 }) (p % Config.wordBits) t)

/-- `PutField` (R57): `PutBit(b, o + i, v[i])` for every `i` in `0 .. k-1`. -/
def bufPutField (m : Store Cell) (o : Nat) : Nat → Nat → Store Cell
  | 0, _ => m
  | k + 1, v => bufPutBit (bufPutField m o k v) (o + k) (v.testBit k)

/-- Words `0 .. n-1` become 0 (R125). -/
def bufClear (m : Store Cell) : Nat → Store Cell
  | 0 => m
  | n + 1 => bufClear (storeSet m n cellZero) n

/-- `PutBit(b, p, t)` (R55). -/
def State.putBit (s : State) (b : BufId) (p : Nat) (t : Bool) : State := s.setBuf b (bufPutBit (s.buf b) p t)

/-- `PutField(b, o, k, v)` (R57). -/
def State.putField (s : State) (b : BufId) (o k v : Nat) : State := s.setBuf b (bufPutField (s.buf b) o k v)

/-- `GetField(b, o, k)` (R56): the sum of `Bit(b, o + i) * 2^i` over `i` in `0 .. k-1`. -/
def State.getField (s : State) (b : BufId) (o : Nat) : Nat → Nat
  | 0 => 0
  | k + 1 => s.getField b o k + (s.bit b (o + k)).toNat * 2 ^ k

/-- `Append(b, k, v)` (R59): write the field at the cursor, advance the cursor, return the field's offset; or raise with
nothing written. -/
def State.append (s : State) (b : BufId) (k v : Nat) : Ended Nat :=
  if (s.len b).toNat + k > s.capBits b then .raised .capacityViolation s
  else .returned (s.len b).toNat ((s.putField b (s.len b).toNat k v).setLen b (BitVec.ofNat 64 ((s.len b).toNat + k)))

/-! ## Gap memories (R61) -/

/-- The written part of gap memory `g`, and the state with another one. -/
def State.gaps (s : State) : GapId → Store Gap
  | .g0 => s.mem.gm0
  | .g1 => s.mem.gm1
def Memory.setGaps (m : Memory) (g : GapId) (c : Store Gap) : Memory :=
  match g with
  | .g0 => { m with gm0 := c }
  | .g1 => { m with gm1 := c }
def State.setGaps (s : State) (g : GapId) (c : Store Gap) : State := { s with mem := s.mem.setGaps g c }

/-- `GapRead(g, i)` (R61): `GM[g][i]`. -/
def State.gapRead (s : State) (g : GapId) (i : Nat) : Gap := (storeGet (s.gaps g) i).getD (Config.drawnGap s.epoch g i)

/-- `GapWrite(g, i, v)` (R61): `GM[g][i] <- v` and nothing else. -/
def State.gapWrite (s : State) (g : GapId) (i : Nat) (v : Gap) : State := s.setGaps g (storeSet (s.gaps g) i v)

/-- The sequence of `n` gaps from entry `i` on, as natural numbers. -/
def State.gapList (s : State) (g : GapId) (i n : Nat) : List Nat := (List.range' i n).map fun j => (s.gapRead g j).toNat

/-- The GapSequence in gap memory `g`: entries `0 .. GLEN[g]-1` (R28, R170). -/
def State.gapSeq (s : State) (g : GapId) : List Nat := s.gapList g 0 (s.glen g).toNat

/-- Hardware reset (R290, R292): every register 0, both memories unspecified again (a new draw). The parameters are the
engine's, and the host's events and answers are the host's. Log 6. -/
def State.hardwareReset (s : State) : State :=
  { s with regs := Regs.zero, mem := Memory.unwritten, epoch := s.epoch + 1 }

end Machine
end Sys2Proof
end

