-- ==== Sys2Proof/Machine/Flags.lean ====
section
/-! DEFINITION. The status of a command and the FAULT record, the engine's only status-like state (spec/10_state.md R23, R25,
spec/60_exceptions.md R250 to R262): how a command ends, and what an error does. No command writes a condition flag (R23). -/

namespace Sys2Proof
namespace Machine

/-- The status codes of R251. -/
def statusOk : Byte := 0x00#8
def errorCode : Error → Byte
  | .illegalCommand => 0x01#8
  | .argumentError => 0x02#8
  | .capacityViolation => 0x03#8
  | .decodeError => 0x04#8
  | .gapCapacityViolation => 0x05#8

/-- `FAULT[7:0] = CODE` and `FAULT[15:8] = OP` (R25). -/
def faultCode (f : Word) : Byte := f.extractLsb' 0 8
def faultOp (f : Word) : Byte := f.extractLsb' 8 8

/-- `FAULT[63:16]`, which reads as zero (R25). -/
def faultRest (f : Word) : BitVec 48 := f.extractLsb' 16 48

/-- The FAULT value that records an error of code `code` in a command with opcode byte `op` (R256): bits 63..16 zero. -/
def faultRecord (op code : Byte) : Word := op.setWidth 64 <<< 8 ||| code.setWidth 64

/-- The FAULT update of R256 at an error: only the first error since reset is recorded. -/
def updateFault (f : Word) (op code : Byte) : Word := if faultCode f = 0#8 then faultRecord op code else f

/-- The host receives `status` and `ret` (R80). -/
def State.respond (s : State) (status : Byte) (ret : Word) : State :=
  { s with responses := { status := status, ret := ret } :: s.responses }

/-- What an error does, in full (R261): the writes already made stay in `s`, FAULT is updated by R256, the host receives the
error's code and `ret = 0`. There is no return from it (R262): the next command starts clean. -/
def State.takeError (s : State) (op : Byte) (e : Error) : State :=
  ({ s with regs := s.regs.setFault (updateFault s.regs.fault op (errorCode e)) } : State).respond (errorCode e) 0#64

/-- How a command with opcode `op` ends (R11): `OK` with the value it computed, or an error. -/
def conclude (op : Byte) : Ended Nat → StepOutcome
  | .returned ret s => .next (s.respond statusOk (BitVec.ofNat 64 ret))
  | .raised e s => .next (s.takeError op e)

/-- The next statement of a procedure: it runs where the one before it returned, and not after a `raise` (R11). -/
def andThen {α β : Type} (r : Ended α) (f : α → State → Ended β) : Ended β :=
  match r with
  | .returned a s => f a s
  | .raised e s => .raised e s

end Machine
end Sys2Proof
end

