-- ==== Sys2Proof/Machine/Operands.lean ====
section
/-! DEFINITION. The operand forms of the commands: register numbers (spec/10_state.md R24), the capacity test of bit positions
(spec/20_memory.md R60), values against widths (spec/40_bitbuffer.md R123), gap indices (R61), and the legality of a register
write (spec/45_system_commands.md R232). The splitting of GAPWR's `arg` (R84) is in Decode.lean. -/

namespace Sys2Proof
namespace Machine

/-- The names of the ten registers of R24. -/
inductive Reg where
  | fault
  | capw (b : BufId)
  | len (b : BufId)
  | glen (g : GapId)
  | optW
  | optBits
  | optWords
deriving DecidableEq, Repr

/-- Which register a number names (R24); 10 to 63 name none. -/
def regOfNumber (r : Width) : Option Reg :=
  match r.toNat with
  | 0 => some .fault
  | 1 => some (.capw .b0)
  | 2 => some (.capw .b1)
  | 3 => some (.len .b0)
  | 4 => some (.len .b1)
  | 5 => some (.glen .g0)
  | 6 => some (.glen .g1)
  | 7 => some .optW
  | 8 => some .optBits
  | 9 => some .optWords
  | _ => none

/-- `x[R]`: the value of a register (R10). -/
def State.readReg (s : State) : Reg → Word
  | .fault => s.regs.fault
  | .capw b => s.capw b
  | .len b => s.len b
  | .glen g => s.glen g
  | .optW => s.regs.optW
  | .optBits => s.regs.optBits
  | .optWords => s.regs.optWords

/-- WRREG may write this register, and `v` is a legal value for it (R232). -/
def State.writeLegal (s : State) (r : Reg) (v : Word) : Bool :=
  match r with
  | .fault => false
  | .capw b => v.toNat ≤ s.params.bbWords ∧ (s.len b).toNat ≤ Config.wordBits * v.toNat
  | .len b => v.toNat ≤ s.capBits b
  | .glen _ => v.toNat ≤ s.params.gapEntries
  | .optW => false
  | .optBits => false
  | .optWords => false

/-- `x[R] <- v` for the registers WRREG may write; the others are never written so (R232). -/
def State.writeReg (s : State) (r : Reg) (v : Word) : State :=
  match r with
  | .fault => s
  | .capw b => s.setCapw b v
  | .len b => s.setLen b v
  | .glen g => s.setGlen g v
  | .optW => s
  | .optBits => s
  | .optWords => s

/-- Positions `o .. o + k - 1` of buffer `b` are inside its capacity, on unbounded naturals (R60). -/
def State.inCapacity (s : State) (b : BufId) (o k : Nat) : Bool := o + k ≤ s.capBits b

/-- The operand fits a `w`-bit field (R123). -/
def fitsWidth (w : Width) (v : Word) : Bool := v.toNat < 2 ^ w.toNat

/-- The index names a physical entry (R61). -/
def State.gapIndexOk (s : State) (i : Nat) : Bool := i < s.params.gapEntries

/-- The sentinel `m = 2^w - 1` (R92, R190). -/
def sentinel (w : Nat) : Nat := 2 ^ w - 1

end Machine
end Sys2Proof
end

