-- ==== Sys2Proof/Machine/BitBuffer.lean ====
section
/-! DEFINITION. SETBIT, GETBIT, APPEND, READF, BBCLR (spec/40_bitbuffer.md R120 to R127). -/

namespace Sys2Proof
namespace Machine

/-- SETBIT (R121): the bit at position `pos` becomes 1; `LEN` is neither read nor written (R127). -/
def execSetbit (b : BufId) (pos : Word) (s : State) : StepOutcome :=
  conclude (Instr.opcode (.setbit b pos)) <|
    if s.inCapacity b pos.toNat 1 then .returned 0 (s.putBit b pos.toNat true) else .raised .capacityViolation s

/-- GETBIT (R122): `ret` is the bit at position `pos`, 0 or 1. -/
def execGetbit (b : BufId) (pos : Word) (s : State) : StepOutcome :=
  conclude (Instr.opcode (.getbit b pos)) <|
    if s.inCapacity b pos.toNat 1 then .returned (s.bit b pos.toNat).toNat s else .raised .capacityViolation s

/-- APPEND (R123): first the value against the width, then `Append` (R59). -/
def execAppend (b : BufId) (w : Width) (value : Word) (s : State) : StepOutcome :=
  conclude (Instr.opcode (.append b w value)) <|
    if fitsWidth w value then s.append b w.toNat value.toNat else .raised .argumentError s

/-- READF (R124): `ret` is the `w`-bit field at bit offset `offset`. -/
def execReadf (b : BufId) (w : Width) (offset : Word) (s : State) : StepOutcome :=
  conclude (Instr.opcode (.readf b w offset)) <|
    if s.inCapacity b offset.toNat w.toNat then .returned (s.getField b offset.toNat w.toNat) s
    else .raised .capacityViolation s

/-- BBCLR (R125): words `0 .. CAPW[b]-1` become 0 and `LEN[b]` becomes 0. The words are distinct and the command cannot
abort, so the order of the writes does not show. -/
def execBbclr (b : BufId) (s : State) : StepOutcome :=
  conclude (Instr.opcode (.bbclr b)) <|
    .returned 0 ((s.setBuf b (bufClear (s.buf b) (s.capw b).toNat)).setLen b 0#64)

end Machine
end Sys2Proof
end

