-- ==== Sys2Proof/Machine/Codec.lean ====
section
/-! DEFINITION. What the two codecs share: an encoder runs over a gap sequence, a decoder runs for a count
(spec/43_fixed_width_codec.md R191, R192, spec/44_rice_golomb_codec.md R211, R212). -/

namespace Sys2Proof
namespace Machine

/-- The encoders' outer loop: the code of each gap in order, until one raises (R191, R211). -/
def encodeGaps (one : Nat → State → Ended Unit) : List Nat → State → Ended Unit
  | [], s => .returned () s
  | x :: xs, s => andThen (one x s) fun _ s' => encodeGaps one xs s'

/-- An encode of `gaps` into buffer `b`: `LEN[b] <- 0`, the codes, `ret <- LEN[b]` (R191, R211). -/
def encodeInto (one : Nat → State → Ended Unit) (b : BufId) (gaps : List Nat) (s : State) : Ended Nat :=
  andThen (encodeGaps one gaps (s.setLen b 0#64)) fun _ s' => .returned (s'.len b).toNat s'

/-- The decoders' outer loop, with `n` gaps still to come, `k` stored, and the stream read up to `pos`. `one pos` reads the code
of one gap at `pos`: its value and the position after it, or `none` for a DecodeError. On an error the `k` complete gaps
stay and `GLEN[g] = k`; at the end `GLEN[g] = k` and `ret = pos` (R192, R212). -/
def decodeGaps (one : Nat → Option (Nat × Nat)) (g : GapId) : (n k pos : Nat) → State → Ended Nat
  | 0, k, pos, s => .returned pos (s.setGlen g (BitVec.ofNat 64 k))
  | n + 1, k, pos, s =>
    match one pos with
    | none => .raised .decodeError (s.setGlen g (BitVec.ofNat 64 k))
    | some (v, pos') => decodeGaps one g n (k + 1) pos' (s.gapWrite g k (BitVec.ofNat 32 v))

/-- A decode of `count` gaps into `g`: the count against the gap memory, before any change, then the loop from position 0
(R192, R212). -/
def decodeInto (one : Nat → Option (Nat × Nat)) (g : GapId) (count : Nat) (s : State) : Ended Nat :=
  if count > s.params.gapEntries then .raised .gapCapacityViolation s else decodeGaps one g count 0 0 s

end Machine
end Sys2Proof
end

