-- ==== Sys2Proof/Machine/FixedWidth.lean ====
section
/-! DEFINITION. ENC.FW and DEC.FW (spec/43_fixed_width_codec.md R190 to R200). -/

namespace Sys2Proof
namespace Machine

/-- The code of one gap (R191, inner loop): emit `min(g, m)` as a `w`-bit field, subtract it, and go on exactly when the word
emitted is the sentinel `m` (R198). `fuel = g + 1` is never used up: each further pass has `g` smaller by `m >= 1`. -/
def encodeGapFW (b : BufId) (w : Nat) : (fuel g : Nat) → State → Ended Unit
  | 0, _, s => .returned () s
  | fuel + 1, g, s =>
    andThen (s.append b w (min g (sentinel w))) fun _ s' =>
      if min g (sentinel w) = sentinel w then encodeGapFW b w fuel (g - min g (sentinel w)) s' else .returned () s'

/-- ENC.FW (R191). Width 0 is inadmissible, before anything changes (R193). -/
def execEncFw (b : BufId) (g : GapId) (w : Width) (s : State) : StepOutcome :=
  conclude (Instr.opcode (.encFw b g w)) <|
    if w = 0#6 then .raised .argumentError s
    else encodeInto (fun x => encodeGapFW b w.toNat (x + 1) x) b (s.gapSeq g) s

/-- The code of one gap at `pos` of the stream in buffer `b` of `src`, with running total `acc` (R192): read a `w`-bit word,
below the declared length (R194); add it; a total of `2^32` is an error (R196); the sentinel continues the gap, any other
word ends it. Each pass reads `w >= 1` bits below `LEN[b]`, so `fuel = LEN[b] + 1` is never used up. -/
def decodeGapFW (src : State) (b : BufId) (w : Nat) : (fuel pos acc : Nat) → Option (Nat × Nat)
  | 0, _, _ => none
  | fuel + 1, pos, acc =>
    if pos + w > (src.len b).toNat then none
    else if acc + src.getField b pos w ≥ 2 ^ Config.gapBits then none
    else if src.getField b pos w = sentinel w then decodeGapFW src b w fuel (pos + w) (acc + src.getField b pos w)
    else some (acc + src.getField b pos w, pos + w)

/-- DEC.FW (R192): the width (R193), the count, then the loop. The buffer is read as the command finds it: the loop writes the
gap memory only (R66). -/
def execDecFw (b : BufId) (g : GapId) (w : Width) (count : Word) (s : State) : StepOutcome :=
  conclude (Instr.opcode (.decFw b g w count)) <|
    if w = 0#6 then .raised .argumentError s
    else decodeInto (fun pos => decodeGapFW s b w.toNat ((s.len b).toNat + 1) pos 0) g count.toNat s

end Machine
end Sys2Proof
end

