-- ==== Sys2Proof/Machine/GapExtractor.lean ====
section
/-! DEFINITION. EXTRACT, GAPRD, GAPWR (spec/41_gap_extractor.md R150 to R156). -/

namespace Sys2Proof
namespace Machine

/-- The scan of R151 from position `p` on, over the next `n` positions, with zero-run counter `d`, `k` entries written so
far: a zero increments `d`; a one writes `d` as entry `k` and sets `d` to 0; after the scan the trailing gap is written. An
entry that does not fit raises, with `GLEN[g]` the entries written. The bits are read from `src`, the state before the
command: the scan writes the gap memory only (R66). -/
def extractScan (src : State) (b : BufId) (g : GapId) : (n p d k : Nat) → State → Ended Nat
  | 0, _, d, k, s =>
    if s.gapIndexOk k then
      .returned (k + 1) ((s.gapWrite g k (BitVec.ofNat 32 d)).setGlen g (BitVec.ofNat 64 (k + 1)))
    else .raised .gapCapacityViolation (s.setGlen g (BitVec.ofNat 64 k))
  | n + 1, p, d, k, s =>
    if src.bit b p then
      if s.gapIndexOk k then extractScan src b g n (p + 1) 0 (k + 1) (s.gapWrite g k (BitVec.ofNat 32 d))
      else .raised .gapCapacityViolation (s.setGlen g (BitVec.ofNat 64 k))
    else extractScan src b g n (p + 1) (d + 1) k s

/-- EXTRACT (R151): the capacity test first, with nothing written if it fails; then the scan. `ret = ones + 1`. -/
def execExtract (b : BufId) (g : GapId) (n : Word) (s : State) : StepOutcome :=
  conclude (Instr.opcode (.extract b g n)) <|
    if s.inCapacity b 0 n.toNat then extractScan s b g n.toNat 0 0 0 s else .raised .capacityViolation s

/-- GAPRD (R152): `ret` is entry `index`, zero-extended. The index is compared with `GAP_ENTRIES`, not with `GLEN[g]`. -/
def execGaprd (g : GapId) (index : Word) (s : State) : StepOutcome :=
  conclude (Instr.opcode (.gaprd g index)) <|
    if s.gapIndexOk index.toNat then .returned (s.gapRead g index.toNat).toNat s else .raised .gapCapacityViolation s

/-- GAPWR (R153): entry `index` becomes `value`; `GLEN[g]` does not change. -/
def execGapwr (g : GapId) (index value : BitVec 32) (s : State) : StepOutcome :=
  conclude (Instr.opcode (.gapwr g index value)) <|
    if s.gapIndexOk index.toNat then .returned 0 (s.gapWrite g index.toNat value) else .raised .gapCapacityViolation s

end Machine
end Sys2Proof
end

