-- ==== Sys2Proof/Machine/Optimizer.lean ====
section
/-! DEFINITION. OPT.FW and OPT.RG (spec/42_parameter_optimizer.md R170 to R180). The result is defined by R175, as R176 asks;
the pseudocode's own loop stands beside it, as `searchLoop`. Log 8. -/

namespace Sys2Proof
namespace Machine

/-- `wordsFW(w)` and `bitsFW(w)` of a gap sequence (R173). -/
def wordsFW (gaps : List Nat) (w : Nat) : Nat := (gaps.map fun g => g / sentinel w + 1).sum
def bitsFW (gaps : List Nat) (w : Nat) : Nat := w * wordsFW gaps w

/-- `bitsRG(w)` and `wordsRG(w)` of a gap sequence (R174). -/
def bitsRG (gaps : List Nat) (w : Nat) : Nat := (gaps.map fun g => g / 2 ^ w + 1 + w).sum
def wordsRG (gaps : List Nat) (w : Nat) : Nat := (gaps.map fun g => g / 2 ^ w + 2).sum

/-- The smallest of the `n` widths from `lo` on whose cost no other of them undercuts (R175). -/
def chosenWidth (bits : Nat → Nat) (lo n : Nat) : Nat :=
  ((List.range' lo n).find? fun w => (List.range' lo n).all fun w' => bits w ≤ bits w').getD lo

/-- The optimizer's registers after a search that chose `w` (R175): its width, its bits and its words; `ret` is the width
(R170). -/
def State.optimized (s : State) (w bits words : Nat) : Ended Nat :=
  .returned w (s.setOpt (BitVec.ofNat 64 w) (BitVec.ofNat 64 bits) (BitVec.ofNat 64 words))

/-- The width OPT.FW chooses for a sequence: the search starts at 1 (R173). -/
def bestWidthFW (gaps : List Nat) : Nat := chosenWidth (bitsFW gaps) 1 (Config.maxWidth - 1)

/-- The width OPT.RG chooses for a sequence: the search starts at 0 (R174). -/
def bestWidthRG (gaps : List Nat) : Nat := chosenWidth (bitsRG gaps) 0 Config.maxWidth

/-- OPT.FW (R171): the best width for the fixed-width code over `w = 1 .. MAX_WIDTH - 1`. -/
def execOptFw (g : GapId) (s : State) : StepOutcome :=
  conclude (Instr.opcode (.optFw g)) <|
    let gaps := s.gapSeq g
    s.optimized (bestWidthFW gaps) (bitsFW gaps (bestWidthFW gaps)) (wordsFW gaps (bestWidthFW gaps))

/-- OPT.RG (R172): the best width for the Rice-Golomb code over `w = 0 .. MAX_WIDTH - 1`. -/
def execOptRg (g : GapId) (s : State) : StepOutcome :=
  conclude (Instr.opcode (.optRg g)) <|
    let gaps := s.gapSeq g
    s.optimized (bestWidthRG gaps) (bitsRG gaps (bestWidthRG gaps)) (wordsRG gaps (bestWidthRG gaps))

/-- The loop of R171's and R172's pseudocode, with `n` widths from `w` on still to try and the best triple so far: strictly
less, so a tie keeps the smaller width. No meaning uses it. -/
def searchLoop (bits words : Nat → Nat) : (n w bestW bestBits bestWords : Nat) → Nat × Nat × Nat
  | 0, _, bestW, bestBits, bestWords => (bestW, bestBits, bestWords)
  | n + 1, w, bestW, bestBits, bestWords =>
    if bits w < bestBits then searchLoop bits words n (w + 1) w (bits w) (words w)
    else searchLoop bits words n (w + 1) bestW bestBits bestWords

end Machine
end Sys2Proof
end

