-- ==== Sys2Proof/Machine/RiceGolomb.lean ====
section
/-! DEFINITION. ENC.RG and DEC.RG (spec/44_rice_golomb_codec.md R210 to R220). -/

namespace Sys2Proof
namespace Machine

/-- `q` one-bits, each its own append (R213). -/
def appendOnes (b : BufId) : (q : Nat) → State → Ended Unit
  | 0, s => .returned () s
  | q + 1, s => andThen (s.append b 1 1) fun _ s' => appendOnes b q s'

/-- The code of one gap (R211): the quotient's ones, the terminator, the `w`-bit remainder. -/
def encodeGapRG (b : BufId) (w g : Nat) (s : State) : Ended Unit :=
  andThen (appendOnes b (g / 2 ^ w) s) fun _ s1 =>
    andThen (s1.append b 1 0) fun _ s2 =>
      andThen (s2.append b w (g % 2 ^ w)) fun _ s3 => .returned () s3

/-- ENC.RG (R211). Every width 0 to 63 is admissible (R215). -/
def execEncRg (b : BufId) (g : GapId) (w : Width) (s : State) : StepOutcome :=
  conclude (Instr.opcode (.encRg b g w)) <| encodeInto (fun x => encodeGapRG b w.toNat x) b (s.gapSeq g) s

/-- The unary part at `pos` (R212): the number of ones before the next zero, and the position after that zero; `none` where a
bit at or past the declared length would be read (R214). Each pass reads one bit below `LEN[b]`, so `fuel = LEN[b] + 1` is
never used up. -/
def decodeUnary (src : State) (b : BufId) : (fuel pos q : Nat) → Option (Nat × Nat)
  | 0, _, _ => none
  | fuel + 1, pos, q =>
    if pos + 1 > (src.len b).toNat then none
    else if src.bit b pos then decodeUnary src b fuel (pos + 1) (q + 1)
    else some (q, pos + 1)

/-- The code of one gap at `pos` of the stream in buffer `b` of `src` (R212): unary quotient, `w`-bit remainder below the
declared length (R214), and a value of `2^32` or more is an error (R216). -/
def decodeGapRG (src : State) (b : BufId) (w pos : Nat) : Option (Nat × Nat) :=
  match decodeUnary src b ((src.len b).toNat + 1) pos 0 with
  | none => none
  | some (q, pos') =>
    if pos' + w > (src.len b).toNat then none
    else if q * 2 ^ w + src.getField b pos' w ≥ 2 ^ Config.gapBits then none
    else some (q * 2 ^ w + src.getField b pos' w, pos' + w)

/-- DEC.RG (R212): the count, then the loop. The buffer is read as the command finds it: the loop writes the gap memory only
(R66). -/
def execDecRg (b : BufId) (g : GapId) (w : Width) (count : Word) (s : State) : StepOutcome :=
  conclude (Instr.opcode (.decRg b g w count)) <|
    decodeInto (fun pos => decodeGapRG s b w.toNat pos) g count.toNat s

end Machine
end Sys2Proof
end

