-- ==== Sys2Proof/Machine/System.lean ====
section
/-! DEFINITION. RESET, RDREG, WRREG (spec/45_system_commands.md R230 to R234). -/

namespace Sys2Proof
namespace Machine

/-- RESET (R230): all ten registers 0; no storage word and no gap entry changes. -/
def execReset (s : State) : StepOutcome :=
  conclude (Instr.opcode .reset) (.returned 0 { s with regs := Regs.zero })

/-- RDREG (R231): `ret <- x[R]`. A number that is no register never comes out of decoding; it is the IllegalCommand R231
names. -/
def execRdreg (r : Width) (s : State) : StepOutcome :=
  conclude (Instr.opcode (.rdreg r)) <|
    match regOfNumber r with
    | none => .raised .illegalCommand s
    | some reg => .returned (s.readReg reg).toNat s

/-- WRREG (R232): write the register if it is writable and the value legal, else ArgumentError with nothing written. -/
def execWrreg (r : Width) (value : Word) (s : State) : StepOutcome :=
  conclude (Instr.opcode (.wrreg r value)) <|
    match regOfNumber r with
    | none => .raised .illegalCommand s
    | some reg => if s.writeLegal reg value then .returned 0 (s.writeReg reg value) else .raised .argumentError s

end Machine
end Sys2Proof
end

