-- ==== Sys2Proof/Machine/Dispatch.lean ====
section
/-! DEFINITION. One arm per command: the meaning of each of the 17 rows of spec/30_encoding.md R86. -/

namespace Sys2Proof
namespace Machine

def exec (i : Instr) (s : State) : Host.Outcome State Fault Refusal :=
  match i with
  | .reset => Sys2Proof.Machine.execReset s
  | .rdreg r => Sys2Proof.Machine.execRdreg r s
  | .wrreg r value => Sys2Proof.Machine.execWrreg r value s
  | .setbit b pos => Sys2Proof.Machine.execSetbit b pos s
  | .getbit b pos => Sys2Proof.Machine.execGetbit b pos s
  | .append b w value => Sys2Proof.Machine.execAppend b w value s
  | .readf b w offset => Sys2Proof.Machine.execReadf b w offset s
  | .bbclr b => Sys2Proof.Machine.execBbclr b s
  | .extract b g n => Sys2Proof.Machine.execExtract b g n s
  | .gaprd g index => Sys2Proof.Machine.execGaprd g index s
  | .gapwr g index value => Sys2Proof.Machine.execGapwr g index value s
  | .optFw g => Sys2Proof.Machine.execOptFw g s
  | .optRg g => Sys2Proof.Machine.execOptRg g s
  | .encFw b g w => Sys2Proof.Machine.execEncFw b g w s
  | .decFw b g w count => Sys2Proof.Machine.execDecFw b g w count s
  | .encRg b g w => Sys2Proof.Machine.execEncRg b g w s
  | .decRg b g w count => Sys2Proof.Machine.execDecRg b g w count s

end Machine
end Sys2Proof
end

