-- ==== Sys2Proof/Machine/Port.lean ====
section
/-! DEFINITION. The command port (spec/30_encoding.md R80, R85, R87; spec/00_scope.md R14): taking the next event of the host,
placing a command there, and what an illegal word does. Step.lean calls these. -/

namespace Sys2Proof
namespace Machine

/-- The machine with its next event taken off. -/
def State.withoutHead (s : State) : State := { s with pending := s.pending.tail }

/-- A word that is no command (R87, R252): IllegalCommand, no state change except FAULT, `FAULT.OP = cw[7:0]`. -/
def execIllegal (cw : CmdWord) (s : State) : StepOutcome := conclude (opField cw) (.raised .illegalCommand s)

/-- The next event becomes the command `(cw, arg)`, in place of the one that stood there. -/
def State.withHeadCommand (s : State) (cw : CmdWord) (arg : Word) : State :=
  { s with pending := .command cw arg :: s.pending.tail }

end Machine
end Sys2Proof
end

