-- ==== Sys2Proof/Machine/Step.lean ====
section
/-! DEFINITION. One step of the machine: one whole event of the host (spec/00_scope.md R12, R14, spec/20_memory.md R64). -/

namespace Sys2Proof
namespace Machine

/-- One step. With nothing pending the engine is idle and waits (R291, log 2). A command is decoded (R85) and executed to
completion (R64); a word that decodes to no command is IllegalCommand (R87). The reset input acts between commands (R290,
log 6). -/
def step (s : State) : Host.Outcome State Fault Refusal :=
  match s.pending with
  | [] => .next s
  | .hardwareReset :: _ => .next s.withoutHead.hardwareReset
  | .command cw arg :: _ =>
    match decode cw arg with
    | .ok i => exec i s.withoutHead
    | .error _ => execIllegal cw s.withoutHead

/-- `s` with the command that `decodeTableWord nbits w` reads standing as the host's next event (log 9). -/
def State.withFetchWord (s : State) (nbits w : Nat) : State :=
  s.withHeadCommand (tableCmdWord nbits w) (tableArg nbits w)

end Machine
end Sys2Proof
end

