-- ==== Sys2Proof/Safety.lean ====
section
/-! DEFINITION. What claims are stated in: the invariant of spec/10_state.md R36; a run in which nothing went wrong (R25,
spec/70_reset_and_hazards.md R306); what a command leaves unchanged, what an error leaves, which command writes what; and the
gap sequences and streams of spec/41_gap_extractor.md R150 and spec/30_encoding.md R92, R93 as lists. -/

namespace Sys2Proof
namespace Machine

/-- `CAPW[b]`, `LEN[b]` within their legal ranges (R24, R36). -/
abbrev State.bufOk (s : State) (b : BufId) : Prop :=
  (s.capw b).toNat ≤ s.params.bbWords ∧ (s.len b).toNat ≤ s.capBits b

/-- `GLEN[g]` within its legal range (R24, R36). -/
abbrev State.gapsOk (s : State) (g : GapId) : Prop := (s.glen g).toNat ≤ s.params.gapEntries

/-- A status code of R251. -/
abbrev statusKnown (c : Byte) : Prop := c.toNat ≤ 5

/-- `FAULT` as R25 and R36 have it: 63..16 zero, CODE a status code, and no OP where there is no CODE. -/
abbrev faultOk (f : Word) : Prop :=
  faultRest f = 0#48 ∧ statusKnown (faultCode f) ∧ (faultCode f = 0#8 → faultOp f = 0#8)

/-- The optimizer's registers within their legal ranges (R24, R36, R177). -/
abbrev Regs.optOk (r : Regs) : Prop :=
  r.optW.toNat ≤ Config.maxWidth - 1 ∧ r.optBits.toNat < 2 ^ 57 ∧ r.optWords.toNat < 2 ^ 57

/-- No word or entry outside the physical memories is listed (R30, R31). -/
abbrev storeWithin {α : Type} (m : Store α) (n : Nat) : Prop := ∀ x ∈ m, x.1 < n

/-- The memories keep their canonical form and their physical sizes. -/
abbrev State.memOk (s : State) : Prop :=
  s.mem.wf ∧ storeWithin s.mem.bb0 s.params.bbWords ∧ storeWithin s.mem.bb1 s.params.bbWords ∧
    storeWithin s.mem.gm0 s.params.gapEntries ∧ storeWithin s.mem.gm1 s.params.gapEntries

/-- Every answer has a status of R251, and `ret` is 0 on any error (R11, R251). -/
abbrev responseOk (r : Response) : Prop := statusKnown r.status ∧ (r.status ≠ statusOk → r.ret = 0#64)

/-- The invariant of R36, with the constraints of R6 on the parameters, the canonical form of the memories, and what R11 and
R251 say of the answers. -/
abbrev State.Inv (s : State) : Prop :=
  s.params.legal ∧ s.bufOk .b0 ∧ s.bufOk .b1 ∧ s.gapsOk .g0 ∧ s.gapsOk .g1 ∧ faultOk s.regs.fault ∧ s.regs.optOk ∧
    s.memOk ∧ ∀ r ∈ s.responses, responseOk r

/-- Nothing has gone wrong since the last reset (R25, R306). -/
abbrev State.noFault (s : State) : Prop := s.regs.fault = 0#64

/-! ## What a command leaves unchanged -/

/-- The parameters, the draw and the host's events are as before. -/
abbrev sameHost (s t : State) : Prop := t.params = s.params ∧ t.epoch = s.epoch ∧ t.pending = s.pending

/-- Every bit of both buffers reads as before, inside and outside the capacities. -/
abbrev sameBits (s t : State) : Prop := ∀ b p, t.bit b p = s.bit b p

/-- Every entry of both gap memories reads as before. -/
abbrev sameGaps (s t : State) : Prop := ∀ g i, t.gapRead g i = s.gapRead g i

/-- The command was answered with `status` and `ret` (R80). -/
abbrev answered (s t : State) (status : Byte) (ret : Word) : Prop :=
  t.responses = { status := status, ret := ret } :: s.responses

/-- FAULT after an error of code `code` in a command of opcode `op`, by R256: `op` in bits 15..8 and `code` in bits 7..0 if
bits 7..0 held 0, else as it was. -/
def faultAfter (f : Word) (op code : Nat) : Word := if f.toNat % 256 = 0 then BitVec.ofNat 64 (256 * op + code) else f

/-- The command ended in an error that changed nothing but FAULT (R252, R253). -/
abbrev onlyError (op code : Nat) (s t : State) : Prop :=
  sameHost s t ∧ sameBits s t ∧ sameGaps s t ∧ t.regs = { s.regs with fault := faultAfter s.regs.fault op code } ∧
    answered s t (BitVec.ofNat 8 code) 0#64

/-! ## Which command writes what (R24, R30, R31) -/

/-- The commands that write bit buffer `b` (R30, R32). -/
def writesBuffer (b : BufId) : Instr → Bool
  | .setbit b' _ => b' = b
  | .append b' _ _ => b' = b
  | .bbclr b' => b' = b
  | .encFw b' _ _ => b' = b
  | .encRg b' _ _ => b' = b
  | .reset => false
  | .rdreg _ => false
  | .wrreg _ _ => false
  | .getbit _ _ => false
  | .readf _ _ _ => false
  | .extract _ _ _ => false
  | .gaprd _ _ => false
  | .gapwr _ _ _ => false
  | .optFw _ => false
  | .optRg _ => false
  | .decFw _ _ _ _ => false
  | .decRg _ _ _ _ => false

/-- The commands that write gap memory `g` (R31). -/
def writesGaps (g : GapId) : Instr → Bool
  | .extract _ g' _ => g' = g
  | .gapwr g' _ _ => g' = g
  | .decFw _ g' _ _ => g' = g
  | .decRg _ g' _ _ => g' = g
  | .reset => false
  | .rdreg _ => false
  | .wrreg _ _ => false
  | .setbit _ _ => false
  | .getbit _ _ => false
  | .append _ _ _ => false
  | .readf _ _ _ => false
  | .bbclr _ => false
  | .gaprd _ _ => false
  | .optFw _ => false
  | .optRg _ => false
  | .encFw _ _ _ => false
  | .encRg _ _ _ => false

/-- The register numbers of `CAPW[b]`, `LEN[b]` and `GLEN[g]` (R24). -/
def capwNumber : BufId → Width
  | .b0 => 1#6
  | .b1 => 2#6
def lenNumber : BufId → Width
  | .b0 => 3#6
  | .b1 => 4#6
def glenNumber : GapId → Width
  | .g0 => 5#6
  | .g1 => 6#6

/-- The numbers of a buffer and of a gap memory, as the `B` and `G` fields hold them (R81). -/
def bufNumber : BufId → Nat
  | .b0 => 0
  | .b1 => 1
def gapNumber : GapId → Nat
  | .g0 => 0
  | .g1 => 1

/-- The command word `op | w << 8 | b << 14 | g << 15`, as the rule of each command writes its encoding (R81). -/
def fieldWord (op : Nat) (w : Width) (b g : Nat) : CmdWord := BitVec.ofNat 32 (op + 2 ^ 8 * w.toNat + 2 ^ 14 * b + 2 ^ 15 * g)

/-- The commands that may write `CAPW[b]` (R24, R26): WRREG to it, and RESET. -/
def writesCapw (b : BufId) (i : Instr) : Prop := i = .reset ∨ ∃ v, i = .wrreg (capwNumber b) v

/-- The commands that may write `LEN[b]` (R24, R27). -/
def writesLen (b : BufId) (i : Instr) : Prop :=
  i = .reset ∨ (∃ v, i = .wrreg (lenNumber b) v) ∨ (∃ w v, i = .append b w v) ∨ i = .bbclr b ∨ (∃ g w, i = .encFw b g w) ∨
    ∃ g w, i = .encRg b g w

/-- The commands that may write `GLEN[g]` (R24, R28). -/
def writesGlen (g : GapId) (i : Instr) : Prop :=
  i = .reset ∨ (∃ v, i = .wrreg (glenNumber g) v) ∨ (∃ b n, i = .extract b g n) ∨ (∃ b w c, i = .decFw b g w c) ∨
    ∃ b w c, i = .decRg b g w c

/-- The commands that may write `OPT_W`, `OPT_BITS`, `OPT_WORDS` (R24, R29). -/
def writesOpt (i : Instr) : Prop := i = .reset ∨ (∃ g, i = .optFw g) ∨ ∃ g, i = .optRg g

/-- The statuses a decoded command can return, by the table of R258. -/
def allowedStatus : Instr → List Nat
  | .reset => [0]
  | .rdreg _ => [0]
  | .wrreg _ _ => [0, 2]
  | .setbit _ _ => [0, 3]
  | .getbit _ _ => [0, 3]
  | .append _ _ _ => [0, 2, 3]
  | .readf _ _ _ => [0, 3]
  | .bbclr _ => [0]
  | .extract _ _ _ => [0, 3, 5]
  | .gaprd _ _ => [0, 5]
  | .gapwr _ _ _ => [0, 5]
  | .optFw _ => [0]
  | .optRg _ => [0]
  | .encFw _ _ _ => [0, 2, 3]
  | .decFw _ _ _ _ => [0, 2, 4, 5]
  | .encRg _ _ _ => [0, 3]
  | .decRg _ _ _ _ => [0, 4, 5]

/-- The host pulls the reset input, or issues the RESET command. -/
def isReset : HostEvent → Bool
  | .hardwareReset => true
  | .command cw _ => cw = 0x00000001#32

/-! ## Gap sequences and streams as lists (R91 to R93, R150) -/

/-- The positions of the ones among positions `0 .. n-1` of buffer `b`, rising. -/
def State.onesBelow (s : State) (b : BufId) (n : Nat) : List Nat := (List.range n).filter fun p => s.bit b p

/-- R150: the gaps of a bit vector of length `n` whose remaining ones, all at or after `start`, are at the listed positions:
the zeros before each, and the zeros after the last. -/
def gapsFrom (n : Nat) : (start : Nat) → List Nat → List Nat
  | start, [] => [n - start]
  | start, p :: rest => (p - start) :: gapsFrom n (p + 1) rest

/-- What a gap memory entry reads as after the entries of `xs` are written from entry 0 on, where it read `old`. -/
def overlay (xs : List Nat) (i : Nat) (old : Gap) : Gap :=
  match xs[i]? with
  | some x => BitVec.ofNat 32 x
  | none => old

/-- The bits of a `k`-bit field, least significant first (R51). -/
def fieldBits (k v : Nat) : List Bool := (List.range k).map fun i => v.testBit i

/-- The fields, as (width, value), of the fixed-width code of a gap sequence (R92): for each gap `g div m` sentinels, then
`g mod m`. -/
def fieldsFW (w : Nat) (gaps : List Nat) : List (Nat × Nat) :=
  gaps.flatMap fun g => List.replicate (g / (2 ^ w - 1)) (w, 2 ^ w - 1) ++ [(w, g % (2 ^ w - 1))]

/-- The fields of the Rice-Golomb code of a gap sequence (R93): for each gap `g div 2^w` one-bits, a zero-bit, and the
remainder. -/
def fieldsRG (w : Nat) (gaps : List Nat) : List (Nat × Nat) :=
  gaps.flatMap fun g => List.replicate (g / 2 ^ w) (1, 1) ++ [(1, 0), (w, g % 2 ^ w)]

/-- The bit string of a list of fields (R91), and its length. -/
def streamOf (fields : List (Nat × Nat)) : List Bool := fields.flatMap fun f => fieldBits f.1 f.2
def fieldsLen (fields : List (Nat × Nat)) : Nat := (fields.map fun f => f.1).sum

/-- Buffer `b` holds the bit string from position 0 on. -/
def holdsStream (s : State) (b : BufId) (bits : List Bool) : Prop := ∀ p x, bits[p]? = some x → s.bit b p = x

/-- The bits of buffer `b` are those of the string from position 0 on, and from its end on as in `s`; the other buffer is as in
`s`. -/
def bitsAre (s t : State) (b : BufId) (bits : List Bool) : Prop :=
  ∀ b' p, t.bit b' p = if b' = b then (bits[p]?).getD (s.bit b p) else s.bit b' p

/-- The entries of gap memory `g` are those of the list from entry 0 on, and from its end on as in `s`; the other gap memory is
as in `s`. -/
def gapsAre (s t : State) (g : GapId) (xs : List Nat) : Prop :=
  ∀ g' i, t.gapRead g' i = if g' = g then overlay xs i (s.gapRead g i) else s.gapRead g' i

end Machine
end Sys2Proof
end

