-- ==== Sys2Proof/Certificates/Slice0/Obligations.lean ====
section
/-! DEFINITION. The statements for the provers. Each is about the machine, none about a program; OBLIGATIONS.json says which
rule of spec/ each formalises. -/

open Sys2Proof Sys2Proof.Machine

/-! ## Encoding -/

/-- R81, R82, R86: some command words of spec/95_test_vectors.md B.0 and B.7, with an operand, decode to their commands. -/
def Obligations.DecodeOfSpecWords : Prop :=
  decode 0x00000001#32 7#64 = .ok .reset ∧
  decode 0x00000402#32 0#64 = .ok (.rdreg 4#6) ∧
  decode 0x00000103#32 2#64 = .ok (.wrreg 1#6 2#64) ∧
  decode 0x00004010#32 3#64 = .ok (.setbit .b1 3#64) ∧
  decode 0x00007F12#32 1#64 = .ok (.append .b1 63#6 1#64) ∧
  decode 0x00008020#32 128#64 = .ok (.extract .b0 .g1 128#64) ∧
  decode 0x00008022#32 0x00000003000001F4#64 = .ok (.gapwr .g1 3#32 500#32) ∧
  decode 0x00008030#32 0#64 = .ok (.optFw .g1) ∧
  decode 0x00004240#32 0#64 = .ok (.encFw .b1 .g0 2#6) ∧
  decode 0x0000FF51#32 4#64 = .ok (.decRg .b1 .g1 63#6 4#64)

/-- R81 to R86: decode and encode agree: every well-formed command, with every operand at every value the encoding admits, is what its own
transaction decodes to. -/
def Obligations.DecodeOfEncode : Prop :=
  ∀ i : Instr, i.wellFormed = true → decode (encode i).1 (encode i).2 = .ok i

/-- The `mask` and `match` columns of R86's table, and whether the row is RDREG or WRREG. -/
def Sys2Proof.commandTable : List (Nat × Nat × Bool) :=
  [ (0xFFFFFFFF, 0x01, false), (0xFFFFC0FF, 0x02, true), (0xFFFFC0FF, 0x03, true), (0xFFFFBFFF, 0x10, false),
    (0xFFFFBFFF, 0x11, false), (0xFFFF80FF, 0x12, false), (0xFFFF80FF, 0x13, false), (0xFFFFBFFF, 0x14, false),
    (0xFFFF3FFF, 0x20, false), (0xFFFF7FFF, 0x21, false), (0xFFFF7FFF, 0x22, false), (0xFFFF7FFF, 0x30, false),
    (0xFFFF7FFF, 0x31, false), (0xFFFF00FF, 0x40, false), (0xFFFF00FF, 0x41, false), (0xFFFF00FF, 0x50, false),
    (0xFFFF00FF, 0x51, false) ]

/-- R85: decoding accepts a word exactly if `cw & mask = match` for some row of R86, with the register-number range for RDREG
and WRREG; and no two rows match one word. -/
def Obligations.DecodeAcceptsByMask : Prop :=
  ∀ (cw : CmdWord) (arg : Word),
    ((∃ i, decode cw arg = .ok i) ↔
      ∃ row ∈ commandTable, cw.toNat &&& row.1 = row.2.1 ∧ (row.2.2 = true → cw.toNat / 256 % 64 < 10)) ∧
    ∀ row ∈ commandTable, ∀ row' ∈ commandTable, cw.toNat &&& row.1 = row.2.1 → cw.toNat &&& row'.1 = row'.2.1 → row = row'

/-- R81, R82, R85: the command a word decodes to determines the word: it is the word the command encodes to, so no two words decode
to one command; and decoding gives well-formed commands only. -/
def Obligations.DecodeDeterminesWord : Prop :=
  ∀ (cw : CmdWord) (arg : Word) (i : Instr), decode cw arg = .ok i → (encode i).1 = cw ∧ i.wellFormed = true

/-- R84: GAPWR's operand is the entry index in `arg[63:32]` and the value in `arg[31:0]`, for every `arg`. -/
def Obligations.GapwrOperandSplit : Prop :=
  ∀ (g : GapId) (arg : Word), decode (fieldWord 0x22 0#6 0 (gapNumber g)) arg =
    .ok (.gapwr g (BitVec.ofNat 32 (arg.toNat / 2 ^ 32)) (BitVec.ofNat 32 (arg.toNat % 2 ^ 32)))

/-- R83: for RESET, RDREG, BBCLR, OPT.FW, OPT.RG, ENC.FW and ENC.RG the operand `arg` is ignored. -/
def Obligations.IgnoredOperand : Prop :=
  ∀ (cw : CmdWord) (arg arg' : Word),
    cw.toNat % 256 ∈ [0x01, 0x02, 0x14, 0x30, 0x31, 0x40, 0x50] → decode cw arg = decode cw arg'

/-! ## The step -/

/-- R64, R80, R85: a step at which a command is pending that decodes runs exactly that command, on the state with the command
taken off the port; it does nothing else around it. -/
def Obligations.StepRunsDecodedCommand : Prop :=
  ∀ (s : State) (cw : CmdWord) (arg : Word) (rest : List HostEvent) (i : Instr),
    s.pending = .command cw arg :: rest → decode cw arg = .ok i → step s = exec i { s with pending := rest }

/-- R252: a word that no row of R86 accepts, or that names a register of number 10 or more in RDREG or WRREG, is answered
IllegalCommand with `ret = 0`, and changes nothing but FAULT, which records `cw[7:0]`. -/
def Obligations.StepIllegalWord : Prop :=
  ∀ (s : State) (cw : CmdWord) (arg : Word) (rest : List HostEvent), s.pending = .command cw arg :: rest →
    (∀ row ∈ commandTable, ¬ (cw.toNat &&& row.1 = row.2.1 ∧ (row.2.2 = true → cw.toNat / 256 % 64 < 10))) →
    ∃ t, step s = .next t ∧ onlyError (cw.toNat % 256) 1 { s with pending := rest } t

/-- The model's choice (log 2), after R291: with nothing pending the engine waits, and a step changes nothing. -/
def Obligations.StepIdleWaits : Prop := ∀ s : State, s.pending = [] → step s = .next s

/-- R34, R35, R290, R292, as the event of log 6: the reset input sets every register to 0 and leaves every storage word and
every entry at the value drawn for this reset; it touches neither the parameters nor what the host has been answered. -/
def Obligations.StepHardwareReset : Prop :=
  ∀ (s : State) (rest : List HostEvent), s.pending = .hardwareReset :: rest →
    ∃ t, step s = .next t ∧ (∀ r : Reg, t.readReg r = 0#64) ∧
      (∀ b k, t.word b k = Config.drawnWord (s.epoch + 1) b k) ∧ (∀ g i, t.gapRead g i = Config.drawnGap (s.epoch + 1) g i) ∧
      t.params = s.params ∧ t.epoch = s.epoch + 1 ∧ t.pending = rest ∧ t.responses = s.responses

/-- R11, R251, R260: a command is served in one step and gets exactly one answer, whose status is one of the six codes and whose
`ret` is 0 on any error. The clause about `.hardwareReset` (the reset input is an event served in one step, and is given no
answer) is the model's choice, log 6 (DEDUCED), after R290. -/
def Obligations.StepAnswersEveryCommand : Prop :=
  ∀ (s : State) (ev : HostEvent) (rest : List HostEvent), s.pending = ev :: rest →
    ∃ t, step s = .next t ∧ t.pending = rest ∧ t.params = s.params ∧
      (ev = .hardwareReset → t.responses = s.responses) ∧
      (ev ≠ .hardwareReset → t.epoch = s.epoch ∧ ∃ r, t.responses = r :: s.responses ∧ responseOk r)

/-- R68 (c): what a command does and answers depends neither on the events still to come nor on the answers already given. -/
def Obligations.HostHistoryDoesNotMatter : Prop :=
  ∀ (i : Instr) (s : State) (ps : List HostEvent) (rs : List Response),
    ∃ t u r, exec i s = .next t ∧ exec i { s with pending := ps, responses := rs } = .next u ∧
      t.responses = r :: s.responses ∧ u = { t with pending := ps, responses := r :: rs }

/-! ## The invariant -/

/-- R34, R36: right after power-on every register is 0 and the invariant holds, whatever the parameters; `State.reset` is that
state with the parameter values R6 suggests (the model's choice, log 3). -/
def Obligations.PowerOnInvariant : Prop :=
  (∀ p : Config.Params, p.legal → (State.powerOn p).Inv ∧ ∀ r : Reg, (State.powerOn p).readReg r = 0#64) ∧
    State.reset = State.powerOn { bbWords := 1024, gapEntries := 4096 }

/-- R36: every step keeps the invariant, from every state that has it. -/
def Obligations.StepKeepsInvariant : Prop := ∀ s t : State, s.Inv → step s = .next t → t.Inv

/-- R36: in every state reachable from reset by any sequence of commands and resets, the invariant holds. -/
def Obligations.ReachableStatesKeepInvariant : Prop :=
  ∀ (p : Config.Params) (evs : List HostEvent) (n : Nat) (t : State), p.legal →
    Host.Core.run Sys2Proof.core n { State.powerOn p with pending := evs } = .next t → t.Inv

/-! ## FAULT -/

/-- R256: a command that ends with a nonzero status records its opcode byte and its status in FAULT if FAULT held no error; FAULT
is otherwise unchanged, and RESET clears it. -/
def Obligations.FaultRecordsFirstError : Prop :=
  ∀ (s : State) (cw : CmdWord) (arg : Word) (rest : List HostEvent), s.pending = .command cw arg :: rest →
    ∃ t r, step s = .next t ∧ t.responses = r :: s.responses ∧
      (r.status ≠ 0#8 → t.regs.fault = faultAfter s.regs.fault (cw.toNat % 256) r.status.toNat) ∧
      (r.status = 0#8 → cw ≠ 0x00000001#32 → t.regs.fault = s.regs.fault) ∧
      (cw = 0x00000001#32 → r.status = 0#8 ∧ t.regs.fault = 0#64)

/-- R306: over any run in which no reset is pending, `FAULT = 0` at the end means that every command of the run was answered
`OK`. -/
def Obligations.FaultZeroMeansAllOk : Prop :=
  ∀ (n : Nat) (s t : State), (∀ ev ∈ s.pending, isReset ev = false) → Host.Core.run Sys2Proof.core n s = .next t →
    t.noFault → ∃ rs, t.responses = rs ++ s.responses ∧ ∀ r ∈ rs, r.status = 0#8

/-- R258: a decoded command returns no status but those its row of the table allows. -/
def Obligations.StatusesAsTabled : Prop :=
  ∀ (i : Instr) (s t : State), i.wellFormed = true → exec i s = .next t →
    ∃ r, t.responses = r :: s.responses ∧ r.status.toNat ∈ allowedStatus i

/-! ## System commands -/

/-- R230: RESET, whatever its operand, sets all ten registers to 0 and changes no storage word and no entry; no other command
clears a recorded error. -/
def Obligations.ResetClearsRegisters : Prop :=
  ∀ (s : State) (arg : Word), decode 0x00000001#32 arg = .ok .reset ∧
    (∃ t, exec .reset s = .next t ∧ (∀ r : Reg, t.readReg r = 0#64) ∧ t.mem = s.mem ∧ sameHost s t ∧ answered s t 0#8 0#64) ∧
    ∀ i u, i ≠ .reset → s.regs.fault.toNat % 256 ≠ 0 → exec i s = .next u → u.regs.fault = s.regs.fault

/-- R231: RDREG returns the register of its number and changes nothing; numbers 10 to 63 are illegal words. -/
def Obligations.RdregReturnsRegister : Prop :=
  ∀ (s : State) (r : Width) (arg : Word),
    (∀ v, [s.regs.fault, s.regs.capw0, s.regs.capw1, s.regs.len0, s.regs.len1, s.regs.glen0, s.regs.glen1, s.regs.optW,
        s.regs.optBits, s.regs.optWords][r.toNat]? = some v →
      decode (fieldWord 0x02 r 0 0) arg = .ok (.rdreg r) ∧
      ∃ t, exec (.rdreg r) s = .next t ∧ t.regs = s.regs ∧ t.mem = s.mem ∧ sameHost s t ∧ answered s t 0#8 v) ∧
    (10 ≤ r.toNat → decode (fieldWord 0x02 r 0 0) arg = .error .registerNumber)

/-- R232: the word of WRREG names a register, 0 to 9; WRREG of a legal value to `CAPW[b]`, `LEN[b]` or `GLEN[g]` writes that register and nothing else. -/
def Obligations.WrregWritesLegalValue : Prop :=
  ∀ (s : State) (v : Word),
    (∀ r : Width, r.toNat < 10 → decode (fieldWord 0x03 r 0 0) v = .ok (.wrreg r v)) ∧
    (∀ b, v.toNat ≤ s.params.bbWords → (s.len b).toNat ≤ 64 * v.toNat →
      ∃ t, exec (.wrreg (capwNumber b) v) s = .next t ∧ t.regs = s.regs.setCapw b v ∧ t.mem = s.mem ∧ sameHost s t ∧
        answered s t 0#8 0#64) ∧
    (∀ b, v.toNat ≤ 64 * (s.capw b).toNat →
      ∃ t, exec (.wrreg (lenNumber b) v) s = .next t ∧ t.regs = s.regs.setLen b v ∧ t.mem = s.mem ∧ sameHost s t ∧
        answered s t 0#8 0#64) ∧
    (∀ g, v.toNat ≤ s.params.gapEntries →
      ∃ t, exec (.wrreg (glenNumber g) v) s = .next t ∧ t.regs = s.regs.setGlen g v ∧ t.mem = s.mem ∧ sameHost s t ∧
        answered s t 0#8 0#64)

/-- R232: WRREG to a read-only register, or of an illegal value, is an ArgumentError that writes nothing. -/
def Obligations.WrregRefusesIllegalValue : Prop :=
  ∀ (s : State) (r : Width) (v : Word),
    (r.toNat ∈ [0, 7, 8, 9] ∨
      (∃ b, r = capwNumber b ∧ (s.params.bbWords < v.toNat ∨ 64 * v.toNat < (s.len b).toNat)) ∨
      (∃ b, r = lenNumber b ∧ 64 * (s.capw b).toNat < v.toNat) ∨
      (∃ g, r = glenNumber g ∧ s.params.gapEntries < v.toNat)) →
    ∃ t, exec (.wrreg r v) s = .next t ∧ onlyError 0x03 2 s t

/-! ## Bit buffer commands -/

/-- R121: SETBIT sets the bit at `pos` to 1 and changes nothing else; at or past the capacity it is a CapacityViolation. -/
def Obligations.SetbitSetsOneBit : Prop :=
  ∀ (s : State) (b : BufId) (pos : Word),
    decode (fieldWord 0x10 0#6 (bufNumber b) 0) pos = .ok (.setbit b pos) ∧
    (pos.toNat < s.capBits b →
      ∃ t, exec (.setbit b pos) s = .next t ∧
        (∀ b' p, t.bit b' p = if b' = b ∧ p = pos.toNat then true else s.bit b' p) ∧
        sameGaps s t ∧ t.regs = s.regs ∧ sameHost s t ∧ answered s t 0#8 0#64) ∧
    (s.capBits b ≤ pos.toNat → ∃ t, exec (.setbit b pos) s = .next t ∧ onlyError 0x10 3 s t)

/-- R122: GETBIT returns the bit at `pos`, 0 or 1, and changes nothing; at or past the capacity it is a CapacityViolation. -/
def Obligations.GetbitReturnsBit : Prop :=
  ∀ (s : State) (b : BufId) (pos : Word),
    decode (fieldWord 0x11 0#6 (bufNumber b) 0) pos = .ok (.getbit b pos) ∧
    (pos.toNat < s.capBits b →
      ∃ t, exec (.getbit b pos) s = .next t ∧ t.regs = s.regs ∧ t.mem = s.mem ∧ sameHost s t ∧
        answered s t 0#8 (if s.bit b pos.toNat then 1#64 else 0#64)) ∧
    (s.capBits b ≤ pos.toNat → ∃ t, exec (.getbit b pos) s = .next t ∧ onlyError 0x11 3 s t)

/-- R123: APPEND writes the value's `w` bits at the cursor, least significant first, overwriting exactly those positions, and
advances the cursor; a value that does not fit the width is an ArgumentError, a field that does not fit the capacity a
CapacityViolation, both with nothing written. -/
def Obligations.AppendWritesField : Prop :=
  ∀ (s : State) (b : BufId) (w : Width) (v : Word), s.Inv →
    decode (fieldWord 0x12 w (bufNumber b) 0) v = .ok (.append b w v) ∧
    (v.toNat < 2 ^ w.toNat → (s.len b).toNat + w.toNat ≤ s.capBits b →
      ∃ t, exec (.append b w v) s = .next t ∧
        (∀ b' p, t.bit b' p =
          if b' = b ∧ (s.len b).toNat ≤ p ∧ p < (s.len b).toNat + w.toNat then v.getLsbD (p - (s.len b).toNat)
          else s.bit b' p) ∧
        sameGaps s t ∧ t.regs = s.regs.setLen b (BitVec.ofNat 64 ((s.len b).toNat + w.toNat)) ∧ sameHost s t ∧
        answered s t 0#8 (s.len b)) ∧
    (2 ^ w.toNat ≤ v.toNat → ∃ t, exec (.append b w v) s = .next t ∧ onlyError 0x12 2 s t) ∧
    (v.toNat < 2 ^ w.toNat → s.capBits b < (s.len b).toNat + w.toNat →
      ∃ t, exec (.append b w v) s = .next t ∧ onlyError 0x12 3 s t)

/-- R124: READF returns the `w` bits from `offset` on, the first as bit 0, and changes nothing; a field not inside the capacity
is a CapacityViolation. -/
def Obligations.ReadfReturnsField : Prop :=
  ∀ (s : State) (b : BufId) (w : Width) (o : Word),
    decode (fieldWord 0x13 w (bufNumber b) 0) o = .ok (.readf b w o) ∧
    (o.toNat + w.toNat ≤ s.capBits b →
      ∃ t ret, exec (.readf b w o) s = .next t ∧ t.regs = s.regs ∧ t.mem = s.mem ∧ sameHost s t ∧ answered s t 0#8 ret ∧
        ∀ i, ret.getLsbD i = (decide (i < w.toNat) && s.bit b (o.toNat + i))) ∧
    (s.capBits b < o.toNat + w.toNat → ∃ t, exec (.readf b w o) s = .next t ∧ onlyError 0x13 3 s t)

/-- R128 (b): after an APPEND answered `OK`, a READF of the same width at the offset it returned returns the value. -/
def Obligations.ReadfAfterAppend : Prop :=
  ∀ (s : State) (b : BufId) (w : Width) (v : Word), s.Inv → v.toNat < 2 ^ w.toNat →
    (s.len b).toNat + w.toNat ≤ s.capBits b →
    ∃ t u o, exec (.append b w v) s = .next t ∧ answered s t 0#8 o ∧ exec (.readf b w o) t = .next u ∧ answered t u 0#8 v

/-- R125: BBCLR zeroes words `0 .. CAPW[b]-1` of its buffer and its cursor; words outside the window and the other buffer are
unchanged. -/
def Obligations.BbclrZeroesWindow : Prop :=
  ∀ (s : State) (b : BufId) (arg : Word),
    decode (fieldWord 0x14 0#6 (bufNumber b) 0) arg = .ok (.bbclr b) ∧
    ∃ t, exec (.bbclr b) s = .next t ∧
      (∀ b' k, t.word b' k = if b' = b ∧ k < (s.capw b).toNat then 0#64 else s.word b' k) ∧
      sameGaps s t ∧ t.regs = s.regs.setLen b 0#64 ∧ sameHost s t ∧ answered s t 0#8 0#64

/-- R54: the bit at position `p` is bit `p mod 64` of storage word `p div 64`. -/
def Obligations.BitIsWordBit : Prop :=
  ∀ (s : State) (b : BufId) (p : Nat), s.bit b p = (s.word b (p / 64)).getLsbD (p % 64)

/-- R58: the word-level form of field writes and reads, empty, in one word and across a word boundary; where a field inside the
capacity straddles, so does its second word lie inside. -/
def Obligations.FieldWordForm : Prop :=
  ∀ (s : State) (b : BufId) (o k v : Nat), k ≤ 63 → v < 2 ^ k →
    (k = 0 → (∀ i, (s.putField b o k v).word b i = s.word b i) ∧ s.getField b o k = 0) ∧
    (1 ≤ k → o % 64 + k ≤ 64 →
      (∀ i, (s.putField b o k v).word b i =
        if i = o / 64 then
          (s.word b i &&& ~~~(BitVec.ofNat 64 ((2 ^ k - 1) <<< (o % 64)))) ||| BitVec.ofNat 64 (v <<< (o % 64))
        else s.word b i) ∧
      s.getField b o k = (s.word b (o / 64)).toNat >>> (o % 64) % 2 ^ k) ∧
    (64 < o % 64 + k →
      (∀ i, (s.putField b o k v).word b i =
        if i = o / 64 then
          (s.word b i &&& BitVec.ofNat 64 (2 ^ (o % 64) - 1)) ||| BitVec.ofNat 64 ((v % 2 ^ (64 - o % 64)) <<< (o % 64))
        else if i = o / 64 + 1 then
          (s.word b i &&& ~~~(BitVec.ofNat 64 (2 ^ (k - (64 - o % 64)) - 1))) ||| BitVec.ofNat 64 (v >>> (64 - o % 64))
        else s.word b i) ∧
      s.getField b o k =
        (s.word b (o / 64)).toNat >>> (o % 64) |||
          ((s.word b (o / 64 + 1)).toNat % 2 ^ (k - (64 - o % 64))) <<< (64 - o % 64) ∧
      (o + k ≤ s.capBits b → o / 64 + 1 < (s.capw b).toNat))

/-! ## Gap commands -/

/-- R150, R151: EXTRACT writes the gap sequence of positions `0 .. n-1`: the zeros before the first one, between consecutive
ones, and after the last. A length above the capacity is a CapacityViolation that writes nothing; a sequence longer than the
gap memory leaves its first `GAP_ENTRIES` gaps and is a GapCapacityViolation. -/
def Obligations.ExtractWritesGapSequence : Prop :=
  ∀ (s : State) (b : BufId) (g : GapId) (n : Word), s.Inv →
    decode (fieldWord 0x20 0#6 (bufNumber b) (gapNumber g)) n = .ok (.extract b g n) ∧
    (s.capBits b < n.toNat → ∃ t, exec (.extract b g n) s = .next t ∧ onlyError 0x20 3 s t) ∧
    (n.toNat ≤ s.capBits b → (s.onesBelow b n.toNat).length + 1 ≤ s.params.gapEntries →
      ∃ t, exec (.extract b g n) s = .next t ∧ gapsAre s t g (gapsFrom n.toNat 0 (s.onesBelow b n.toNat)) ∧
        sameBits s t ∧ t.regs = s.regs.setGlen g (BitVec.ofNat 64 ((s.onesBelow b n.toNat).length + 1)) ∧ sameHost s t ∧
        answered s t 0#8 (BitVec.ofNat 64 ((s.onesBelow b n.toNat).length + 1))) ∧
    (n.toNat ≤ s.capBits b → s.params.gapEntries < (s.onesBelow b n.toNat).length + 1 →
      ∃ t, exec (.extract b g n) s = .next t ∧
        gapsAre s t g ((gapsFrom n.toNat 0 (s.onesBelow b n.toNat)).take s.params.gapEntries) ∧ sameBits s t ∧
        t.regs = { s.regs.setGlen g (BitVec.ofNat 64 s.params.gapEntries) with
          fault := faultAfter s.regs.fault 0x20 5 } ∧
        sameHost s t ∧ answered s t 5#8 0#64)

/-- R154: after an EXTRACT answered `OK` with `k`, there are `k - 1` ones among positions `0 .. n-1`, the gaps written and the
ones add up to `n`, and the gaps written are the sequence of R150. -/
def Obligations.ExtractConservesLength : Prop :=
  ∀ (s : State) (b : BufId) (g : GapId) (n : Word), s.Inv →
    ∃ t, exec (.extract b g n) s = .next t ∧ ∀ k, answered s t 0#8 k →
      1 ≤ k.toNat ∧ (s.onesBelow b n.toNat).length = k.toNat - 1 ∧
      ((List.range k.toNat).map fun i => (t.gapRead g i).toNat).sum + (k.toNat - 1) = n.toNat ∧
      ((List.range k.toNat).map fun i => (t.gapRead g i).toNat) = gapsFrom n.toNat 0 (s.onesBelow b n.toNat)

/-- R152: GAPRD returns the entry, whatever `GLEN[g]` is, and changes nothing; an index outside the gap memory is a
GapCapacityViolation. -/
def Obligations.GaprdReturnsEntry : Prop :=
  ∀ (s : State) (g : GapId) (i : Word),
    decode (fieldWord 0x21 0#6 0 (gapNumber g)) i = .ok (.gaprd g i) ∧
    (i.toNat < s.params.gapEntries →
      ∃ t, exec (.gaprd g i) s = .next t ∧ t.regs = s.regs ∧ t.mem = s.mem ∧ sameHost s t ∧
        answered s t 0#8 ((s.gapRead g i.toNat).setWidth 64)) ∧
    (s.params.gapEntries ≤ i.toNat → ∃ t, exec (.gaprd g i) s = .next t ∧ onlyError 0x21 5 s t)

/-- R153: GAPWR writes the entry and nothing else, `GLEN[g]` included; an index outside the gap memory is a
GapCapacityViolation that writes nothing. -/
def Obligations.GapwrWritesEntry : Prop :=
  ∀ (s : State) (g : GapId) (i v : BitVec 32),
    decode (fieldWord 0x22 0#6 0 (gapNumber g)) (BitVec.ofNat 64 (2 ^ 32 * i.toNat + v.toNat)) = .ok (.gapwr g i v) ∧
    (i.toNat < s.params.gapEntries →
      ∃ t, exec (.gapwr g i v) s = .next t ∧
        (∀ g' k, t.gapRead g' k = if g' = g ∧ k = i.toNat then v else s.gapRead g' k) ∧ sameBits s t ∧
        t.regs = s.regs ∧ sameHost s t ∧ answered s t 0#8 0#64) ∧
    (s.params.gapEntries ≤ i.toNat → ∃ t, exec (.gapwr g i v) s = .next t ∧ onlyError 0x22 5 s t)

/-! ## Optimizer commands -/

/-- R171, R173, R175: OPT.FW chooses the smallest width of `1 .. MAX_WIDTH - 1` of least cost, records that width, its bits and
its words, and writes nothing else. -/
def Obligations.OptFwChoosesCheapestWidth : Prop :=
  ∀ (s : State) (g : GapId) (arg : Word), s.Inv →
    decode (fieldWord 0x30 0#6 0 (gapNumber g)) arg = .ok (.optFw g) ∧
    ∃ t w, exec (.optFw g) s = .next t ∧ 1 ≤ w ∧ w < Config.maxWidth ∧
      (∀ w', 1 ≤ w' → w' < Config.maxWidth → bitsFW (s.gapSeq g) w ≤ bitsFW (s.gapSeq g) w') ∧
      (∀ w', 1 ≤ w' → w' < w → bitsFW (s.gapSeq g) w < bitsFW (s.gapSeq g) w') ∧
      t.regs.optW.toNat = w ∧ t.regs.optBits.toNat = bitsFW (s.gapSeq g) w ∧
      t.regs.optWords.toNat = wordsFW (s.gapSeq g) w ∧
      t.regs = s.regs.setOpt t.regs.optW t.regs.optBits t.regs.optWords ∧ t.mem = s.mem ∧ sameHost s t ∧
      answered s t 0#8 (BitVec.ofNat 64 w)

/-- R172, R174, R175: OPT.RG chooses the smallest width of `0 .. MAX_WIDTH - 1` of least Rice-Golomb cost, records that width, its
bits and its words, and writes nothing else. -/
def Obligations.OptRgChoosesCheapestWidth : Prop :=
  ∀ (s : State) (g : GapId) (arg : Word), s.Inv →
    decode (fieldWord 0x31 0#6 0 (gapNumber g)) arg = .ok (.optRg g) ∧
    ∃ t w, exec (.optRg g) s = .next t ∧ w < Config.maxWidth ∧
      (∀ w', w' < Config.maxWidth → bitsRG (s.gapSeq g) w ≤ bitsRG (s.gapSeq g) w') ∧
      (∀ w', w' < w → bitsRG (s.gapSeq g) w < bitsRG (s.gapSeq g) w') ∧
      t.regs.optW.toNat = w ∧ t.regs.optBits.toNat = bitsRG (s.gapSeq g) w ∧
      t.regs.optWords.toNat = wordsRG (s.gapSeq g) w ∧
      t.regs = s.regs.setOpt t.regs.optW t.regs.optBits t.regs.optWords ∧ t.mem = s.mem ∧ sameHost s t ∧
      answered s t 0#8 (BitVec.ofNat 64 w)

/-- R176: the pseudocode's ascending search with a strict comparison finds what R175 defines, for any cost and word count. -/
def Obligations.SearchLoopFindsChosenWidth : Prop :=
  ∀ (bits words : Nat → Nat) (lo n : Nat),
    searchLoop bits words n (lo + 1) lo (bits lo) (words lo) =
      (chosenWidth bits lo (n + 1), bits (chosenWidth bits lo (n + 1)), words (chosenWidth bits lo (n + 1)))

/-- The source's testable property 5, which R181 says is not a theorem of R173: the fixed-width cost first does not rise and
then does not fall. -/
def Obligations.FixedWidthCostIsUnimodal : Prop :=
  ∀ gaps : List Nat, ∃ w0, (∀ w, 1 ≤ w → w < w0 → bitsFW gaps (w + 1) ≤ bitsFW gaps w) ∧
    ∀ w, 1 ≤ w → w0 ≤ w → w + 1 < Config.maxWidth → bitsFW gaps w ≤ bitsFW gaps (w + 1)

/-! ## Codecs -/

/-- R94, R213: a fixed-width stream has `w * sum of (g div (2^w - 1) + 1)` bits, which is `bitsFW(w)`, in `wordsFW(w)` fields; a
Rice-Golomb stream `sum of (g div 2^w + 1 + w)` bits, which is `bitsRG(w)`, in `wordsRG(w)` fields. -/
def Obligations.StreamLengthIsCost : Prop :=
  ∀ (gaps : List Nat) (w : Nat),
    (1 ≤ w → (streamOf (fieldsFW w gaps)).length = w * (gaps.map fun g => g / (2 ^ w - 1) + 1).sum ∧
      (streamOf (fieldsFW w gaps)).length = bitsFW gaps w ∧ (fieldsFW w gaps).length = wordsFW gaps w) ∧
    (streamOf (fieldsRG w gaps)).length = (gaps.map fun g => g / 2 ^ w + 1 + w).sum ∧
    (streamOf (fieldsRG w gaps)).length = bitsRG gaps w ∧ (fieldsRG w gaps).length = wordsRG gaps w

/-- R177: for gaps below `2^32`, at most `2^24` of them, and widths up to 63, every cost and word count is below `2^57`, so the
64-bit result registers hold it. -/
def Obligations.CostsDoNotOverflow : Prop :=
  ∀ (gaps : List Nat) (w : Nat), (∀ g ∈ gaps, g < 2 ^ 32) → gaps.length ≤ 2 ^ 24 → w ≤ 63 →
    (1 ≤ w → bitsFW gaps w < 2 ^ 57 ∧ wordsFW gaps w < 2 ^ 57) ∧ bitsRG gaps w < 2 ^ 57 ∧ wordsRG gaps w < 2 ^ 57

/-- R95: the Rice-Golomb stream at width 0 and the fixed-width stream at width 1 are the same bit string, of `sum of (g + 1)`
bits; their field counts are `g + 1` and `g + 2` a gap. -/
def Obligations.UnaryStreamsAgree : Prop :=
  ∀ gaps : List Nat, streamOf (fieldsRG 0 gaps) = streamOf (fieldsFW 1 gaps) ∧
    (streamOf (fieldsFW 1 gaps)).length = (gaps.map fun g => g + 1).sum ∧
    (fieldsFW 1 gaps).length = (gaps.map fun g => g + 1).sum ∧ (fieldsRG 0 gaps).length = (gaps.map fun g => g + 2).sum

/-- R191, R92: ENC.FW at an admissible width, 1 to 63, whatever its operand `arg`, writes the fixed-width stream of the gap sequence from position 0 on, where it
fits, and sets `LEN[b]` to its length; nothing else changes. -/
def Obligations.EncFwWritesStream : Prop :=
  ∀ (s : State) (b : BufId) (g : GapId) (w : Width) (arg : Word), s.Inv → w ≠ 0#6 →
    fieldsLen (fieldsFW w.toNat (s.gapSeq g)) ≤ s.capBits b →
    decode (fieldWord 0x40 w (bufNumber b) (gapNumber g)) arg = .ok (.encFw b g w) ∧
    ∃ t, exec (.encFw b g w) s = .next t ∧ bitsAre s t b (streamOf (fieldsFW w.toNat (s.gapSeq g))) ∧ sameGaps s t ∧
      t.regs = s.regs.setLen b (BitVec.ofNat 64 (fieldsLen (fieldsFW w.toNat (s.gapSeq g)))) ∧ sameHost s t ∧
      answered s t 0#8 (BitVec.ofNat 64 (fieldsLen (fieldsFW w.toNat (s.gapSeq g))))

/-- R191, R254: where the stream does not fit, the `n` code words that fit are written, `LEN[b]` counts their bits, and the
command is a CapacityViolation. -/
def Obligations.EncFwAbortsAtCapacity : Prop :=
  ∀ (s : State) (b : BufId) (g : GapId) (w : Width) (n : Nat), s.Inv → w ≠ 0#6 →
    n < (fieldsFW w.toNat (s.gapSeq g)).length →
    fieldsLen ((fieldsFW w.toNat (s.gapSeq g)).take n) ≤ s.capBits b →
    s.capBits b < fieldsLen ((fieldsFW w.toNat (s.gapSeq g)).take (n + 1)) →
    ∃ t, exec (.encFw b g w) s = .next t ∧ bitsAre s t b (streamOf ((fieldsFW w.toNat (s.gapSeq g)).take n)) ∧
      sameGaps s t ∧
      t.regs = { s.regs.setLen b (BitVec.ofNat 64 (fieldsLen ((fieldsFW w.toNat (s.gapSeq g)).take n))) with
        fault := faultAfter s.regs.fault 0x40 3 } ∧
      sameHost s t ∧ answered s t 3#8 0#64

/-- R211, R93: ENC.RG at any width, whatever its operand `arg`, writes the Rice-Golomb stream of the gap sequence from position 0 on, where it fits, and sets
`LEN[b]` to its length; nothing else changes. -/
def Obligations.EncRgWritesStream : Prop :=
  ∀ (s : State) (b : BufId) (g : GapId) (w : Width) (arg : Word), s.Inv →
    fieldsLen (fieldsRG w.toNat (s.gapSeq g)) ≤ s.capBits b →
    decode (fieldWord 0x50 w (bufNumber b) (gapNumber g)) arg = .ok (.encRg b g w) ∧
    ∃ t, exec (.encRg b g w) s = .next t ∧ bitsAre s t b (streamOf (fieldsRG w.toNat (s.gapSeq g))) ∧ sameGaps s t ∧
      t.regs = s.regs.setLen b (BitVec.ofNat 64 (fieldsLen (fieldsRG w.toNat (s.gapSeq g)))) ∧ sameHost s t ∧
      answered s t 0#8 (BitVec.ofNat 64 (fieldsLen (fieldsRG w.toNat (s.gapSeq g))))

/-- R211, R213, R254: where the stream does not fit, the `n` fields that fit (single quotient bits, terminators, remainders) are
written, `LEN[b]` counts their bits, and the command is a CapacityViolation. -/
def Obligations.EncRgAbortsAtCapacity : Prop :=
  ∀ (s : State) (b : BufId) (g : GapId) (w : Width) (n : Nat), s.Inv →
    n < (fieldsRG w.toNat (s.gapSeq g)).length →
    fieldsLen ((fieldsRG w.toNat (s.gapSeq g)).take n) ≤ s.capBits b →
    s.capBits b < fieldsLen ((fieldsRG w.toNat (s.gapSeq g)).take (n + 1)) →
    ∃ t, exec (.encRg b g w) s = .next t ∧ bitsAre s t b (streamOf ((fieldsRG w.toNat (s.gapSeq g)).take n)) ∧
      sameGaps s t ∧
      t.regs = { s.regs.setLen b (BitVec.ofNat 64 (fieldsLen ((fieldsRG w.toNat (s.gapSeq g)).take n))) with
        fault := faultAfter s.regs.fault 0x50 3 } ∧
      sameHost s t ∧ answered s t 3#8 0#64

/-- R193: width 0 is an ArgumentError of ENC.FW and DEC.FW that changes nothing but FAULT. -/
def Obligations.FixedWidthZeroRefused : Prop :=
  ∀ (s : State) (b : BufId) (g : GapId) (count : Word),
    (∃ t, exec (.encFw b g 0#6) s = .next t ∧ onlyError 0x40 2 s t) ∧
    ∃ t, exec (.decFw b g 0#6 count) s = .next t ∧ onlyError 0x41 2 s t

/-- R192, R212: a count above `GAP_ENTRIES` is a GapCapacityViolation of the decoders that changes nothing but FAULT. -/
def Obligations.DecodeCountRefused : Prop :=
  ∀ (s : State) (b : BufId) (g : GapId) (w : Width) (count : Word), s.params.gapEntries < count.toNat →
    (w ≠ 0#6 → ∃ t, exec (.decFw b g w count) s = .next t ∧ onlyError 0x41 5 s t) ∧
    ∃ t, exec (.decRg b g w count) s = .next t ∧ onlyError 0x51 5 s t

/-- R192: where the buffer holds, below its declared length, the fixed-width stream of `count` gaps, DEC.FW writes those gaps,
sets `GLEN[g]` to their number and returns the bits consumed; bits after them are no error. -/
def Obligations.DecFwReadsStream : Prop :=
  ∀ (s : State) (b : BufId) (g : GapId) (w : Width) (gaps : List Nat), s.Inv → w ≠ 0#6 → (∀ x ∈ gaps, x < 2 ^ 32) →
    gaps.length ≤ s.params.gapEntries → fieldsLen (fieldsFW w.toNat gaps) ≤ (s.len b).toNat →
    holdsStream s b (streamOf (fieldsFW w.toNat gaps)) →
    decode (fieldWord 0x41 w (bufNumber b) (gapNumber g)) (BitVec.ofNat 64 gaps.length) =
      .ok (.decFw b g w (BitVec.ofNat 64 gaps.length)) ∧
    ∃ t, exec (.decFw b g w (BitVec.ofNat 64 gaps.length)) s = .next t ∧ gapsAre s t g gaps ∧ sameBits s t ∧
      t.regs = s.regs.setGlen g (BitVec.ofNat 64 gaps.length) ∧ sameHost s t ∧
      answered s t 0#8 (BitVec.ofNat 64 (fieldsLen (fieldsFW w.toNat gaps)))

/-- R212: where the buffer holds, below its declared length, the Rice-Golomb stream of `count` gaps at any width 0 to 63, DEC.RG
writes those gaps, sets `GLEN[g]` to their number and returns the bits consumed; bits after them are no error. -/
def Obligations.DecRgReadsStream : Prop :=
  ∀ (s : State) (b : BufId) (g : GapId) (w : Width) (gaps : List Nat), s.Inv → (∀ x ∈ gaps, x < 2 ^ 32) →
    gaps.length ≤ s.params.gapEntries → fieldsLen (fieldsRG w.toNat gaps) ≤ (s.len b).toNat →
    holdsStream s b (streamOf (fieldsRG w.toNat gaps)) →
    decode (fieldWord 0x51 w (bufNumber b) (gapNumber g)) (BitVec.ofNat 64 gaps.length) =
      .ok (.decRg b g w (BitVec.ofNat 64 gaps.length)) ∧
    ∃ t, exec (.decRg b g w (BitVec.ofNat 64 gaps.length)) s = .next t ∧ gapsAre s t g gaps ∧ sameBits s t ∧
      t.regs = s.regs.setGlen g (BitVec.ofNat 64 gaps.length) ∧ sameHost s t ∧
      answered s t 0#8 (BitVec.ofNat 64 (fieldsLen (fieldsRG w.toNat gaps)))

/-- R194, R196, R255: after the codes of `gaps` and `j` further sentinels, a word that would be read past the declared length, or
one that brings the running total to `2^32`, is a DecodeError; the complete gaps stay and `GLEN[g]` counts them. -/
def Obligations.DecFwRejectsStream : Prop :=
  ∀ (s : State) (b : BufId) (g : GapId) (w : Width) (gaps : List Nat) (j : Nat) (count : Word), s.Inv → w ≠ 0#6 →
    (∀ x ∈ gaps, x < 2 ^ 32) → gaps.length < count.toNat → count.toNat ≤ s.params.gapEntries →
    j * (2 ^ w.toNat - 1) < 2 ^ 32 → fieldsLen (fieldsFW w.toNat gaps) + j * w.toNat ≤ (s.len b).toNat →
    holdsStream s b (streamOf (fieldsFW w.toNat gaps ++ List.replicate j (w.toNat, 2 ^ w.toNat - 1))) →
    ((s.len b).toNat < fieldsLen (fieldsFW w.toNat gaps) + j * w.toNat + w.toNat ∨
      2 ^ 32 ≤ j * (2 ^ w.toNat - 1) + s.getField b (fieldsLen (fieldsFW w.toNat gaps) + j * w.toNat) w.toNat) →
    ∃ t, exec (.decFw b g w count) s = .next t ∧ gapsAre s t g gaps ∧ sameBits s t ∧
      t.regs = { s.regs.setGlen g (BitVec.ofNat 64 gaps.length) with fault := faultAfter s.regs.fault 0x41 4 } ∧
      sameHost s t ∧ answered s t 4#8 0#64

/-- R214, R216, R255: after the codes of `gaps`, a run of ones up to the declared length, a remainder that would be read past it,
or a value of `2^32` or more, is a DecodeError; the complete gaps stay and `GLEN[g]` counts them. -/
def Obligations.DecRgRejectsStream : Prop :=
  ∀ (s : State) (b : BufId) (g : GapId) (w : Width) (gaps : List Nat) (q : Nat) (count : Word), s.Inv →
    (∀ x ∈ gaps, x < 2 ^ 32) → gaps.length < count.toNat → count.toNat ≤ s.params.gapEntries →
    fieldsLen (fieldsRG w.toNat gaps) + q ≤ (s.len b).toNat →
    holdsStream s b (streamOf (fieldsRG w.toNat gaps ++ List.replicate q (1, 1))) →
    ((s.len b).toNat = fieldsLen (fieldsRG w.toNat gaps) + q ∨
      (s.bit b (fieldsLen (fieldsRG w.toNat gaps) + q) = false ∧
        ((s.len b).toNat < fieldsLen (fieldsRG w.toNat gaps) + q + 1 + w.toNat ∨
          2 ^ 32 ≤ q * 2 ^ w.toNat + s.getField b (fieldsLen (fieldsRG w.toNat gaps) + q + 1) w.toNat))) →
    ∃ t, exec (.decRg b g w count) s = .next t ∧ gapsAre s t g gaps ∧ sameBits s t ∧
      t.regs = { s.regs.setGlen g (BitVec.ofNat 64 gaps.length) with fault := faultAfter s.regs.fault 0x51 4 } ∧
      sameHost s t ∧ answered s t 4#8 0#64

/-- R197: the fixed-width round trip. Where ENC.FW is answered `OK` with `L`, DEC.FW with the same width and the count, into either
gap memory, is answered `OK` with `L`, which is `LEN[b]`, and gives the gaps back. -/
def Obligations.FixedWidthRoundTrip : Prop :=
  ∀ (s : State) (b : BufId) (g g' : GapId) (w : Width), s.Inv → w ≠ 0#6 →
    ∃ t, exec (.encFw b g w) s = .next t ∧ ∀ L, answered s t 0#8 L →
      ∃ u, exec (.decFw b g' w (s.glen g)) t = .next u ∧ answered t u 0#8 L ∧ u.len b = L ∧ t.len b = L ∧
        u.glen g' = s.glen g ∧ ∀ i, i < (s.glen g).toNat → u.gapRead g' i = s.gapRead g i

/-- R217: the Rice-Golomb round trip, at every width 0 to 63. Where ENC.RG is answered `OK` with `L`, DEC.RG with the same width
and the count, into either gap memory, is answered `OK` with `L`, which is `LEN[b]`, and gives the gaps back. -/
def Obligations.RiceGolombRoundTrip : Prop :=
  ∀ (s : State) (b : BufId) (g g' : GapId) (w : Width), s.Inv →
    ∃ t, exec (.encRg b g w) s = .next t ∧ ∀ L, answered s t 0#8 L →
      ∃ u, exec (.decRg b g' w (s.glen g)) t = .next u ∧ answered t u 0#8 L ∧ u.len b = L ∧ t.len b = L ∧
        u.glen g' = s.glen g ∧ ∀ i, i < (s.glen g).toNat → u.gapRead g' i = s.gapRead g i

/-- R179: an encode at the optimizer's width returns `OPT_BITS`, where it fits, and makes `OPT_WORDS` appends. -/
def Obligations.OptimizerPredictsEncoder : Prop :=
  ∀ (s : State) (b : BufId) (g : GapId), s.Inv →
    (∃ t, exec (.optFw g) s = .next t ∧ (fieldsFW t.regs.optW.toNat (s.gapSeq g)).length = t.regs.optWords.toNat ∧
      (t.regs.optBits.toNat ≤ s.capBits b →
        ∃ u, exec (.encFw b g (BitVec.ofNat 6 t.regs.optW.toNat)) t = .next u ∧ answered t u 0#8 t.regs.optBits)) ∧
    ∃ t, exec (.optRg g) s = .next t ∧ (fieldsRG t.regs.optW.toNat (s.gapSeq g)).length = t.regs.optWords.toNat ∧
      (t.regs.optBits.toNat ≤ s.capBits b →
        ∃ u, exec (.encRg b g (BitVec.ofNat 6 t.regs.optW.toNat)) t = .next u ∧ answered t u 0#8 t.regs.optBits)

/-! ## Whole-machine rules -/

/-- R60, R61, R254: no command ever writes a position at or above `CapBits(b)`, or an entry at or above `GAP_ENTRIES`. -/
def Obligations.CapacityWindowRespected : Prop :=
  ∀ (i : Instr) (s t : State), exec i s = .next t →
    (∀ b p, s.capBits b ≤ p → t.bit b p = s.bit b p) ∧
    ∀ g k, s.params.gapEntries ≤ k → t.gapRead g k = s.gapRead g k

/-- R30: a bit buffer changes only under the commands that write it and name it: no write to one buffer changes the other. -/
def Obligations.BufferWritersAsTabled : Prop :=
  ∀ (i : Instr) (s t : State) (b : BufId), exec i s = .next t → writesBuffer b i = false →
    ∀ p, t.bit b p = s.bit b p

/-- R31: a gap memory changes only under the commands that write it and name it. -/
def Obligations.GapWritersAsTabled : Prop :=
  ∀ (i : Instr) (s t : State) (g : GapId), exec i s = .next t → writesGaps g i = false →
    ∀ k, t.gapRead g k = s.gapRead g k

/-- R24: a register other than FAULT changes only under the commands its row of the table names, and under WRREG to it. -/
def Obligations.RegisterWritersAsTabled : Prop :=
  ∀ (i : Instr) (s t : State), exec i s = .next t →
    (∀ b, ¬ writesCapw b i → t.capw b = s.capw b) ∧ (∀ b, ¬ writesLen b i → t.len b = s.len b) ∧
    (∀ g, ¬ writesGlen g i → t.glen g = s.glen g) ∧
    (¬ writesOpt i → t.regs.optW = s.regs.optW ∧ t.regs.optBits = s.regs.optBits ∧ t.regs.optWords = s.regs.optWords)

/-- R71: a decoder never reads a bit at or above `LEN[b]`: whatever stands there, it does and answers the same. -/
def Obligations.DecodersReadBelowLength : Prop :=
  ∀ (s : State) (b : BufId) (g : GapId) (w : Width) (count : Word) (m : Store Cell) (i : Instr),
    (i = .decFw b g w count ∨ i = .decRg b g w count) →
    (∀ p, p < (s.len b).toNat → (s.setBuf b m).bit b p = s.bit b p) →
    ∃ t u, exec i s = .next t ∧ exec i (s.setBuf b m) = .next u ∧ u.regs = t.regs ∧ u.responses = t.responses ∧
      sameGaps t u
end

