-- ==== Sys2Proof/Laws/State.lean ====
section
/-! SUPPORT. One lemma per field per update of the state, so that no later proof unfolds a record update. -/

namespace Sys2Proof
namespace Machine

variable (s : State)

/-! ### State.setCapw -/

@[simp] theorem State.setCapw_params (b : BufId) (v : Word) : (s.setCapw b v).params = s.params := rfl
@[simp] theorem State.setCapw_epoch (b : BufId) (v : Word) : (s.setCapw b v).epoch = s.epoch := rfl
@[simp] theorem State.setCapw_pending (b : BufId) (v : Word) : (s.setCapw b v).pending = s.pending := rfl
@[simp] theorem State.setCapw_responses (b : BufId) (v : Word) : (s.setCapw b v).responses = s.responses := rfl
@[simp] theorem State.setCapw_mem (b : BufId) (v : Word) : (s.setCapw b v).mem = s.mem := rfl
@[simp] theorem State.setCapw_capw (b : BufId) (v : Word) (b' : BufId) :
    (s.setCapw b v).capw b' = if b' = b then v else s.capw b' := by cases b <;> cases b' <;> rfl
@[simp] theorem State.setCapw_len (b : BufId) (v : Word) (i : BufId) : (s.setCapw b v).len i = s.len i := by cases b <;> cases i <;> rfl
@[simp] theorem State.setCapw_glen (b : BufId) (v : Word) (i : GapId) : (s.setCapw b v).glen i = s.glen i := by cases b <;> cases i <;> rfl
@[simp] theorem State.setCapw_buf (b : BufId) (v : Word) (i : BufId) : (s.setCapw b v).buf i = s.buf i := by cases i <;> rfl
@[simp] theorem State.setCapw_gaps (b : BufId) (v : Word) (i : GapId) : (s.setCapw b v).gaps i = s.gaps i := by cases i <;> rfl
@[simp] theorem State.setCapw_bit (b : BufId) (v : Word) (i : BufId) (p : Nat) : (s.setCapw b v).bit i p = s.bit i p := by cases i <;> rfl
@[simp] theorem State.setCapw_word (b : BufId) (v : Word) (i : BufId) (k : Nat) : (s.setCapw b v).word i k = s.word i k := by cases i <;> rfl
@[simp] theorem State.setCapw_gapRead (b : BufId) (v : Word) (i : GapId) (k : Nat) : (s.setCapw b v).gapRead i k = s.gapRead i k := by
  cases i <;> rfl
@[simp] theorem State.setCapw_capBits (b : BufId) (v : Word) (b' : BufId) :
    (s.setCapw b v).capBits b' = if b' = b then 64 * v.toNat else s.capBits b' := by
  by_cases h : b' = b <;> simp [State.capBits, h]

/-! ### State.setLen -/

@[simp] theorem State.setLen_params (b : BufId) (v : Word) : (s.setLen b v).params = s.params := rfl
@[simp] theorem State.setLen_epoch (b : BufId) (v : Word) : (s.setLen b v).epoch = s.epoch := rfl
@[simp] theorem State.setLen_pending (b : BufId) (v : Word) : (s.setLen b v).pending = s.pending := rfl
@[simp] theorem State.setLen_responses (b : BufId) (v : Word) : (s.setLen b v).responses = s.responses := rfl
@[simp] theorem State.setLen_mem (b : BufId) (v : Word) : (s.setLen b v).mem = s.mem := rfl
@[simp] theorem State.setLen_capw (b : BufId) (v : Word) (i : BufId) : (s.setLen b v).capw i = s.capw i := by cases b <;> cases i <;> rfl
@[simp] theorem State.setLen_len (b : BufId) (v : Word) (b' : BufId) :
    (s.setLen b v).len b' = if b' = b then v else s.len b' := by cases b <;> cases b' <;> rfl
@[simp] theorem State.setLen_glen (b : BufId) (v : Word) (i : GapId) : (s.setLen b v).glen i = s.glen i := by cases b <;> cases i <;> rfl
@[simp] theorem State.setLen_buf (b : BufId) (v : Word) (i : BufId) : (s.setLen b v).buf i = s.buf i := by cases i <;> rfl
@[simp] theorem State.setLen_gaps (b : BufId) (v : Word) (i : GapId) : (s.setLen b v).gaps i = s.gaps i := by cases i <;> rfl
@[simp] theorem State.setLen_bit (b : BufId) (v : Word) (i : BufId) (p : Nat) : (s.setLen b v).bit i p = s.bit i p := by cases i <;> rfl
@[simp] theorem State.setLen_word (b : BufId) (v : Word) (i : BufId) (k : Nat) : (s.setLen b v).word i k = s.word i k := by cases i <;> rfl
@[simp] theorem State.setLen_gapRead (b : BufId) (v : Word) (i : GapId) (k : Nat) : (s.setLen b v).gapRead i k = s.gapRead i k := by
  cases i <;> rfl
@[simp] theorem State.setLen_capBits (b : BufId) (v : Word) (i : BufId) : (s.setLen b v).capBits i = s.capBits i := by
  simp [State.capBits]

/-! ### State.setGlen -/

@[simp] theorem State.setGlen_params (g : GapId) (v : Word) : (s.setGlen g v).params = s.params := rfl
@[simp] theorem State.setGlen_epoch (g : GapId) (v : Word) : (s.setGlen g v).epoch = s.epoch := rfl
@[simp] theorem State.setGlen_pending (g : GapId) (v : Word) : (s.setGlen g v).pending = s.pending := rfl
@[simp] theorem State.setGlen_responses (g : GapId) (v : Word) : (s.setGlen g v).responses = s.responses := rfl
@[simp] theorem State.setGlen_mem (g : GapId) (v : Word) : (s.setGlen g v).mem = s.mem := rfl
@[simp] theorem State.setGlen_capw (g : GapId) (v : Word) (i : BufId) : (s.setGlen g v).capw i = s.capw i := by cases g <;> cases i <;> rfl
@[simp] theorem State.setGlen_len (g : GapId) (v : Word) (i : BufId) : (s.setGlen g v).len i = s.len i := by cases g <;> cases i <;> rfl
@[simp] theorem State.setGlen_glen (g : GapId) (v : Word) (g' : GapId) :
    (s.setGlen g v).glen g' = if g' = g then v else s.glen g' := by cases g <;> cases g' <;> rfl
@[simp] theorem State.setGlen_buf (g : GapId) (v : Word) (i : BufId) : (s.setGlen g v).buf i = s.buf i := by cases i <;> rfl
@[simp] theorem State.setGlen_gaps (g : GapId) (v : Word) (i : GapId) : (s.setGlen g v).gaps i = s.gaps i := by cases i <;> rfl
@[simp] theorem State.setGlen_bit (g : GapId) (v : Word) (i : BufId) (p : Nat) : (s.setGlen g v).bit i p = s.bit i p := by cases i <;> rfl
@[simp] theorem State.setGlen_word (g : GapId) (v : Word) (i : BufId) (k : Nat) : (s.setGlen g v).word i k = s.word i k := by cases i <;> rfl
@[simp] theorem State.setGlen_gapRead (g : GapId) (v : Word) (i : GapId) (k : Nat) : (s.setGlen g v).gapRead i k = s.gapRead i k := by
  cases i <;> rfl
@[simp] theorem State.setGlen_capBits (g : GapId) (v : Word) (i : BufId) : (s.setGlen g v).capBits i = s.capBits i := by
  simp [State.capBits]

/-! ### State.setOpt -/

@[simp] theorem State.setOpt_params (w x y : Word) : (s.setOpt w x y).params = s.params := rfl
@[simp] theorem State.setOpt_epoch (w x y : Word) : (s.setOpt w x y).epoch = s.epoch := rfl
@[simp] theorem State.setOpt_pending (w x y : Word) : (s.setOpt w x y).pending = s.pending := rfl
@[simp] theorem State.setOpt_responses (w x y : Word) : (s.setOpt w x y).responses = s.responses := rfl
@[simp] theorem State.setOpt_mem (w x y : Word) : (s.setOpt w x y).mem = s.mem := rfl
@[simp] theorem State.setOpt_capw (w x y : Word) (i : BufId) : (s.setOpt w x y).capw i = s.capw i := by cases i <;> rfl
@[simp] theorem State.setOpt_len (w x y : Word) (i : BufId) : (s.setOpt w x y).len i = s.len i := by cases i <;> rfl
@[simp] theorem State.setOpt_glen (w x y : Word) (i : GapId) : (s.setOpt w x y).glen i = s.glen i := by cases i <;> rfl
@[simp] theorem State.setOpt_buf (w x y : Word) (i : BufId) : (s.setOpt w x y).buf i = s.buf i := by cases i <;> rfl
@[simp] theorem State.setOpt_gaps (w x y : Word) (i : GapId) : (s.setOpt w x y).gaps i = s.gaps i := by cases i <;> rfl
@[simp] theorem State.setOpt_bit (w x y : Word) (i : BufId) (p : Nat) : (s.setOpt w x y).bit i p = s.bit i p := by cases i <;> rfl
@[simp] theorem State.setOpt_word (w x y : Word) (i : BufId) (k : Nat) : (s.setOpt w x y).word i k = s.word i k := by cases i <;> rfl
@[simp] theorem State.setOpt_gapRead (w x y : Word) (i : GapId) (k : Nat) : (s.setOpt w x y).gapRead i k = s.gapRead i k := by
  cases i <;> rfl
@[simp] theorem State.setOpt_capBits (w x y : Word) (i : BufId) : (s.setOpt w x y).capBits i = s.capBits i := by
  simp [State.capBits]

/-! ### State.setBuf -/

@[simp] theorem State.setBuf_params (b : BufId) (m : Store Cell) : (s.setBuf b m).params = s.params := rfl
@[simp] theorem State.setBuf_epoch (b : BufId) (m : Store Cell) : (s.setBuf b m).epoch = s.epoch := rfl
@[simp] theorem State.setBuf_pending (b : BufId) (m : Store Cell) : (s.setBuf b m).pending = s.pending := rfl
@[simp] theorem State.setBuf_responses (b : BufId) (m : Store Cell) : (s.setBuf b m).responses = s.responses := rfl
@[simp] theorem State.setBuf_regs (b : BufId) (m : Store Cell) : (s.setBuf b m).regs = s.regs := rfl
@[simp] theorem State.setBuf_capw (b : BufId) (m : Store Cell) (i : BufId) : (s.setBuf b m).capw i = s.capw i := by cases i <;> rfl
@[simp] theorem State.setBuf_len (b : BufId) (m : Store Cell) (i : BufId) : (s.setBuf b m).len i = s.len i := by cases i <;> rfl
@[simp] theorem State.setBuf_glen (b : BufId) (m : Store Cell) (i : GapId) : (s.setBuf b m).glen i = s.glen i := by cases i <;> rfl
@[simp] theorem State.setBuf_buf (b : BufId) (m : Store Cell) (b' : BufId) :
    (s.setBuf b m).buf b' = if b' = b then m else s.buf b' := by cases b <;> cases b' <;> rfl
@[simp] theorem State.setBuf_gaps (b : BufId) (m : Store Cell) (i : GapId) : (s.setBuf b m).gaps i = s.gaps i := by cases b <;> cases i <;> rfl
@[simp] theorem State.setBuf_gapRead (b : BufId) (m : Store Cell) (i : GapId) (k : Nat) : (s.setBuf b m).gapRead i k = s.gapRead i k := by
  cases b <;> cases i <;> rfl
@[simp] theorem State.setBuf_capBits (b : BufId) (m : Store Cell) (i : BufId) : (s.setBuf b m).capBits i = s.capBits i := by
  simp [State.capBits]

/-! ### State.setGaps -/

@[simp] theorem State.setGaps_params (g : GapId) (m : Store Gap) : (s.setGaps g m).params = s.params := rfl
@[simp] theorem State.setGaps_epoch (g : GapId) (m : Store Gap) : (s.setGaps g m).epoch = s.epoch := rfl
@[simp] theorem State.setGaps_pending (g : GapId) (m : Store Gap) : (s.setGaps g m).pending = s.pending := rfl
@[simp] theorem State.setGaps_responses (g : GapId) (m : Store Gap) : (s.setGaps g m).responses = s.responses := rfl
@[simp] theorem State.setGaps_regs (g : GapId) (m : Store Gap) : (s.setGaps g m).regs = s.regs := rfl
@[simp] theorem State.setGaps_capw (g : GapId) (m : Store Gap) (i : BufId) : (s.setGaps g m).capw i = s.capw i := by cases i <;> rfl
@[simp] theorem State.setGaps_len (g : GapId) (m : Store Gap) (i : BufId) : (s.setGaps g m).len i = s.len i := by cases i <;> rfl
@[simp] theorem State.setGaps_glen (g : GapId) (m : Store Gap) (i : GapId) : (s.setGaps g m).glen i = s.glen i := by cases i <;> rfl
@[simp] theorem State.setGaps_buf (g : GapId) (m : Store Gap) (i : BufId) : (s.setGaps g m).buf i = s.buf i := by cases g <;> cases i <;> rfl
@[simp] theorem State.setGaps_gaps (g : GapId) (m : Store Gap) (g' : GapId) :
    (s.setGaps g m).gaps g' = if g' = g then m else s.gaps g' := by cases g <;> cases g' <;> rfl
@[simp] theorem State.setGaps_bit (g : GapId) (m : Store Gap) (i : BufId) (p : Nat) : (s.setGaps g m).bit i p = s.bit i p := by
  cases g <;> cases i <;> rfl
@[simp] theorem State.setGaps_word (g : GapId) (m : Store Gap) (i : BufId) (k : Nat) : (s.setGaps g m).word i k = s.word i k := by
  cases g <;> cases i <;> rfl
@[simp] theorem State.setGaps_capBits (g : GapId) (m : Store Gap) (i : BufId) : (s.setGaps g m).capBits i = s.capBits i := by
  simp [State.capBits]

/-! ### State.respond -/

@[simp] theorem State.respond_params (c : Byte) (r : Word) : (s.respond c r).params = s.params := rfl
@[simp] theorem State.respond_epoch (c : Byte) (r : Word) : (s.respond c r).epoch = s.epoch := rfl
@[simp] theorem State.respond_pending (c : Byte) (r : Word) : (s.respond c r).pending = s.pending := rfl
@[simp] theorem State.respond_regs (c : Byte) (r : Word) : (s.respond c r).regs = s.regs := rfl
@[simp] theorem State.respond_mem (c : Byte) (r : Word) : (s.respond c r).mem = s.mem := rfl
@[simp] theorem State.respond_capw (c : Byte) (r : Word) (i : BufId) : (s.respond c r).capw i = s.capw i := by cases i <;> rfl
@[simp] theorem State.respond_len (c : Byte) (r : Word) (i : BufId) : (s.respond c r).len i = s.len i := by cases i <;> rfl
@[simp] theorem State.respond_glen (c : Byte) (r : Word) (i : GapId) : (s.respond c r).glen i = s.glen i := by cases i <;> rfl
@[simp] theorem State.respond_buf (c : Byte) (r : Word) (i : BufId) : (s.respond c r).buf i = s.buf i := by cases i <;> rfl
@[simp] theorem State.respond_gaps (c : Byte) (r : Word) (i : GapId) : (s.respond c r).gaps i = s.gaps i := by cases i <;> rfl
@[simp] theorem State.respond_bit (c : Byte) (r : Word) (i : BufId) (p : Nat) : (s.respond c r).bit i p = s.bit i p := by cases i <;> rfl
@[simp] theorem State.respond_word (c : Byte) (r : Word) (i : BufId) (k : Nat) : (s.respond c r).word i k = s.word i k := by cases i <;> rfl
@[simp] theorem State.respond_gapRead (c : Byte) (r : Word) (i : GapId) (k : Nat) : (s.respond c r).gapRead i k = s.gapRead i k := by
  cases i <;> rfl
@[simp] theorem State.respond_capBits (c : Byte) (r : Word) (i : BufId) : (s.respond c r).capBits i = s.capBits i := by
  simp [State.capBits]

/-! ### State.takeError -/

@[simp] theorem State.takeError_params (op : Byte) (e : Error) : (s.takeError op e).params = s.params := rfl
@[simp] theorem State.takeError_epoch (op : Byte) (e : Error) : (s.takeError op e).epoch = s.epoch := rfl
@[simp] theorem State.takeError_pending (op : Byte) (e : Error) : (s.takeError op e).pending = s.pending := rfl
@[simp] theorem State.takeError_mem (op : Byte) (e : Error) : (s.takeError op e).mem = s.mem := rfl
@[simp] theorem State.takeError_capw (op : Byte) (e : Error) (i : BufId) : (s.takeError op e).capw i = s.capw i := by cases i <;> rfl
@[simp] theorem State.takeError_len (op : Byte) (e : Error) (i : BufId) : (s.takeError op e).len i = s.len i := by cases i <;> rfl
@[simp] theorem State.takeError_glen (op : Byte) (e : Error) (i : GapId) : (s.takeError op e).glen i = s.glen i := by cases i <;> rfl
@[simp] theorem State.takeError_buf (op : Byte) (e : Error) (i : BufId) : (s.takeError op e).buf i = s.buf i := by cases i <;> rfl
@[simp] theorem State.takeError_gaps (op : Byte) (e : Error) (i : GapId) : (s.takeError op e).gaps i = s.gaps i := by cases i <;> rfl
@[simp] theorem State.takeError_bit (op : Byte) (e : Error) (i : BufId) (p : Nat) : (s.takeError op e).bit i p = s.bit i p := by cases i <;> rfl
@[simp] theorem State.takeError_word (op : Byte) (e : Error) (i : BufId) (k : Nat) : (s.takeError op e).word i k = s.word i k := by cases i <;> rfl
@[simp] theorem State.takeError_gapRead (op : Byte) (e : Error) (i : GapId) (k : Nat) : (s.takeError op e).gapRead i k = s.gapRead i k := by
  cases i <;> rfl
@[simp] theorem State.takeError_capBits (op : Byte) (e : Error) (i : BufId) : (s.takeError op e).capBits i = s.capBits i := by
  simp [State.capBits]

/-! ### State.withoutHead -/

@[simp] theorem State.withoutHead_params  : (s.withoutHead).params = s.params := rfl
@[simp] theorem State.withoutHead_epoch  : (s.withoutHead).epoch = s.epoch := rfl
@[simp] theorem State.withoutHead_responses  : (s.withoutHead).responses = s.responses := rfl
@[simp] theorem State.withoutHead_regs  : (s.withoutHead).regs = s.regs := rfl
@[simp] theorem State.withoutHead_mem  : (s.withoutHead).mem = s.mem := rfl
@[simp] theorem State.withoutHead_capw  (i : BufId) : (s.withoutHead).capw i = s.capw i := by cases i <;> rfl
@[simp] theorem State.withoutHead_len  (i : BufId) : (s.withoutHead).len i = s.len i := by cases i <;> rfl
@[simp] theorem State.withoutHead_glen  (i : GapId) : (s.withoutHead).glen i = s.glen i := by cases i <;> rfl
@[simp] theorem State.withoutHead_buf  (i : BufId) : (s.withoutHead).buf i = s.buf i := by cases i <;> rfl
@[simp] theorem State.withoutHead_gaps  (i : GapId) : (s.withoutHead).gaps i = s.gaps i := by cases i <;> rfl
@[simp] theorem State.withoutHead_bit  (i : BufId) (p : Nat) : (s.withoutHead).bit i p = s.bit i p := by cases i <;> rfl
@[simp] theorem State.withoutHead_word  (i : BufId) (k : Nat) : (s.withoutHead).word i k = s.word i k := by cases i <;> rfl
@[simp] theorem State.withoutHead_gapRead  (i : GapId) (k : Nat) : (s.withoutHead).gapRead i k = s.gapRead i k := by
  cases i <;> rfl
@[simp] theorem State.withoutHead_capBits  (i : BufId) : (s.withoutHead).capBits i = s.capBits i := by
  simp [State.capBits]

@[simp] theorem State.setCapw_regs (b : BufId) (v : Word) : (s.setCapw b v).regs = s.regs.setCapw b v := rfl
@[simp] theorem State.setLen_regs (b : BufId) (v : Word) : (s.setLen b v).regs = s.regs.setLen b v := rfl
@[simp] theorem State.setGlen_regs (g : GapId) (v : Word) : (s.setGlen g v).regs = s.regs.setGlen g v := rfl
@[simp] theorem State.setOpt_regs (w x y : Word) : (s.setOpt w x y).regs = s.regs.setOpt w x y := rfl
@[simp] theorem State.setBuf_mem (b : BufId) (m : Store Cell) : (s.setBuf b m).mem = s.mem.setBuf b m := rfl
@[simp] theorem State.setGaps_mem (g : GapId) (m : Store Gap) : (s.setGaps g m).mem = s.mem.setGaps g m := rfl
@[simp] theorem State.withoutHead_pending : s.withoutHead.pending = s.pending.tail := rfl
@[simp] theorem State.respond_responses (c : Byte) (r : Word) :
    (s.respond c r).responses = { status := c, ret := r } :: s.responses := rfl
@[simp] theorem State.takeError_responses (op : Byte) (e : Error) :
    (s.takeError op e).responses = { status := errorCode e, ret := 0#64 } :: s.responses := rfl
@[simp] theorem State.takeError_regs (op : Byte) (e : Error) :
    (s.takeError op e).regs = s.regs.setFault (updateFault s.regs.fault op (errorCode e)) := rfl

/-! ### The memory writes touch no register and nothing of the port -/

@[simp] theorem State.putBit_params (b : BufId) (p : Nat) (x : Bool) : (s.putBit b p x).params = s.params := rfl
@[simp] theorem State.putBit_regs (b : BufId) (p : Nat) (x : Bool) : (s.putBit b p x).regs = s.regs := rfl
@[simp] theorem State.putBit_epoch (b : BufId) (p : Nat) (x : Bool) : (s.putBit b p x).epoch = s.epoch := rfl
@[simp] theorem State.putBit_pending (b : BufId) (p : Nat) (x : Bool) : (s.putBit b p x).pending = s.pending := rfl
@[simp] theorem State.putBit_responses (b : BufId) (p : Nat) (x : Bool) : (s.putBit b p x).responses = s.responses := rfl
@[simp] theorem State.putBit_capw (b : BufId) (p : Nat) (x : Bool) (j : BufId) : (s.putBit b p x).capw j = s.capw j := by
  simp [State.putBit]
@[simp] theorem State.putBit_len (b : BufId) (p : Nat) (x : Bool) (j : BufId) : (s.putBit b p x).len j = s.len j := by
  simp [State.putBit]
@[simp] theorem State.putBit_glen (b : BufId) (p : Nat) (x : Bool) (j : GapId) : (s.putBit b p x).glen j = s.glen j := by
  simp [State.putBit]
@[simp] theorem State.putBit_capBits (b : BufId) (p : Nat) (x : Bool) (j : BufId) : (s.putBit b p x).capBits j = s.capBits j := by
  simp [State.putBit]
@[simp] theorem State.putBit_gaps (b : BufId) (p : Nat) (x : Bool) (j : GapId) : (s.putBit b p x).gaps j = s.gaps j := by
  simp [State.putBit]
@[simp] theorem State.putField_params (b : BufId) (o k v : Nat) : (s.putField b o k v).params = s.params := rfl
@[simp] theorem State.putField_regs (b : BufId) (o k v : Nat) : (s.putField b o k v).regs = s.regs := rfl
@[simp] theorem State.putField_epoch (b : BufId) (o k v : Nat) : (s.putField b o k v).epoch = s.epoch := rfl
@[simp] theorem State.putField_pending (b : BufId) (o k v : Nat) : (s.putField b o k v).pending = s.pending := rfl
@[simp] theorem State.putField_responses (b : BufId) (o k v : Nat) : (s.putField b o k v).responses = s.responses := rfl
@[simp] theorem State.putField_capw (b : BufId) (o k v : Nat) (j : BufId) : (s.putField b o k v).capw j = s.capw j := by
  simp [State.putField]
@[simp] theorem State.putField_len (b : BufId) (o k v : Nat) (j : BufId) : (s.putField b o k v).len j = s.len j := by
  simp [State.putField]
@[simp] theorem State.putField_glen (b : BufId) (o k v : Nat) (j : GapId) : (s.putField b o k v).glen j = s.glen j := by
  simp [State.putField]
@[simp] theorem State.putField_capBits (b : BufId) (o k v : Nat) (j : BufId) : (s.putField b o k v).capBits j = s.capBits j := by
  simp [State.putField]
@[simp] theorem State.putField_gaps (b : BufId) (o k v : Nat) (j : GapId) : (s.putField b o k v).gaps j = s.gaps j := by
  simp [State.putField]
@[simp] theorem State.gapWrite_params (g : GapId) (i : Nat) (v : Gap) : (s.gapWrite g i v).params = s.params := rfl
@[simp] theorem State.gapWrite_regs (g : GapId) (i : Nat) (v : Gap) : (s.gapWrite g i v).regs = s.regs := rfl
@[simp] theorem State.gapWrite_epoch (g : GapId) (i : Nat) (v : Gap) : (s.gapWrite g i v).epoch = s.epoch := rfl
@[simp] theorem State.gapWrite_pending (g : GapId) (i : Nat) (v : Gap) : (s.gapWrite g i v).pending = s.pending := rfl
@[simp] theorem State.gapWrite_responses (g : GapId) (i : Nat) (v : Gap) : (s.gapWrite g i v).responses = s.responses := rfl
@[simp] theorem State.gapWrite_capw (g : GapId) (i : Nat) (v : Gap) (j : BufId) : (s.gapWrite g i v).capw j = s.capw j := by
  simp [State.gapWrite]
@[simp] theorem State.gapWrite_len (g : GapId) (i : Nat) (v : Gap) (j : BufId) : (s.gapWrite g i v).len j = s.len j := by
  simp [State.gapWrite]
@[simp] theorem State.gapWrite_glen (g : GapId) (i : Nat) (v : Gap) (j : GapId) : (s.gapWrite g i v).glen j = s.glen j := by
  simp [State.gapWrite]
@[simp] theorem State.gapWrite_capBits (g : GapId) (i : Nat) (v : Gap) (j : BufId) : (s.gapWrite g i v).capBits j = s.capBits j := by
  simp [State.gapWrite]
@[simp] theorem State.gapWrite_buf (g : GapId) (i : Nat) (v : Gap) (j : BufId) : (s.gapWrite g i v).buf j = s.buf j := by
  simp [State.gapWrite]

/-! ### The reset states -/

@[simp] theorem State.powerOn_params (p : Config.Params) : (State.powerOn p).params = p := rfl
@[simp] theorem State.powerOn_regs (p : Config.Params) : (State.powerOn p).regs = Regs.zero := rfl
@[simp] theorem State.powerOn_mem (p : Config.Params) : (State.powerOn p).mem = Memory.unwritten := rfl
@[simp] theorem State.powerOn_pending (p : Config.Params) : (State.powerOn p).pending = [] := rfl
@[simp] theorem State.powerOn_responses (p : Config.Params) : (State.powerOn p).responses = [] := rfl
@[simp] theorem State.hardwareReset_params : s.hardwareReset.params = s.params := rfl
@[simp] theorem State.hardwareReset_regs : s.hardwareReset.regs = Regs.zero := rfl
@[simp] theorem State.hardwareReset_mem : s.hardwareReset.mem = Memory.unwritten := rfl
@[simp] theorem State.hardwareReset_epoch : s.hardwareReset.epoch = s.epoch + 1 := rfl
@[simp] theorem State.hardwareReset_pending : s.hardwareReset.pending = s.pending := rfl
@[simp] theorem State.hardwareReset_responses : s.hardwareReset.responses = s.responses := rfl

/-! ### The next event -/

@[simp] theorem State.withHeadCommand_pending (cw : CmdWord) (arg : Word) :
    (s.withHeadCommand cw arg).pending = .command cw arg :: s.pending.tail := rfl
@[simp] theorem State.withHeadCommand_regs (cw : CmdWord) (arg : Word) : (s.withHeadCommand cw arg).regs = s.regs := rfl
@[simp] theorem State.withHeadCommand_mem (cw : CmdWord) (arg : Word) : (s.withHeadCommand cw arg).mem = s.mem := rfl

/-! ### The register file itself -/

@[simp] theorem Regs.setCapw_fault (r : Regs) (b : BufId) (v : Word) : (r.setCapw b v).fault = r.fault := by cases b <;> rfl
@[simp] theorem Regs.setCapw_len0 (r : Regs) (b : BufId) (v : Word) : (r.setCapw b v).len0 = r.len0 := by cases b <;> rfl
@[simp] theorem Regs.setCapw_len1 (r : Regs) (b : BufId) (v : Word) : (r.setCapw b v).len1 = r.len1 := by cases b <;> rfl
@[simp] theorem Regs.setCapw_glen0 (r : Regs) (b : BufId) (v : Word) : (r.setCapw b v).glen0 = r.glen0 := by cases b <;> rfl
@[simp] theorem Regs.setCapw_glen1 (r : Regs) (b : BufId) (v : Word) : (r.setCapw b v).glen1 = r.glen1 := by cases b <;> rfl
@[simp] theorem Regs.setCapw_optW (r : Regs) (b : BufId) (v : Word) : (r.setCapw b v).optW = r.optW := by cases b <;> rfl
@[simp] theorem Regs.setCapw_optBits (r : Regs) (b : BufId) (v : Word) : (r.setCapw b v).optBits = r.optBits := by cases b <;> rfl
@[simp] theorem Regs.setCapw_optWords (r : Regs) (b : BufId) (v : Word) : (r.setCapw b v).optWords = r.optWords := by cases b <;> rfl
@[simp] theorem Regs.setLen_fault (r : Regs) (b : BufId) (v : Word) : (r.setLen b v).fault = r.fault := by cases b <;> rfl
@[simp] theorem Regs.setLen_capw0 (r : Regs) (b : BufId) (v : Word) : (r.setLen b v).capw0 = r.capw0 := by cases b <;> rfl
@[simp] theorem Regs.setLen_capw1 (r : Regs) (b : BufId) (v : Word) : (r.setLen b v).capw1 = r.capw1 := by cases b <;> rfl
@[simp] theorem Regs.setLen_glen0 (r : Regs) (b : BufId) (v : Word) : (r.setLen b v).glen0 = r.glen0 := by cases b <;> rfl
@[simp] theorem Regs.setLen_glen1 (r : Regs) (b : BufId) (v : Word) : (r.setLen b v).glen1 = r.glen1 := by cases b <;> rfl
@[simp] theorem Regs.setLen_optW (r : Regs) (b : BufId) (v : Word) : (r.setLen b v).optW = r.optW := by cases b <;> rfl
@[simp] theorem Regs.setLen_optBits (r : Regs) (b : BufId) (v : Word) : (r.setLen b v).optBits = r.optBits := by cases b <;> rfl
@[simp] theorem Regs.setLen_optWords (r : Regs) (b : BufId) (v : Word) : (r.setLen b v).optWords = r.optWords := by cases b <;> rfl
@[simp] theorem Regs.setGlen_fault (r : Regs) (g : GapId) (v : Word) : (r.setGlen g v).fault = r.fault := by cases g <;> rfl
@[simp] theorem Regs.setGlen_capw0 (r : Regs) (g : GapId) (v : Word) : (r.setGlen g v).capw0 = r.capw0 := by cases g <;> rfl
@[simp] theorem Regs.setGlen_capw1 (r : Regs) (g : GapId) (v : Word) : (r.setGlen g v).capw1 = r.capw1 := by cases g <;> rfl
@[simp] theorem Regs.setGlen_len0 (r : Regs) (g : GapId) (v : Word) : (r.setGlen g v).len0 = r.len0 := by cases g <;> rfl
@[simp] theorem Regs.setGlen_len1 (r : Regs) (g : GapId) (v : Word) : (r.setGlen g v).len1 = r.len1 := by cases g <;> rfl
@[simp] theorem Regs.setGlen_optW (r : Regs) (g : GapId) (v : Word) : (r.setGlen g v).optW = r.optW := by cases g <;> rfl
@[simp] theorem Regs.setGlen_optBits (r : Regs) (g : GapId) (v : Word) : (r.setGlen g v).optBits = r.optBits := by cases g <;> rfl
@[simp] theorem Regs.setGlen_optWords (r : Regs) (g : GapId) (v : Word) : (r.setGlen g v).optWords = r.optWords := by cases g <;> rfl
@[simp] theorem Regs.setOpt_fault (r : Regs) (w x y : Word) : (r.setOpt w x y).fault = r.fault := rfl
@[simp] theorem Regs.setOpt_capw0 (r : Regs) (w x y : Word) : (r.setOpt w x y).capw0 = r.capw0 := rfl
@[simp] theorem Regs.setOpt_capw1 (r : Regs) (w x y : Word) : (r.setOpt w x y).capw1 = r.capw1 := rfl
@[simp] theorem Regs.setOpt_len0 (r : Regs) (w x y : Word) : (r.setOpt w x y).len0 = r.len0 := rfl
@[simp] theorem Regs.setOpt_len1 (r : Regs) (w x y : Word) : (r.setOpt w x y).len1 = r.len1 := rfl
@[simp] theorem Regs.setOpt_glen0 (r : Regs) (w x y : Word) : (r.setOpt w x y).glen0 = r.glen0 := rfl
@[simp] theorem Regs.setOpt_glen1 (r : Regs) (w x y : Word) : (r.setOpt w x y).glen1 = r.glen1 := rfl
@[simp] theorem Regs.setOpt_optW (r : Regs) (w x y : Word) : (r.setOpt w x y).optW = w := rfl
@[simp] theorem Regs.setOpt_optBits (r : Regs) (w x y : Word) : (r.setOpt w x y).optBits = x := rfl
@[simp] theorem Regs.setOpt_optWords (r : Regs) (w x y : Word) : (r.setOpt w x y).optWords = y := rfl
@[simp] theorem Regs.setFault_fault (r : Regs) (v : Word) : (r.setFault v).fault = v := rfl
@[simp] theorem Regs.setFault_capw0 (r : Regs) (v : Word) : (r.setFault v).capw0 = r.capw0 := rfl
@[simp] theorem Regs.setFault_capw1 (r : Regs) (v : Word) : (r.setFault v).capw1 = r.capw1 := rfl
@[simp] theorem Regs.setFault_len0 (r : Regs) (v : Word) : (r.setFault v).len0 = r.len0 := rfl
@[simp] theorem Regs.setFault_len1 (r : Regs) (v : Word) : (r.setFault v).len1 = r.len1 := rfl
@[simp] theorem Regs.setFault_glen0 (r : Regs) (v : Word) : (r.setFault v).glen0 = r.glen0 := rfl
@[simp] theorem Regs.setFault_glen1 (r : Regs) (v : Word) : (r.setFault v).glen1 = r.glen1 := rfl
@[simp] theorem Regs.setFault_optW (r : Regs) (v : Word) : (r.setFault v).optW = r.optW := rfl
@[simp] theorem Regs.setFault_optBits (r : Regs) (v : Word) : (r.setFault v).optBits = r.optBits := rfl
@[simp] theorem Regs.setFault_optWords (r : Regs) (v : Word) : (r.setFault v).optWords = r.optWords := rfl

end Machine
end Sys2Proof
end

