-- ==== Sys2Proof/Laws/Memory.lean ====
section
/-! SUPPORT. The laws of the sparse memories and of the bit, field and gap accesses built on them: a read after a write to the
same place gives the value written, a write leaves every other place alone, and every write keeps the canonical form. -/

namespace Sys2Proof
namespace Machine

/-! ### Stores -/

theorem storeGet_storeSet {α : Type} (m : Store α) (a a' : Nat) (v : α) :
    storeGet (storeSet m a v) a' = if a' = a then some v else storeGet m a' := by
  induction m with
  | nil => simp [storeSet, storeGet, eq_comm]
  | cons x rest ih =>
    obtain ⟨k, y⟩ := x
    simp only [storeSet]
    split
    · simp only [storeGet, eq_comm (a := a)]
    · split
      · rename_i h; subst h; by_cases e : a' = a <;> simp [storeGet, e, Ne.symm]
      · rename_i h1 h2
        simp only [storeGet, ih]
        by_cases e : a' = a
        · subst e; simp [Ne.symm h2]
        · simp [e]

@[simp] theorem storeGet_storeSet_self {α : Type} (m : Store α) (a : Nat) (v : α) :
    storeGet (storeSet m a v) a = some v := by simp [storeGet_storeSet]

theorem mem_storeSet {α : Type} {m : Store α} {a : Nat} {v : α} {x : Nat × α} (h : x ∈ storeSet m a v) :
    x = (a, v) ∨ x ∈ m := by
  induction m with
  | nil => exact .inl (by simpa [storeSet] using h)
  | cons y rest ih =>
    simp only [storeSet] at h
    split at h
    · simpa [List.mem_cons] using h
    · split at h
      · rcases List.mem_cons.1 h with h | h
        · exact .inl h
        · exact .inr (List.mem_cons_of_mem _ h)
      · rcases List.mem_cons.1 h with h | h
        · exact .inr (h ▸ List.mem_cons_self)
        · exact (ih h).imp_right (List.mem_cons_of_mem _)

/-- What holds of every entry, and of the entry written, holds of every entry after the write. -/
theorem storeSet_forall {α : Type} {P : Nat × α → Prop} {m : Store α} {a : Nat} {v : α} (hm : ∀ x ∈ m, P x)
    (hv : P (a, v)) : ∀ x ∈ storeSet m a v, P x := fun _ hx =>
  (mem_storeSet hx).elim (fun h => h ▸ hv) (hm _)

theorem storeSet_wf {α : Type} {m : Store α} (h : storeWf m) (a : Nat) (v : α) : storeWf (storeSet m a v) := by
  induction m with
  | nil => simp [storeSet]
  | cons y rest ih =>
    obtain ⟨k, x⟩ := y
    rw [storeWf, List.pairwise_cons] at h
    simp only [storeSet]
    split
    · rename_i hlt
      refine List.pairwise_cons.2 ⟨fun z hz => ?_, List.pairwise_cons.2 h⟩
      rcases List.mem_cons.1 hz with rfl | hz
      · exact hlt
      · exact hlt.trans (h.1 z hz)
    · split
      · rename_i heq
        exact List.pairwise_cons.2 ⟨fun z hz => heq ▸ h.1 z hz, h.2⟩
      · rename_i h1 h2
        refine List.pairwise_cons.2 ⟨storeSet_forall h.1 ?_, ih h.2⟩
        simp only
        omega

/-- The entry that is read is an entry of the list. -/
theorem mem_of_storeGet {α : Type} {m : Store α} {a : Nat} {v : α} (h : storeGet m a = some v) : (a, v) ∈ m := by
  induction m with
  | nil => simp [storeGet] at h
  | cons y rest ih =>
    obtain ⟨k, x⟩ := y
    simp only [storeGet] at h
    split at h
    · rename_i e; simp_all
    · exact List.mem_cons_of_mem _ (ih h)

/-! ### Cells -/

theorem getLsbD_one_shift (i j : Nat) (hi : i < 64) : (1#64 <<< i).getLsbD j = decide (j = i) := by
  rw [BitVec.getLsbD_shiftLeft, BitVec.getLsbD_one]
  by_cases h : j = i
  · subst h; simp [hi]
  · by_cases h2 : j < i
    · simp [h, h2]
    · simp only [h, decide_false]; simp; omega

theorem cellPutBit_written (c : Cell) (i j : Nat) (t : Bool) (hi : i < 64) :
    (cellPutBit c i t).written.getLsbD j = (c.written.getLsbD j || decide (j = i)) := by
  simp only [cellPutBit, BitVec.getLsbD_or, getLsbD_one_shift _ _ hi]

theorem cellPutBit_value (c : Cell) (i j : Nat) (t : Bool) (hi : i < 64) :
    (cellPutBit c i t).value.getLsbD j = if j = i then t else c.value.getLsbD j := by
  have hj : c.value.getLsbD j = true → j < 64 := fun h => BitVec.lt_of_getLsbD h
  by_cases h : j = i
  · subst h
    cases t <;>
      simp only [cellPutBit, BitVec.getLsbD_or, BitVec.getLsbD_and, BitVec.getLsbD_not, getLsbD_one_shift _ _ hi,
        if_true, if_false, Bool.false_eq_true] <;> simp
  · cases t <;>
      simp only [cellPutBit, BitVec.getLsbD_or, BitVec.getLsbD_and, BitVec.getLsbD_not, getLsbD_one_shift _ _ hi, h,
        if_true, if_false, Bool.false_eq_true] <;> simpa [-BitVec.getLsbD_eq_getElem] using hj

/-- A bit after `PutBit` on one word (R55): the bit written, or what it was. -/
theorem cellBit_cellPutBit (draw : Word) (c : Cell) (i j : Nat) (t : Bool) (hi : i < 64) :
    cellBit draw (some (cellPutBit c i t)) j = if j = i then t else cellBit draw (some c) j := by
  simp only [cellBit, cellPutBit_written _ _ _ _ hi, cellPutBit_value _ _ _ _ hi]
  by_cases h : j = i <;> simp [h]

/-- A word nothing of which is written reads as its draw. -/
theorem cellBit_getD (draw : Word) (c : Option Cell) (j : Nat) :
    cellBit draw (some (c.getD { written := 0#64, value := 0#64 })) j = cellBit draw c j := by
  cases c <;> simp [cellBit]

theorem cellPutBit_wf {c : Cell} (h : c.value &&& ~~~c.written = 0#64) (i : Nat) (t : Bool) (hi : i < 64) :
    cellWf (cellPutBit c i t) := by
  have hv : ∀ j, j < 64 → c.value.getLsbD j = true → c.written.getLsbD j = true := by
    intro j hj hvj
    have := congrArg (fun w => BitVec.getLsbD w j) h
    simpa [hvj, hj, -BitVec.getLsbD_eq_getElem] using this
  constructor
  · intro h0
    have := congrArg (fun w => BitVec.getLsbD w i) h0
    simp [cellPutBit_written _ _ _ _ hi] at this
  · apply BitVec.eq_of_getLsbD_eq
    intro j hj
    simp only [BitVec.getLsbD_and, BitVec.getLsbD_not, cellPutBit_written _ _ _ _ hi, cellPutBit_value _ _ _ _ hi]
    by_cases h2 : j = i
    · simp [h2]
    · cases hvj : c.value.getLsbD j
      · simp [h2]
      · simp [hv j hj hvj]

theorem cellZero_wf : cellWf cellZero := by decide

/-! ### Bits of a buffer -/

/-- Bit `p` of a buffer whose written part is `m`, with `draw` the reset-time contents. -/
def bufBit (draw : Nat → Word) (m : Store Cell) (p : Nat) : Bool := cellBit (draw (p / 64)) (storeGet m (p / 64)) (p % 64)

theorem State.bit_eq_bufBit (s : State) (b : BufId) (p : Nat) :
    s.bit b p = bufBit (Config.drawnWord s.epoch b) (s.buf b) p := rfl

theorem bufBit_bufPutBit (draw : Nat → Word) (m : Store Cell) (p p' : Nat) (t : Bool) :
    bufBit draw (bufPutBit m p t) p' = if p' = p then t else bufBit draw m p' := by
  unfold bufBit bufPutBit
  simp only [Config.wordBits, storeGet_storeSet]
  by_cases hq : p' / 64 = p / 64
  · simp only [hq, if_true]
    rw [cellBit_cellPutBit _ _ _ _ _ (Nat.mod_lt _ (by decide)), cellBit_getD]
    have : (p' % 64 = p % 64) ↔ (p' = p) := by omega
    simp only [this]
  · have : p' ≠ p := fun h => hq (h ▸ rfl)
    simp [hq, this]

theorem bufBit_bufPutField (draw : Nat → Word) (m : Store Cell) (o k v p : Nat) :
    bufBit draw (bufPutField m o k v) p = if o ≤ p ∧ p < o + k then v.testBit (p - o) else bufBit draw m p := by
  induction k with
  | zero => simp [bufPutField]
  | succ k ih =>
    rw [bufPutField, bufBit_bufPutBit, ih]
    by_cases h : p = o + k
    · subst h; simp
    · have : (o ≤ p ∧ p < o + (k + 1)) ↔ (o ≤ p ∧ p < o + k) := by omega
      simp [h, this]

theorem storeGet_bufClear (m : Store Cell) (n k : Nat) :
    storeGet (bufClear m n) k = if k < n then some cellZero else storeGet m k := by
  induction n generalizing m with
  | zero => simp [bufClear]
  | succ n ih =>
    rw [bufClear, ih, storeGet_storeSet]
    by_cases h : k < n
    · simp [h, Nat.lt_succ_of_lt h]
    · by_cases h2 : k = n
      · simp [h2]
      · have : ¬ k < n + 1 := by omega
        simp [h, h2, this]

theorem bufBit_bufClear (draw : Nat → Word) (m : Store Cell) (n p : Nat) :
    bufBit draw (bufClear m n) p = if p < 64 * n then false else bufBit draw m p := by
  unfold bufBit
  rw [storeGet_bufClear]
  have : p / 64 < n ↔ p < 64 * n := by omega
  by_cases h : p < 64 * n
  · rw [if_pos (this.2 h), if_pos h]
    have h64 : p % 64 < 64 := Nat.mod_lt p (by decide)
    simp only [cellBit, cellZero, BitVec.getLsbD_allOnes, h64, decide_true, if_true, BitVec.getLsbD_zero]
  · rw [if_neg (fun x => h (this.1 x)), if_neg h]

/-! ### Bits of the machine's buffers -/

@[simp] theorem State.setBuf_bit (s : State) (b b' : BufId) (m : Store Cell) (p : Nat) :
    (s.setBuf b m).bit b' p = if b' = b then bufBit (Config.drawnWord s.epoch b) m p else s.bit b' p := by
  rw [State.bit_eq_bufBit]
  by_cases h : b' = b
  · subst h; simp
  · simp [h, State.bit_eq_bufBit]

/-- A bit after `PutBit` (R55): the bit written, or what it was. -/
@[simp] theorem State.putBit_bit (s : State) (b b' : BufId) (p p' : Nat) (t : Bool) :
    (s.putBit b p t).bit b' p' = if b' = b ∧ p' = p then t else s.bit b' p' := by
  by_cases h : b' = b
  · subst h; simp [State.putBit, bufBit_bufPutBit, State.bit_eq_bufBit]
  · simp [State.putBit, h]

/-- A bit after `PutField` (R57): the field's bit, or what it was. -/
@[simp] theorem State.putField_bit (s : State) (b b' : BufId) (o k v p : Nat) :
    (s.putField b o k v).bit b' p = if b' = b ∧ o ≤ p ∧ p < o + k then v.testBit (p - o) else s.bit b' p := by
  by_cases h : b' = b
  · subst h; simp [State.putField, bufBit_bufPutField, State.bit_eq_bufBit]
  · simp [State.putField, h]

@[simp] theorem State.putBit_gapRead (s : State) (b : BufId) (p : Nat) (t : Bool) (g : GapId) (i : Nat) :
    (s.putBit b p t).gapRead g i = s.gapRead g i := by simp [State.putBit]
@[simp] theorem State.putField_gapRead (s : State) (b : BufId) (o k v : Nat) (g : GapId) (i : Nat) :
    (s.putField b o k v).gapRead g i = s.gapRead g i := by simp [State.putField]

/-! ### Reading a field -/

theorem State.getField_lt (s : State) (b : BufId) (o k : Nat) : s.getField b o k < 2 ^ k := by
  induction k with
  | zero => simp [State.getField]
  | succ k ih =>
    rw [State.getField, pow_succ]
    cases s.bit b (o + k) <;> simp <;> omega

/-- Bit `i` of a field read is the bit at position `o + i` (R56). -/
theorem State.getField_testBit (s : State) (b : BufId) (o k i : Nat) :
    (s.getField b o k).testBit i = (decide (i < k) && s.bit b (o + i)) := by
  induction k with
  | zero => simp [State.getField]
  | succ k ih =>
    have hlt := s.getField_lt b o k
    rw [State.getField, mul_comm, add_comm]
    rw [Nat.testBit_two_pow_mul_add _ hlt]
    by_cases h : i < k
    · simp [h, ih, Nat.lt_succ_of_lt h]
    · by_cases h2 : i = k
      · subst h2; cases s.bit b (o + i) <;> simp
      · have h3 : ¬ i < k + 1 := by omega
        have h4 : i - k ≠ 0 := by omega
        have h5 : Nat.testBit 1 (i - k) = false := by
          obtain ⟨n, hn⟩ := Nat.exists_eq_succ_of_ne_zero h4
          rw [hn, Nat.testBit_succ]; simp
        cases s.bit b (o + k) <;> simp [h, h3, h5]

/-- A field read depends on the bits of the field alone. -/
theorem State.getField_congr {s t : State} {b : BufId} {o k : Nat} (h : ∀ p, o ≤ p → p < o + k → t.bit b p = s.bit b p) :
    t.getField b o k = s.getField b o k := by
  induction k with
  | zero => rfl
  | succ k ih =>
    rw [State.getField, State.getField, ih fun p h1 h2 => h p h1 (by omega), h (o + k) (by omega) (by omega)]

/-! ### Gap memories -/

/-- An entry after `GapWrite` (R61): the value written, or what it was. -/
@[simp] theorem State.gapWrite_gapRead (s : State) (g g' : GapId) (i i' : Nat) (v : Gap) :
    (s.gapWrite g i v).gapRead g' i' = if g' = g ∧ i' = i then v else s.gapRead g' i' := by
  by_cases h : g' = g
  · subst h
    by_cases h2 : i' = i <;> simp [State.gapWrite, State.gapRead, storeGet_storeSet, h2]
  · simp [State.gapWrite, State.gapRead, h]

@[simp] theorem State.gapWrite_bit (s : State) (g : GapId) (i : Nat) (v : Gap) (b : BufId) (p : Nat) :
    (s.gapWrite g i v).bit b p = s.bit b p := by simp [State.gapWrite]

/-! ### The canonical form -/

theorem bufPutBit_wf {m : Store Cell} (h : storeWf m ∧ ∀ x ∈ m, cellWf x.2) (p : Nat) (t : Bool) :
    storeWf (bufPutBit m p t) ∧ ∀ x ∈ bufPutBit m p t, cellWf x.2 := by
  refine ⟨storeSet_wf h.1 _ _, storeSet_forall h.2 (cellPutBit_wf ?_ _ _ (Nat.mod_lt _ (by decide)))⟩
  cases hc : storeGet m (p / Config.wordBits) with
  | none => simp
  | some c => exact (h.2 _ (mem_of_storeGet hc)).2

theorem bufPutField_wf {m : Store Cell} (h : storeWf m ∧ ∀ x ∈ m, cellWf x.2) (o k v : Nat) :
    storeWf (bufPutField m o k v) ∧ ∀ x ∈ bufPutField m o k v, cellWf x.2 := by
  induction k with
  | zero => exact h
  | succ k ih => exact bufPutBit_wf ih _ _

theorem bufClear_wf {m : Store Cell} (h : storeWf m ∧ ∀ x ∈ m, cellWf x.2) (n : Nat) :
    storeWf (bufClear m n) ∧ ∀ x ∈ bufClear m n, cellWf x.2 := by
  induction n generalizing m with
  | zero => exact h
  | succ n ih => exact ih ⟨storeSet_wf h.1 _ _, storeSet_forall h.2 cellZero_wf⟩

theorem Memory.unwritten_wf : Memory.unwritten.wf := by decide

theorem Memory.setBuf_wf {m : Memory} (h : m.wf) {b : BufId} {c : Store Cell}
    (hc : storeWf c ∧ ∀ x ∈ c, cellWf x.2) : (m.setBuf b c).wf := by
  cases b
  · exact ⟨hc, h.2⟩
  · exact ⟨h.1, hc, h.2.2⟩

theorem Memory.setGaps_wf {m : Memory} (h : m.wf) {g : GapId} {c : Store Gap} (hc : storeWf c) : (m.setGaps g c).wf := by
  cases g
  · exact ⟨h.1, h.2.1, hc, h.2.2.2⟩
  · exact ⟨h.1, h.2.1, h.2.2.1, hc⟩

theorem Memory.wf_buf {s : State} (h : s.mem.wf) (b : BufId) : storeWf (s.buf b) ∧ ∀ x ∈ s.buf b, cellWf x.2 := by
  cases b
  · exact h.1
  · exact h.2.1

theorem Memory.wf_gaps {s : State} (h : s.mem.wf) (g : GapId) : storeWf (s.gaps g) := by
  cases g
  · exact h.2.2.1
  · exact h.2.2.2

/-- Every memory operation keeps the canonical form. -/
theorem State.putBit_wf {s : State} (h : s.mem.wf) (b : BufId) (p : Nat) (t : Bool) : (s.putBit b p t).mem.wf :=
  Memory.setBuf_wf h (bufPutBit_wf (Memory.wf_buf h b) _ _)
theorem State.putField_wf {s : State} (h : s.mem.wf) (b : BufId) (o k v : Nat) : (s.putField b o k v).mem.wf :=
  Memory.setBuf_wf h (bufPutField_wf (Memory.wf_buf h b) _ _ _)
theorem State.clear_wf {s : State} (h : s.mem.wf) (b : BufId) (n : Nat) : (s.setBuf b (bufClear (s.buf b) n)).mem.wf :=
  Memory.setBuf_wf h (bufClear_wf (Memory.wf_buf h b) _)
theorem State.gapWrite_wf {s : State} (h : s.mem.wf) (g : GapId) (i : Nat) (v : Gap) : (s.gapWrite g i v).mem.wf :=
  Memory.setGaps_wf h (storeSet_wf (Memory.wf_gaps h g) _ _)

/-- The memory right after reset is in canonical form. -/
theorem State.powerOn_wf (p : Config.Params) : (State.powerOn p).mem.wf := Memory.unwritten_wf
theorem State.reset_wf : State.reset.mem.wf := State.powerOn_wf _

end Machine
end Sys2Proof
end

