-- ==== Sys2Proof/Laws/Control.lean ====
section
/-! SUPPORT. How a command ends, the FAULT record, sequencing, and `Append`: what each shared operation can do, said once. -/

namespace Sys2Proof
namespace Machine

/-! ### Ends of commands -/

@[simp] theorem conclude_returned (op : Byte) (n : Nat) (s : State) :
    conclude op (.returned n s) = .next (s.respond statusOk (BitVec.ofNat 64 n)) := rfl
@[simp] theorem conclude_raised (op : Byte) (e : Error) (s : State) : conclude op (.raised e s) = .next (s.takeError op e) := rfl

/-- A command's end is always a next state: it returned and was answered `OK`, or it took an error. -/
theorem conclude_cases {op : Byte} {r : Ended Nat} {t : State} (h : conclude op r = .next t) :
    (∃ n s, r = .returned n s ∧ t = s.respond statusOk (BitVec.ofNat 64 n)) ∨ ∃ e s, r = .raised e s ∧ t = s.takeError op e := by
  cases r with
  | returned n s => exact .inl ⟨n, s, rfl, by simpa using h.symm⟩
  | raised e s => exact .inr ⟨e, s, rfl, by simpa using h.symm⟩

@[simp] theorem andThen_returned {α β : Type} (a : α) (s : State) (f : α → State → Ended β) :
    andThen (.returned a s) f = f a s := rfl
@[simp] theorem andThen_raised {α β : Type} (e : Error) (s : State) (f : α → State → Ended β) :
    andThen (.raised e s) f = .raised e s := rfl

/-- A sequence ends where its first statement raised, or as its second statement ends. -/
theorem andThen_cases {α β : Type} (r : Ended α) (f : α → State → Ended β) :
    (∃ a s, r = .returned a s ∧ andThen r f = f a s) ∨ ∃ e s, r = .raised e s ∧ andThen r f = .raised e s := by
  cases r with
  | returned a s => exact .inl ⟨a, s, rfl, rfl⟩
  | raised e s => exact .inr ⟨e, s, rfl, rfl⟩

/-- The state a procedure ends in, whichever way it ends. -/
def Ended.state {α : Type} : Ended α → State
  | .returned _ s => s
  | .raised _ s => s

@[simp] theorem Ended.state_returned {α : Type} (a : α) (s : State) : (Ended.returned a s).state = s := rfl
@[simp] theorem Ended.state_raised {α : Type} (e : Error) (s : State) : (Ended.raised e s : Ended α).state = s := rfl

/-! ### The FAULT record (R25, R256) -/

@[simp] theorem faultCode_faultRecord (op code : Byte) : faultCode (faultRecord op code) = code := by
  apply BitVec.eq_of_getLsbD_eq
  intro i hi
  have h2 : i < 64 := by omega
  simp [faultCode, faultRecord, hi, h2]
@[simp] theorem faultOp_faultRecord (op code : Byte) : faultOp (faultRecord op code) = op := by
  apply BitVec.eq_of_getLsbD_eq
  intro i hi
  have h2 : 8 + i < 64 := by omega
  simp [faultOp, faultRecord, hi, h2]
@[simp] theorem faultRest_faultRecord (op code : Byte) : faultRest (faultRecord op code) = 0#48 := by
  apply BitVec.eq_of_getLsbD_eq
  intro i hi
  have h : code.getLsbD (16 + i) = false := BitVec.getLsbD_of_ge _ _ (by omega)
  have h2 : op.getLsbD (16 + i - 8) = false := BitVec.getLsbD_of_ge _ _ (by omega)
  simp [faultRest, faultRecord, h, h2]

theorem errorCode_ne_zero (e : Error) : errorCode e ≠ 0#8 := by cases e <;> decide
theorem errorCode_known (e : Error) : statusKnown (errorCode e) := by cases e <;> decide

theorem updateFault_first {f : Word} (h : faultCode f = 0#8) (op code : Byte) : updateFault f op code = faultRecord op code :=
  if_pos h
theorem updateFault_later {f : Word} (h : faultCode f ≠ 0#8) (op code : Byte) : updateFault f op code = f := if_neg h

/-- After an error FAULT holds a code. -/
theorem faultCode_updateFault (f : Word) (op : Byte) (e : Error) : faultCode (updateFault f op (errorCode e)) ≠ 0#8 := by
  by_cases h : faultCode f = 0#8
  · simp [updateFault_first h, errorCode_ne_zero]
  · simp [updateFault_later h, h]

/-- The FAULT update keeps the register's form (R25). -/
theorem updateFault_ok {f : Word} (h : faultOk f) (op : Byte) (e : Error) : faultOk (updateFault f op (errorCode e)) := by
  by_cases hc : faultCode f = 0#8
  · rw [updateFault_first hc]
    exact ⟨by simp, by simpa using errorCode_known e, fun h0 => absurd (by simpa using h0) (errorCode_ne_zero e)⟩
  · rw [updateFault_later hc]; exact h

/-! ### Append (R59) -/

theorem State.append_fits {s : State} {b : BufId} {k : Nat} (h : (s.len b).toNat + k ≤ s.capBits b) (v : Nat) :
    s.append b k v =
      .returned (s.len b).toNat ((s.putField b (s.len b).toNat k v).setLen b (BitVec.ofNat 64 ((s.len b).toNat + k))) :=
  if_neg (Nat.not_lt.2 h)
theorem State.append_full {s : State} {b : BufId} {k : Nat} (h : s.capBits b < (s.len b).toNat + k) (v : Nat) :
    s.append b k v = .raised .capacityViolation s := if_pos h

/-- All that `Append` can do: write the whole field at the cursor and advance the cursor, or raise with nothing written. -/
theorem State.append_cases (s : State) (b : BufId) (k v : Nat) :
    ((s.len b).toNat + k ≤ s.capBits b ∧ s.append b k v =
        .returned (s.len b).toNat ((s.putField b (s.len b).toNat k v).setLen b (BitVec.ofNat 64 ((s.len b).toNat + k)))) ∨
      (s.capBits b < (s.len b).toNat + k ∧ s.append b k v = .raised .capacityViolation s) := by
  rcases Nat.lt_or_ge (s.capBits b) ((s.len b).toNat + k) with h | h
  · exact .inr ⟨h, s.append_full h v⟩
  · exact .inl ⟨h, s.append_fits h v⟩

/-! ### What the long commands touch -/

/-- From `s` to `t` nothing changed but buffer `b` and `LEN[b]`. -/
structure TouchesBuffer (b : BufId) (s t : State) : Prop where
  params : t.params = s.params
  epoch : t.epoch = s.epoch
  pending : t.pending = s.pending
  responses : t.responses = s.responses
  gaps : ∀ g, t.gaps g = s.gaps g
  buf : ∀ b', b' ≠ b → t.buf b' = s.buf b'
  regs : ∃ v, t.regs = s.regs.setLen b v

/-- From `s` to `t` nothing changed but gap memory `g` and `GLEN[g]`. -/
structure TouchesGaps (g : GapId) (s t : State) : Prop where
  params : t.params = s.params
  epoch : t.epoch = s.epoch
  pending : t.pending = s.pending
  responses : t.responses = s.responses
  buf : ∀ b, t.buf b = s.buf b
  gaps : ∀ g', g' ≠ g → t.gaps g' = s.gaps g'
  regs : ∃ v, t.regs = s.regs.setGlen g v

theorem Regs.setLen_self (r : Regs) (b : BufId) : ∃ v, r = r.setLen b v := by
  cases b
  · exact ⟨r.len0, rfl⟩
  · exact ⟨r.len1, rfl⟩
theorem Regs.setGlen_self (r : Regs) (g : GapId) : ∃ v, r = r.setGlen g v := by
  cases g
  · exact ⟨r.glen0, rfl⟩
  · exact ⟨r.glen1, rfl⟩
theorem Regs.setLen_setLen (r : Regs) (b : BufId) (v w : Word) : (r.setLen b v).setLen b w = r.setLen b w := by cases b <;> rfl
theorem Regs.setGlen_setGlen (r : Regs) (g : GapId) (v w : Word) : (r.setGlen g v).setGlen g w = r.setGlen g w := by
  cases g <;> rfl

theorem TouchesBuffer.refl (b : BufId) (s : State) : TouchesBuffer b s s :=
  ⟨rfl, rfl, rfl, rfl, fun _ => rfl, fun _ _ => rfl, s.regs.setLen_self b⟩
theorem TouchesGaps.refl (g : GapId) (s : State) : TouchesGaps g s s :=
  ⟨rfl, rfl, rfl, rfl, fun _ => rfl, fun _ _ => rfl, s.regs.setGlen_self g⟩

theorem TouchesBuffer.trans {b : BufId} {s t u : State} (h : TouchesBuffer b s t) (k : TouchesBuffer b t u) :
    TouchesBuffer b s u := by
  obtain ⟨v, hv⟩ := h.regs
  obtain ⟨w, hw⟩ := k.regs
  exact ⟨k.params.trans h.params, k.epoch.trans h.epoch, k.pending.trans h.pending, k.responses.trans h.responses,
    fun g => (k.gaps g).trans (h.gaps g), fun b' hb => (k.buf b' hb).trans (h.buf b' hb),
    w, by rw [hw, hv, Regs.setLen_setLen]⟩
theorem TouchesGaps.trans {g : GapId} {s t u : State} (h : TouchesGaps g s t) (k : TouchesGaps g t u) : TouchesGaps g s u := by
  obtain ⟨v, hv⟩ := h.regs
  obtain ⟨w, hw⟩ := k.regs
  exact ⟨k.params.trans h.params, k.epoch.trans h.epoch, k.pending.trans h.pending, k.responses.trans h.responses,
    fun b => (k.buf b).trans (h.buf b), fun g' hg => (k.gaps g' hg).trans (h.gaps g' hg),
    w, by rw [hw, hv, Regs.setGlen_setGlen]⟩

theorem State.setLen_touches (s : State) (b : BufId) (v : Word) : TouchesBuffer b s (s.setLen b v) :=
  ⟨rfl, rfl, rfl, rfl, fun g => by simp, fun b' _ => by simp, v, rfl⟩
theorem State.putField_touches (s : State) (b : BufId) (o k v : Nat) : TouchesBuffer b s (s.putField b o k v) :=
  ⟨rfl, rfl, rfl, rfl, fun g => by simp, fun b' h => by simp [State.putField, h], s.regs.setLen_self b⟩
theorem State.setGlen_touches (s : State) (g : GapId) (v : Word) : TouchesGaps g s (s.setGlen g v) :=
  ⟨rfl, rfl, rfl, rfl, fun b => by simp, fun g' _ => by simp, v, rfl⟩
theorem State.gapWrite_touches (s : State) (g : GapId) (i : Nat) (v : Gap) : TouchesGaps g s (s.gapWrite g i v) :=
  ⟨rfl, rfl, rfl, rfl, fun b => by simp, fun g' h => by simp [State.gapWrite, h], s.regs.setGlen_self g⟩

theorem State.append_touches (s : State) (b : BufId) (k v : Nat) : TouchesBuffer b s (s.append b k v).state := by
  rcases s.append_cases b k v with ⟨_, h⟩ | ⟨_, h⟩ <;> rw [h]
  · exact (s.putField_touches b _ k v).trans (State.setLen_touches _ b _)
  · exact TouchesBuffer.refl b s

/-- A sequence touches a buffer only, if its statements do. -/
theorem andThen_touchesBuffer {α β : Type} {b : BufId} {s : State} {r : Ended α} {f : α → State → Ended β}
    (hr : TouchesBuffer b s r.state) (hf : ∀ a s', TouchesBuffer b s' (f a s').state) :
    TouchesBuffer b s (andThen r f).state := by
  cases r with
  | returned a s' => exact hr.trans (hf a s')
  | raised e s' => exact hr

theorem encodeGaps_touches {one : Nat → State → Ended Unit} {b : BufId}
    (h : ∀ x s, TouchesBuffer b s (one x s).state) (gaps : List Nat) (s : State) :
    TouchesBuffer b s (encodeGaps one gaps s).state := by
  induction gaps generalizing s with
  | nil => exact TouchesBuffer.refl b s
  | cons x xs ih => exact andThen_touchesBuffer (h x s) fun _ s' => ih s'

/-- All an encode can touch: its buffer and the buffer's `LEN` (R191, R211). -/
theorem encodeInto_touches {one : Nat → State → Ended Unit} {b : BufId}
    (h : ∀ x s, TouchesBuffer b s (one x s).state) (gaps : List Nat) (s : State) :
    TouchesBuffer b s (encodeInto one b gaps s).state :=
  andThen_touchesBuffer ((State.setLen_touches s b _).trans (encodeGaps_touches h gaps _)) fun _ s' => TouchesBuffer.refl b s'

theorem encodeGapFW_touches (b : BufId) (w fuel g : Nat) (s : State) : TouchesBuffer b s (encodeGapFW b w fuel g s).state := by
  induction fuel generalizing g s with
  | zero => exact TouchesBuffer.refl b s
  | succ fuel ih =>
    refine andThen_touchesBuffer (s.append_touches b _ _) fun _ s' => ?_
    split
    · exact ih _ s'
    · exact TouchesBuffer.refl b s'

theorem appendOnes_touches (b : BufId) (q : Nat) (s : State) : TouchesBuffer b s (appendOnes b q s).state := by
  induction q generalizing s with
  | zero => exact TouchesBuffer.refl b s
  | succ q ih => exact andThen_touchesBuffer (s.append_touches b 1 1) fun _ s' => ih s'

theorem encodeGapRG_touches (b : BufId) (w g : Nat) (s : State) : TouchesBuffer b s (encodeGapRG b w g s).state :=
  andThen_touchesBuffer (appendOnes_touches b _ s) fun _ s1 =>
    andThen_touchesBuffer (s1.append_touches b 1 0) fun _ s2 =>
      andThen_touchesBuffer (s2.append_touches b w _) fun _ s3 => TouchesBuffer.refl b s3

theorem decodeGaps_touches (one : Nat → Option (Nat × Nat)) (g : GapId) (n k pos : Nat) (s : State) :
    TouchesGaps g s (decodeGaps one g n k pos s).state := by
  induction n generalizing k pos s with
  | zero => exact s.setGlen_touches g _
  | succ n ih =>
    rw [decodeGaps]
    split
    · exact s.setGlen_touches g _
    · exact (s.gapWrite_touches g _ _).trans (ih _ _ _)

/-- All a decode can touch: its gap memory and the memory's `GLEN` (R192, R212). -/
theorem decodeInto_touches (one : Nat → Option (Nat × Nat)) (g : GapId) (count : Nat) (s : State) :
    TouchesGaps g s (decodeInto one g count s).state := by
  rw [decodeInto]
  split
  · exact TouchesGaps.refl g s
  · exact decodeGaps_touches one g count 0 0 s

/-- All the scan of EXTRACT can touch: its gap memory and the memory's `GLEN` (R151). -/
theorem extractScan_touches (src : State) (b : BufId) (g : GapId) (n p d k : Nat) (s : State) :
    TouchesGaps g s (extractScan src b g n p d k s).state := by
  induction n generalizing p d k s with
  | zero =>
    rw [extractScan]
    split
    · exact (s.gapWrite_touches g _ _).trans (State.setGlen_touches _ g _)
    · exact s.setGlen_touches g _
  | succ n ih =>
    rw [extractScan]
    split
    · split
      · exact (s.gapWrite_touches g _ _).trans (ih _ _ _ _)
      · exact s.setGlen_touches g _
    · exact ih _ _ _ _

/-! ### The optimizer's choice (R175) -/

/-- The chosen width is in the range, none of the range is cheaper, and every smaller width of the range costs more. -/
theorem chosenWidth_spec (bits : Nat → Nat) (lo n : Nat) (hn : 0 < n) :
    let w := chosenWidth bits lo n
    lo ≤ w ∧ w < lo + n ∧ (∀ w', lo ≤ w' → w' < lo + n → bits w ≤ bits w') ∧
      ∀ w', lo ≤ w' → w' < w → bits w < bits w' := by
  intro w
  have hex : ∃ m ∈ List.range' lo n, ∀ w' ∈ List.range' lo n, bits m ≤ bits w' := by
    obtain ⟨m, hm, hmin⟩ := Finset.exists_min_image (List.range' lo n).toFinset bits
      ⟨lo, by simp [List.mem_range'_1, hn]⟩
    exact ⟨m, by simpa using hm, fun w' hw' => hmin w' (by simpa using hw')⟩
  obtain ⟨m, hm, hmin⟩ := hex
  cases hf : (List.range' lo n).find? (fun w => (List.range' lo n).all fun w' => decide (bits w ≤ bits w')) with
  | none =>
    have := List.find?_eq_none.1 hf m hm
    simp only [List.all_eq_true, decide_eq_true_eq] at this
    exact absurd hmin this
  | some x =>
    have hw : w = x := by show (Option.getD _ _) = x; rw [hf]; rfl
    obtain ⟨hx, as, bs, hsplit, hbefore⟩ := List.find?_eq_some_iff_append.1 hf
    have hmem : x ∈ List.range' lo n := by rw [hsplit]; simp
    have hmin' : ∀ w', lo ≤ w' → w' < lo + n → bits x ≤ bits w' := fun w' h1 h2 => by
      simpa using List.all_eq_true.1 hx w' (List.mem_range'_1.2 ⟨h1, h2⟩)
    have hr := List.mem_range'_1.1 hmem
    rw [hw]
    refine ⟨hr.1, hr.2, hmin', fun w' h1 h2 => ?_⟩
    have hsorted : (List.range' lo n).Pairwise (· < ·) := List.pairwise_lt_range'
    have hw'mem : w' ∈ as := by
      have hin : w' ∈ as ++ x :: bs := hsplit ▸ List.mem_range'_1.2 ⟨h1, by omega⟩
      rw [hsplit, List.pairwise_append, List.pairwise_cons] at hsorted
      rcases List.mem_append.1 hin with h | h
      · exact h
      · rcases List.mem_cons.1 h with rfl | h
        · omega
        · exact absurd (hsorted.2.1.1 _ h) (by omega)
    have hnot := hbefore w' hw'mem
    by_contra hle
    simp only [Bool.not_eq_true', List.all_eq_false, decide_eq_true_eq, not_le] at hnot
    obtain ⟨y, hy, hlt⟩ := hnot
    have := hmin' y (List.mem_range'_1.1 hy).1 (List.mem_range'_1.1 hy).2
    omega

end Machine
end Sys2Proof
end

