-- ==== Sys2Proof/Laws/Codec.lean ====
section
/-! SUPPORT. The encoders' loops as one append per field of the stream (spec/30_encoding.md R91 to R94, spec/43_fixed_width_codec.md
R191, spec/44_rice_golomb_codec.md R211, R213). -/

namespace Sys2Proof
namespace Machine

/-- A finite check that a buffer holds a bit string. -/
theorem holdsStream_of_lt {s : State} {b : BufId} {bits : List Bool}
    (h : ∀ p, p < bits.length → s.bit b p = (bits[p]?).getD false) : holdsStream s b bits := by
  intro p x hx
  have hp : p < bits.length := by
    by_contra hge
    simp [List.getElem?_eq_none (Nat.le_of_not_lt hge)] at hx
  rw [h p hp, hx]
  rfl

/-- One append per field, in order, until one raises. -/
def appendFields (b : BufId) : List (Nat × Nat) → State → Ended Unit
  | [], s => .returned () s
  | f :: fs, s => andThen (s.append b f.1 f.2) fun _ s' => appendFields b fs s'

theorem andThen_assoc {α β γ : Type} (r : Ended α) (f : α → State → Ended β) (k : β → State → Ended γ) :
    andThen (andThen r f) k = andThen r fun a s => andThen (f a s) k := by cases r <;> rfl

theorem appendFields_append (b : BufId) (xs ys : List (Nat × Nat)) (s : State) :
    appendFields b (xs ++ ys) s = andThen (appendFields b xs s) fun _ s' => appendFields b ys s' := by
  induction xs generalizing s with
  | nil => rfl
  | cons x xs ih => simp only [List.cons_append, appendFields, andThen_assoc, ih]

/-- The fixed-width code of one gap is the appends of its fields (R92, R191). -/
theorem encodeGapFW_eq (b : BufId) (w : Nat) (hw : 1 ≤ w) (fuel g : Nat) (hf : g < fuel) (s : State) :
    encodeGapFW b w fuel g s =
      appendFields b (List.replicate (g / (2 ^ w - 1)) (w, 2 ^ w - 1) ++ [(w, g % (2 ^ w - 1))]) s := by
  have hm : 1 ≤ 2 ^ w - 1 := by
    have : 2 ^ 1 ≤ 2 ^ w := Nat.pow_le_pow_right (by omega) hw
    omega
  generalize hM : 2 ^ w - 1 = m at hm ⊢
  induction fuel generalizing g s with
  | zero => omega
  | succ fuel ih =>
    rw [encodeGapFW, sentinel, hM]
    by_cases h : m ≤ g
    · simp only [Nat.min_eq_right h, if_true]
      rw [Nat.div_eq_sub_div hm h, Nat.mod_eq_sub_mod h, List.replicate_succ, List.cons_append, appendFields]
      congr 1
      funext _ s'
      exact ih (g - m) (by omega) s'
    · have hne : g ≠ m := by omega
      simp only [Nat.min_eq_left (show g ≤ m by omega), if_neg hne]
      rw [Nat.div_eq_of_lt (by omega), Nat.mod_eq_of_lt (by omega)]
      rfl

theorem appendOnes_eq (b : BufId) (q : Nat) (s : State) : appendOnes b q s = appendFields b (List.replicate q (1, 1)) s := by
  induction q generalizing s with
  | zero => rfl
  | succ q ih => simp only [appendOnes, List.replicate_succ, appendFields, ih]

/-- The Rice-Golomb code of one gap is the appends of its fields (R93, R211). -/
theorem encodeGapRG_eq (b : BufId) (w g : Nat) (s : State) :
    encodeGapRG b w g s = appendFields b (List.replicate (g / 2 ^ w) (1, 1) ++ [(1, 0), (w, g % 2 ^ w)]) s := by
  rw [encodeGapRG, appendOnes_eq, appendFields_append]
  rfl

/-- A loop over gaps is the appends of the fields of all of them. -/
theorem encodeGaps_eq {one : Nat → State → Ended Unit} {b : BufId} {fields : Nat → List (Nat × Nat)}
    (h : ∀ x s, one x s = appendFields b (fields x) s) (gaps : List Nat) (s : State) :
    encodeGaps one gaps s = appendFields b (gaps.flatMap fields) s := by
  induction gaps generalizing s with
  | nil => rfl
  | cons x xs ih =>
    rw [encodeGaps, List.flatMap_cons, appendFields_append, h]
    congr 1
    funext _ s'
    exact ih s'

/-- An encode writes `LEN[b] <- 0`, then appends the fields, then returns `LEN[b]` (R191, R211). -/
theorem encodeInto_eq {one : Nat → State → Ended Unit} {b : BufId} {fields : Nat → List (Nat × Nat)}
    (h : ∀ x s, one x s = appendFields b (fields x) s) (gaps : List Nat) (s : State) :
    encodeInto one b gaps s =
      andThen (appendFields b (gaps.flatMap fields) (s.setLen b 0#64)) fun _ s' => .returned (s'.len b).toNat s' := by
  rw [encodeInto, encodeGaps_eq h]

/-- The fixed-width loop of ENC.FW appends the fields of `fieldsFW` (R191). -/
theorem encodeInto_fw (b : BufId) (w : Nat) (hw : 1 ≤ w) (gaps : List Nat) (s : State) :
    encodeInto (fun x => encodeGapFW b w (x + 1) x) b gaps s =
      andThen (appendFields b (fieldsFW w gaps) (s.setLen b 0#64)) fun _ s' => .returned (s'.len b).toNat s' :=
  encodeInto_eq (fun x s => encodeGapFW_eq b w hw (x + 1) x (Nat.lt_succ_self x) s) gaps s

/-- The Rice-Golomb loop of ENC.RG appends the fields of `fieldsRG` (R211). -/
theorem encodeInto_rg (b : BufId) (w : Nat) (gaps : List Nat) (s : State) :
    encodeInto (fun x => encodeGapRG b w x) b gaps s =
      andThen (appendFields b (fieldsRG w gaps) (s.setLen b 0#64)) fun _ s' => .returned (s'.len b).toNat s' :=
  encodeInto_eq (encodeGapRG_eq b w) gaps s

end Machine
end Sys2Proof
end

