-- ==== Sys2Proof/Laws/Decode.lean ====
section
/-! SUPPORT. The fields of an assembled command word, and the operand of GAPWR (spec/30_encoding.md R81, R84). -/

namespace Sys2Proof

@[simp] theorem bufOfBit_bitOfBuf (b : BufId) : bufOfBit (bitOfBuf b) = b := by cases b <;> rfl
@[simp] theorem gapOfBit_bitOfGap (g : GapId) : gapOfBit (bitOfGap g) = g := by cases g <;> rfl

@[simp] theorem opField_commandWord (op : Byte) (w : Width) (b : BufId) (g : GapId) : opField (commandWord op w b g) = op := by
  apply BitVec.eq_of_getLsbD_eq
  intro i hi
  have h1 : i < 14 := by omega
  have h2 : i < 15 := by omega
  have h3 : i < 32 := by omega
  simp [opField, commandWord, hi, h1, h2, h3]

@[simp] theorem wField_commandWord (op : Byte) (w : Width) (b : BufId) (g : GapId) : wField (commandWord op w b g) = w := by
  apply BitVec.eq_of_getLsbD_eq
  intro i hi
  have h1 : 8 + i < 14 := by omega
  have h2 : 8 + i < 15 := by omega
  have h3 : 8 + i < 32 := by omega
  simp [wField, commandWord, hi, h1, h2, h3]

@[simp] theorem bField_commandWord (op : Byte) (w : Width) (b : BufId) (g : GapId) :
    bField (commandWord op w b g) = bitOfBuf b := by
  cases b <;> cases g <;> simp [bField, commandWord, bitOfBuf]

@[simp] theorem gField_commandWord (op : Byte) (w : Width) (b : BufId) (g : GapId) :
    gField (commandWord op w b g) = bitOfGap g := by
  cases b <;> cases g <;> simp [gField, commandWord, bitOfGap, bitOfBuf]

@[simp] theorem reservedField_commandWord (op : Byte) (w : Width) (b : BufId) (g : GapId) :
    reservedField (commandWord op w b g) = 0#16 := by
  apply BitVec.eq_of_getLsbD_eq
  intro i hi
  have h0 : op.getLsbD (16 + i) = false := BitVec.getLsbD_of_ge _ _ (by omega)
  have h1 : w.getLsbD (16 + i - 8) = false := BitVec.getLsbD_of_ge _ _ (by omega)
  have h2 : (BitVec.ofBool (bitOfBuf b)).getLsbD (16 + i - 14) = false := BitVec.getLsbD_of_ge _ _ (by omega)
  have h3 : (BitVec.ofBool (bitOfGap g)).getLsbD (16 + i - 15) = false := BitVec.getLsbD_of_ge _ _ (by omega)
  simp [reservedField, commandWord, h0, h1, h2, h3]

@[simp] theorem gapwrIndex_gapwrArg (i v : BitVec 32) : gapwrIndex (gapwrArg i v) = i := by
  apply BitVec.eq_of_getLsbD_eq
  intro j hj
  have h2 : 32 + j < 64 := by omega
  simp [gapwrIndex, gapwrArg, hj, h2]

@[simp] theorem gapwrValue_gapwrArg (i v : BitVec 32) : gapwrValue (gapwrArg i v) = v := by
  apply BitVec.eq_of_getLsbD_eq
  intro j hj
  have h2 : j < 64 := by omega
  simp [gapwrValue, gapwrArg, hj, h2]

end Sys2Proof
end

