-- ==== Sys2Proof/Laws/Operands.lean ====
section
/-! SUPPORT. The operand forms, said once: register numbers, what a register write can do, and the capacity, width and index
tests as plain comparisons (spec/10_state.md R24, spec/45_system_commands.md R232, spec/20_memory.md R60, R61). -/

namespace Sys2Proof
namespace Machine

/-- A number names a register exactly if it is below 10 (R24). -/
theorem regOfNumber_isSome (r : Width) : (regOfNumber r).isSome = decide (registerNumberOk r) := by revert r; decide

/-- The three kinds of register WRREG may write, with the conditions of R232. -/
theorem State.writeLegal_cases {s : State} {r : Reg} {v : Word} (h : s.writeLegal r v = true) :
    (∃ b, r = .capw b ∧ v.toNat ≤ s.params.bbWords ∧ (s.len b).toNat ≤ 64 * v.toNat) ∨
      (∃ b, r = .len b ∧ v.toNat ≤ s.capBits b) ∨ ∃ g, r = .glen g ∧ v.toNat ≤ s.params.gapEntries := by
  cases r with
  | fault => simp [State.writeLegal] at h
  | capw b => exact .inl ⟨b, rfl, of_decide_eq_true h⟩
  | len b => exact .inr (.inl ⟨b, rfl, of_decide_eq_true h⟩)
  | glen g => exact .inr (.inr ⟨g, rfl, of_decide_eq_true h⟩)
  | optW => simp [State.writeLegal] at h
  | optBits => simp [State.writeLegal] at h
  | optWords => simp [State.writeLegal] at h

@[simp] theorem State.writeReg_capw (s : State) (b : BufId) (v : Word) : s.writeReg (.capw b) v = s.setCapw b v := rfl
@[simp] theorem State.writeReg_len (s : State) (b : BufId) (v : Word) : s.writeReg (.len b) v = s.setLen b v := rfl
@[simp] theorem State.writeReg_glen (s : State) (g : GapId) (v : Word) : s.writeReg (.glen g) v = s.setGlen g v := rfl

/-- A register write touches registers only, and never FAULT (R232). -/
theorem State.writeReg_frame (s : State) (r : Reg) (v : Word) :
    (s.writeReg r v).mem = s.mem ∧ (s.writeReg r v).params = s.params ∧ (s.writeReg r v).epoch = s.epoch ∧
      (s.writeReg r v).pending = s.pending ∧ (s.writeReg r v).responses = s.responses ∧
      (s.writeReg r v).regs.fault = s.regs.fault := by
  cases r with
  | capw b => cases b <;> exact ⟨rfl, rfl, rfl, rfl, rfl, rfl⟩
  | len b => cases b <;> exact ⟨rfl, rfl, rfl, rfl, rfl, rfl⟩
  | glen g => cases g <;> exact ⟨rfl, rfl, rfl, rfl, rfl, rfl⟩
  | fault => exact ⟨rfl, rfl, rfl, rfl, rfl, rfl⟩
  | optW => exact ⟨rfl, rfl, rfl, rfl, rfl, rfl⟩
  | optBits => exact ⟨rfl, rfl, rfl, rfl, rfl, rfl⟩
  | optWords => exact ⟨rfl, rfl, rfl, rfl, rfl, rfl⟩

theorem State.inCapacity_iff (s : State) (b : BufId) (o k : Nat) : s.inCapacity b o k = true ↔ o + k ≤ s.capBits b := by
  simp [State.inCapacity]
theorem State.gapIndexOk_iff (s : State) (i : Nat) : s.gapIndexOk i = true ↔ i < s.params.gapEntries := by
  simp [State.gapIndexOk]
theorem fitsWidth_iff (w : Width) (v : Word) : fitsWidth w v = true ↔ v.toNat < 2 ^ w.toNat := by simp [fitsWidth]

end Machine
end Sys2Proof
end

