-- ==== Sys2Proof/Laws/PerInstr.lean ====
section
/-! SUPPORT. The family `OpcodeByte`, one lemma per command: the word the encoder writes has the command's opcode in `cw[7:0]`
(spec/30_encoding.md R81, R86), zeros in `cw[31:16]` (R81), and zeros in the fields its format does not use (R82). -/

namespace Sys2Proof

/-- The fields of R82 that a command's format leaves unused are zero in the word. -/
def Laws.unusedFieldsZero (i : Instr) (cw : CmdWord) : Prop :=
  match rowOf i.opcode with
  | none => False
  | some row =>
    (formatUsesW row.format = false → wField cw = 0#6) ∧ (formatUsesB row.format = false → bField cw = false) ∧
      (formatUsesG row.format = false → gField cw = false)

/-- Opcode, reserved bits and unused fields of the word a command encodes to. -/
def Laws.OpcodeByte.Statement (i : Instr) : Prop :=
  opField (encode i).1 = i.opcode ∧ reservedField (encode i).1 = 0#16 ∧ unusedFieldsZero i (encode i).1

theorem Laws.OpcodeByte.reset : Laws.OpcodeByte.Statement .reset := by
  simp [Laws.OpcodeByte.Statement, Laws.unusedFieldsZero, encode, rowOf, commandRows, Instr.opcode, formatUsesW, formatUsesB, formatUsesG, bitOfBuf, bitOfGap]
theorem Laws.OpcodeByte.rdreg (r : Width) : Laws.OpcodeByte.Statement (.rdreg r) := by
  simp [Laws.OpcodeByte.Statement, Laws.unusedFieldsZero, encode, rowOf, commandRows, Instr.opcode, formatUsesW, formatUsesB, formatUsesG, bitOfBuf, bitOfGap]
theorem Laws.OpcodeByte.wrreg (r : Width) (value : Word) : Laws.OpcodeByte.Statement (.wrreg r value) := by
  simp [Laws.OpcodeByte.Statement, Laws.unusedFieldsZero, encode, rowOf, commandRows, Instr.opcode, formatUsesW, formatUsesB, formatUsesG, bitOfBuf, bitOfGap]
theorem Laws.OpcodeByte.setbit (b : BufId) (pos : Word) : Laws.OpcodeByte.Statement (.setbit b pos) := by
  simp [Laws.OpcodeByte.Statement, Laws.unusedFieldsZero, encode, rowOf, commandRows, Instr.opcode, formatUsesW, formatUsesB, formatUsesG, bitOfBuf, bitOfGap]
theorem Laws.OpcodeByte.getbit (b : BufId) (pos : Word) : Laws.OpcodeByte.Statement (.getbit b pos) := by
  simp [Laws.OpcodeByte.Statement, Laws.unusedFieldsZero, encode, rowOf, commandRows, Instr.opcode, formatUsesW, formatUsesB, formatUsesG, bitOfBuf, bitOfGap]
theorem Laws.OpcodeByte.append (b : BufId) (w : Width) (value : Word) : Laws.OpcodeByte.Statement (.append b w value) := by
  simp [Laws.OpcodeByte.Statement, Laws.unusedFieldsZero, encode, rowOf, commandRows, Instr.opcode, formatUsesW, formatUsesB, formatUsesG, bitOfBuf, bitOfGap]
theorem Laws.OpcodeByte.readf (b : BufId) (w : Width) (offset : Word) : Laws.OpcodeByte.Statement (.readf b w offset) := by
  simp [Laws.OpcodeByte.Statement, Laws.unusedFieldsZero, encode, rowOf, commandRows, Instr.opcode, formatUsesW, formatUsesB, formatUsesG, bitOfBuf, bitOfGap]
theorem Laws.OpcodeByte.bbclr (b : BufId) : Laws.OpcodeByte.Statement (.bbclr b) := by
  simp [Laws.OpcodeByte.Statement, Laws.unusedFieldsZero, encode, rowOf, commandRows, Instr.opcode, formatUsesW, formatUsesB, formatUsesG, bitOfBuf, bitOfGap]
theorem Laws.OpcodeByte.extract (b : BufId) (g : GapId) (n : Word) : Laws.OpcodeByte.Statement (.extract b g n) := by
  simp [Laws.OpcodeByte.Statement, Laws.unusedFieldsZero, encode, rowOf, commandRows, Instr.opcode, formatUsesW, formatUsesB, formatUsesG, bitOfBuf, bitOfGap]
theorem Laws.OpcodeByte.gaprd (g : GapId) (index : Word) : Laws.OpcodeByte.Statement (.gaprd g index) := by
  simp [Laws.OpcodeByte.Statement, Laws.unusedFieldsZero, encode, rowOf, commandRows, Instr.opcode, formatUsesW, formatUsesB, formatUsesG, bitOfBuf, bitOfGap]
theorem Laws.OpcodeByte.gapwr (g : GapId) (index : BitVec 32) (value : BitVec 32) : Laws.OpcodeByte.Statement (.gapwr g index value) := by
  simp [Laws.OpcodeByte.Statement, Laws.unusedFieldsZero, encode, rowOf, commandRows, Instr.opcode, formatUsesW, formatUsesB, formatUsesG, bitOfBuf, bitOfGap]
theorem Laws.OpcodeByte.optFw (g : GapId) : Laws.OpcodeByte.Statement (.optFw g) := by
  simp [Laws.OpcodeByte.Statement, Laws.unusedFieldsZero, encode, rowOf, commandRows, Instr.opcode, formatUsesW, formatUsesB, formatUsesG, bitOfBuf, bitOfGap]
theorem Laws.OpcodeByte.optRg (g : GapId) : Laws.OpcodeByte.Statement (.optRg g) := by
  simp [Laws.OpcodeByte.Statement, Laws.unusedFieldsZero, encode, rowOf, commandRows, Instr.opcode, formatUsesW, formatUsesB, formatUsesG, bitOfBuf, bitOfGap]
theorem Laws.OpcodeByte.encFw (b : BufId) (g : GapId) (w : Width) : Laws.OpcodeByte.Statement (.encFw b g w) := by
  simp [Laws.OpcodeByte.Statement, Laws.unusedFieldsZero, encode, rowOf, commandRows, Instr.opcode, formatUsesW, formatUsesB, formatUsesG, bitOfBuf, bitOfGap]
theorem Laws.OpcodeByte.decFw (b : BufId) (g : GapId) (w : Width) (count : Word) : Laws.OpcodeByte.Statement (.decFw b g w count) := by
  simp [Laws.OpcodeByte.Statement, Laws.unusedFieldsZero, encode, rowOf, commandRows, Instr.opcode, formatUsesW, formatUsesB, formatUsesG, bitOfBuf, bitOfGap]
theorem Laws.OpcodeByte.encRg (b : BufId) (g : GapId) (w : Width) : Laws.OpcodeByte.Statement (.encRg b g w) := by
  simp [Laws.OpcodeByte.Statement, Laws.unusedFieldsZero, encode, rowOf, commandRows, Instr.opcode, formatUsesW, formatUsesB, formatUsesG, bitOfBuf, bitOfGap]
theorem Laws.OpcodeByte.decRg (b : BufId) (g : GapId) (w : Width) (count : Word) : Laws.OpcodeByte.Statement (.decRg b g w count) := by
  simp [Laws.OpcodeByte.Statement, Laws.unusedFieldsZero, encode, rowOf, commandRows, Instr.opcode, formatUsesW, formatUsesB, formatUsesG, bitOfBuf, bitOfGap]

end Sys2Proof
end

