-- ==== Sys2Proof/Laws/Step.lean ====
section
/-! SUPPORT. All that decoding, a command and a step can do, said once. -/

namespace Sys2Proof

/-- A row found by its opcode is a row of the map with that opcode (R85). -/
theorem rowOf_some {op : Byte} {row : Row} (h : rowOf op = some row) : row ∈ commandRows ∧ row.opcode = op := by
  have hp := List.find?_some h
  exact ⟨List.mem_of_find?_eq_some h, by simpa using hp⟩

/-- A word that decodes has a row of R86, zeros in its reserved and unused fields, and a register number below 10 where it
names a register (R85). -/
theorem decode_ok_cases {cw : CmdWord} {arg : Word} {i : Instr} (h : decode cw arg = .ok i) :
    ∃ row, rowOf (opField cw) = some row ∧ reservedField cw = 0#16 ∧
      (formatUsesW row.format = false → wField cw = 0#6) ∧ (formatUsesB row.format = false → bField cw = false) ∧
      (formatUsesG row.format = false → gField cw = false) ∧ (row.format = .r → registerNumberOk (wField cw)) ∧
      i = row.build (wField cw) (bufOfBit (bField cw)) (gapOfBit (gField cw)) arg := by
  unfold decode at h
  split at h
  · cases h
  · rename_i hres
    split at h
    · cases h
    · rename_i row hrow
      split at h
      · cases h
      · rename_i hw
        split at h
        · cases h
        · rename_i hb
          split at h
          · cases h
          · rename_i hg
            split at h
            · cases h
            · rename_i hr
              refine ⟨row, hrow, by simpa using hres, ?_, ?_, ?_, ?_, by simpa using h.symm⟩
              · intro hf; simpa [hf] using hw
              · intro hf; simpa [hf] using hb
              · intro hf; simpa [hf] using hg
              · intro hf; simpa [hf] using hr

namespace Machine

/-- Every command ends by `conclude` with its own opcode (R11): it is answered, `OK` or an error, and no other way out. -/
theorem exec_concludes (i : Instr) (s : State) : ∃ r, exec i s = conclude i.opcode r := by
  cases i <;>
    simp only [exec, execReset, execRdreg, execWrreg, execSetbit, execGetbit, execAppend, execReadf, execBbclr, execExtract,
      execGaprd, execGapwr, execOptFw, execOptRg, execEncFw, execDecFw, execEncRg, execDecRg] <;>
    exact ⟨_, rfl⟩

/-- What a step does: it waits, resets, runs a decoded command, or answers an illegal word. -/
theorem step_cases {s t : State} (h : step s = .next t) :
    (s.pending = [] ∧ t = s) ∨
    (∃ rest, s.pending = .hardwareReset :: rest ∧ t = s.withoutHead.hardwareReset) ∨
    (∃ cw arg rest i, s.pending = .command cw arg :: rest ∧ decode cw arg = .ok i ∧ exec i s.withoutHead = .next t) ∨
    ∃ cw arg rest r, s.pending = .command cw arg :: rest ∧ decode cw arg = .error r ∧
      t = s.withoutHead.takeError (opField cw) .illegalCommand := by
  unfold step at h
  split at h
  · rename_i hp
    exact .inl ⟨hp, by simpa using h.symm⟩
  · rename_i rest hp
    exact .inr (.inl ⟨rest, hp, by simpa using h.symm⟩)
  · rename_i cw arg rest hp
    split at h
    · rename_i i hd
      exact .inr (.inr (.inl ⟨cw, arg, rest, i, hp, hd, h⟩))
    · rename_i r hd
      exact .inr (.inr (.inr ⟨cw, arg, rest, r, hp, hd, by simpa [execIllegal, conclude] using h.symm⟩))

end Machine
end Sys2Proof
end

