-- ==== Sys2Proof/Tests/Slice0.lean ====
section
/-! SUPPORT. Tests on fixed values, with their expected results from the vectors of spec/95_test_vectors.md (their ids V-… in the
comments), and one witness for the hypotheses of each obligation, each clause at a boundary value. -/

namespace Sys2Proof
namespace Machine
namespace Tests

-- One theorem after another: tests checked side by side take more memory for their threads than they save in time.
set_option Elab.async false

/-! ## Helpers -/

/-- A storage word all of whose bits are written. -/
def full (v : Word) : Cell := { written := BitVec.allOnes 64, value := v }

/-- A state with 3 storage words a buffer and 4 entries a gap memory: the words `x`, `y` in buffer 0 and 0 in buffer 1,
`CAPW = 2` and 1, lengths `l0` and 0; the entries `gs` in gap memory 0, all of them counted. -/
def sample (x y : Word) (l0 : Nat) (gs : List Nat) : State :=
  { params := { bbWords := 3, gapEntries := 4 }
    regs := { Regs.zero with capw0 := 2#64, capw1 := 1#64, len0 := BitVec.ofNat 64 l0, glen0 := BitVec.ofNat 64 gs.length }
    mem := { bb0 := [(0, full x), (1, full y)], bb1 := [(0, full 0#64)],
             gm0 := gs.mapIdx fun i v => (i, BitVec.ofNat 32 v), gm1 := [] }
    epoch := 0, pending := [], responses := [] }

/-- The machine after reset with `CAPW[0] = CAPW[1] = 2`, nothing written. -/
def fresh : State := { State.reset with regs := { Regs.zero with capw0 := 2#64, capw1 := 2#64 } }

/-- The last answer of a next state, as (status, ret). -/
def answer : StepOutcome → Option (Nat × Nat)
  | .next s => s.responses.head?.map fun r => (r.status.toNat, r.ret.toNat)
  | .fault _ => none
  | .refused _ => none

/-- Something of a next state. -/
def look {α : Type} (o : StepOutcome) (f : State → α) : Option α :=
  match o with
  | .next s => some (f s)
  | .fault _ => none
  | .refused _ => none

/-- Storage word `k` of a buffer, read bit by bit, and the first `n` entries of a gap memory. -/
def wordOf (b : BufId) (k : Nat) (s : State) : Nat := s.getField b (64 * k) 64
def entries (g : GapId) (n : Nat) (s : State) : List Nat := s.gapList g 0 n

/-! ## WellFormed (R24, R85): register numbers 10 to 63 are refused -/

theorem test_wellFormed_refuses_rdreg_10 : (Instr.rdreg 10#6).wellFormed = false := by decide
theorem test_wellFormed_refuses_wrreg_63 : (Instr.wrreg 63#6 0#64).wellFormed = false := by decide
theorem test_wellFormed_accepts_register_9 : (Instr.rdreg 9#6).wellFormed = true ∧ (Instr.wrreg 9#6 0#64).wellFormed = true := by
  decide

/-! ## Decoding (R81, R82, R86): one word for each command, written out from the encoding. Reading a word from the left: 16
reserved bits, `G`, `B`, six bits of `W`, eight bits of `OP` -/

theorem test_decode_reset : decode 0b00000000000000000000000000000001#32 5#64 = .ok .reset := by decide
theorem test_decode_rdreg : decode 0b00000000000000000000010000000010#32 5#64 = .ok (.rdreg 4#6) := by decide
theorem test_decode_wrreg : decode 0b00000000000000000000000100000011#32 7#64 = .ok (.wrreg 1#6 7#64) := by decide
theorem test_decode_setbit : decode 0b00000000000000000100000000010000#32 9#64 = .ok (.setbit .b1 9#64) := by decide
theorem test_decode_getbit : decode 0b00000000000000000000000000010001#32 9#64 = .ok (.getbit .b0 9#64) := by decide
theorem test_decode_append : decode 0b00000000000000000111111100010010#32 1#64 = .ok (.append .b1 63#6 1#64) := by decide
theorem test_decode_readf : decode 0b00000000000000000000001000010011#32 63#64 = .ok (.readf .b0 2#6 63#64) := by decide
theorem test_decode_bbclr : decode 0b00000000000000000100000000010100#32 5#64 = .ok (.bbclr .b1) := by decide
theorem test_decode_extract : decode 0b00000000000000001000000000100000#32 8#64 = .ok (.extract .b0 .g1 8#64) := by decide
theorem test_decode_gaprd : decode 0b00000000000000001000000000100001#32 3#64 = .ok (.gaprd .g1 3#64) := by decide
theorem test_decode_gapwr :
    decode 0b00000000000000000000000000100010#32 0x00000003000001F4#64 = .ok (.gapwr .g0 3#32 500#32) := by decide
theorem test_decode_optFw : decode 0b00000000000000001000000000110000#32 5#64 = .ok (.optFw .g1) := by decide
theorem test_decode_optRg : decode 0b00000000000000000000000000110001#32 5#64 = .ok (.optRg .g0) := by decide
theorem test_decode_encFw : decode 0b00000000000000000100001001000000#32 5#64 = .ok (.encFw .b1 .g0 2#6) := by decide
theorem test_decode_decFw : decode 0b00000000000000001100001001000001#32 4#64 = .ok (.decFw .b1 .g1 2#6 4#64) := by decide
theorem test_decode_encRg : decode 0b00000000000000000111111101010000#32 5#64 = .ok (.encRg .b1 .g0 63#6) := by decide
theorem test_decode_decRg : decode 0b00000000000000001000000001010001#32 4#64 = .ok (.decRg .b0 .g1 0#6 4#64) := by decide

/-- Illegal words, each with its reason (V-ILL-18, 1, 4, 5, 10, 6). -/
theorem test_decode_rejects_by_name :
    decode 0x00014240#32 0#64 = .error .reservedBits ∧ decode 0x00000000#32 0#64 = .error .unknownOpcode ∧
    decode 0x00000101#32 0#64 = .error .unusedW ∧ decode 0x00004001#32 0#64 = .error .unusedB ∧
    decode 0x00008010#32 0#64 = .error .unusedG ∧ decode 0x00000A02#32 0#64 = .error .registerNumber := by decide

theorem test_encode_words :
    encode (.append .b1 63#6 1#64) = (0x00007F12#32, 1#64) ∧
    encode (.gapwr .g1 4095#32 0xFFFFFFFF#32) = (0x00008022#32, 0x00000FFFFFFFFFFF#64) := by decide

/-! ## Commands: at most two tests for each, one step on a small state -/

/-- V-SYS-14. -/
theorem test_reset_registers :
    look (exec .reset (sample 5#64 0#64 60 [1, 2])) (fun s => (s.regs, wordOf .b0 0 s)) = some (Regs.zero, 5) := by decide +kernel

theorem test_rdreg_len0 : answer (exec (.rdreg 3#6) (sample 0#64 0#64 60 [])) = some (0, 60) := by decide
theorem test_rdreg_leaves_fault : look (exec (.rdreg 0#6) { fresh with regs := { fresh.regs with fault := 0x302#64 } })
    (fun s => (s.responses.head?.map fun r => r.ret, s.regs.fault)) = some (some 0x302#64, 0x302#64) := by decide

/-- V-SYS-8 and V-SYS-9: `CAPW` may not fall below `LEN`. -/
theorem test_wrreg_capacity_against_length :
    answer (exec (.wrreg 1#6 1#64) (sample 0#64 0#64 65 [])) = some (2, 0) ∧
    answer (exec (.wrreg 1#6 2#64) (sample 0#64 0#64 65 [])) = some (0, 0) := by decide
/-- V-SYS-1. -/
theorem test_wrreg_fault_is_readonly :
    look (exec (.wrreg 0#6 1#64) State.reset) (fun s => s.regs.fault) = some 0x0302#64 := by decide

/-- V-BB-8: position 64 is bit 0 of word 1. -/
theorem test_setbit_64 :
    look (exec (.setbit .b0 64#64) (sample 0#64 0#64 0 [])) (fun s => (wordOf .b0 0 s, wordOf .b0 1 s, s.regs.len0)) =
      some (0, 1, 0#64) := by decide +kernel
/-- V-BB-10, V-BB-11: `pos + 1` does not wrap. -/
theorem test_setbit_outside :
    answer (exec (.setbit .b0 128#64) (sample 0#64 0#64 0 [])) = some (3, 0) ∧
    look (exec (.setbit .b0 0xFFFFFFFFFFFFFFFF#64) (sample 0#64 0#64 0 [])) (fun s => s.regs.fault) = some 0x1003#64 := by decide

/-- V-BB-4, V-BB-5. -/
theorem test_getbit :
    answer (exec (.getbit .b0 0#64) (sample 0xDEADBEEFDEADBEEF#64 0#64 0 [])) = some (0, 1) ∧
    answer (exec (.getbit .b0 4#64) (sample 0xDEADBEEFDEADBEEF#64 0#64 0 [])) = some (0, 0) := by decide

/-- V-APP-18: a field across the word boundary. -/
theorem test_append_straddles :
    look (exec (.append .b0 8#6 0xAB#64) (sample 0#64 0#64 60 [])) (fun s => (wordOf .b0 0 s, wordOf .b0 1 s, s.regs.len0)) =
      some (0xB000000000000000, 0xA, 68#64) := by decide +kernel
/-- V-APP-1 (overwrite, not OR) and V-APP-6. -/
theorem test_append_overwrites :
    look (exec (.append .b0 3#6 5#64) (sample 0xFFFFFFFFFFFFFFFF#64 0#64 0 [])) (fun s => wordOf .b0 0 s) =
      some 0xFFFFFFFFFFFFFFFD ∧
    answer (exec (.append .b0 3#6 8#64) (sample 0#64 0#64 3 [])) = some (2, 0) := by decide +kernel

/-- V-BB-18, V-BB-20. -/
theorem test_readf :
    answer (exec (.readf .b0 63#6 65#64) (sample 0x8000000000000000#64 0x8000000000000001#64 0 [])) =
      some (0, 0x4000000000000000) ∧
    answer (exec (.readf .b0 0#6 128#64) (sample 0#64 0#64 0 [])) = some (0, 0) := by decide
/-- V-BB-19, V-BB-21. -/
theorem test_readf_outside :
    answer (exec (.readf .b0 63#6 66#64) (sample 0#64 0#64 0 [])) = some (3, 0) ∧
    answer (exec (.readf .b0 0#6 129#64) (sample 0#64 0#64 0 [])) = some (3, 0) := by decide

/-- V-BB-6: words below the capacity only. -/
theorem test_bbclr :
    look (exec (.bbclr .b0) { sample 5#64 6#64 9 [] with regs := { Regs.zero with capw0 := 1#64, len0 := 9#64 } })
      (fun s => (wordOf .b0 0 s, wordOf .b0 1 s, s.regs.len0)) = some (0, 6, 0#64) := by decide +kernel

/-- V-GAP-6: the source's scenario S1. -/
theorem test_extract_scenario :
    look (exec (.extract .b0 .g1 8#64) (sample 0x4A#64 0#64 0 [])) (fun s => (entries .g1 4 s, s.regs.glen1)) =
      some ([1, 1, 2, 1], 4#64) := by decide
/-- As V-GAP-21: one gap too many for the gap memory. -/
theorem test_extract_overflow :
    look (exec (.extract .b0 .g1 4#64) (sample 0xF#64 0#64 0 [])) (fun s => (entries .g1 4 s, s.regs.glen1, s.regs.fault)) =
      some ([0, 0, 0, 0], 4#64, 0x2005#64) := by decide

/-- As V-GAP-13. -/
theorem test_gaprd :
    answer (exec (.gaprd .g0 3#64) (sample 0#64 0#64 0 [7, 8, 9, 56])) = some (0, 56) ∧
    answer (exec (.gaprd .g0 4#64) (sample 0#64 0#64 0 [7, 8, 9, 56])) = some (5, 0) := by decide

/-- V-GAP-15, V-GAP-17. -/
theorem test_gapwr :
    look (exec (.gapwr .g1 4095#32 0xFFFFFFFF#32) State.reset) (fun s => (s.gapRead .g1 4095, s.regs.glen1)) =
      some (4294967295#32, 0#64) ∧
    answer (exec (.gapwr .g1 4096#32 1#32) State.reset) = some (5, 0) := by decide

/-- V-OPT-5: the smallest of two cheapest widths. -/
theorem test_optFw :
    look (exec (.optFw .g0) (sample 0#64 0#64 0 [31, 3, 1, 7])) (fun s => (s.regs.optW, s.regs.optBits, s.regs.optWords)) =
      some (4#64, 24#64, 6#64) := by decide +kernel
/-- V-OPT-2: the empty sequence. -/
theorem test_optFw_empty :
    look (exec (.optFw .g0) (sample 0#64 0#64 0 [])) (fun s => (s.regs.optW, s.regs.optBits, s.regs.optWords)) =
      some (1#64, 0#64, 0#64) := by decide +kernel
/-- V-OPT-5, V-OPT-8. -/
theorem test_optRg :
    look (exec (.optRg .g0) (sample 0#64 0#64 0 [31, 3, 1, 7])) (fun s => (s.regs.optW, s.regs.optBits, s.regs.optWords)) =
      some (3#64, 19#64, 11#64) := by decide +kernel
theorem test_optRg_largest :
    look (exec (.optRg .g0) (sample 0#64 0#64 0 [4294967295])) (fun s => (s.regs.optW, s.regs.optBits, s.regs.optWords)) =
      some (29#64, 37#64, 9#64) := by decide +kernel

/-- V-FW-9: gaps equal to the sentinel and to twice the sentinel. -/
theorem test_encFw :
    look (exec (.encFw .b1 .g0 2#6) (sample 0#64 0#64 0 [0, 3, 6, 2])) (fun s => (wordOf .b1 0 s, s.regs.len1)) =
      some (0x23CC, 14#64) := by decide +kernel
/-- V-FW-16: the abort at the capacity. -/
theorem test_encFw_aborts :
    look (exec (.encFw .b1 .g0 20#6) (sample 0#64 0#64 0 [5, 6, 7, 8])) (fun s => (wordOf .b1 0 s, s.regs.len1, s.regs.fault)) =
      some (0x70000600005, 60#64, 0x4003#64) := by decide +kernel
/-- V-FW-9, decoded. -/
theorem test_decFw :
    look (exec (.decFw .b0 .g1 2#6 4#64) (sample 0x23CC#64 0#64 14 []))
      (fun s => (entries .g1 4 s, s.regs.glen1, s.responses.head?.map fun r => r.ret)) =
      some ([0, 3, 6, 2], 4#64, some 14#64) := by decide +kernel
/-- V-FW-25: the stream ends in a sentinel. -/
theorem test_decFw_ends_in_sentinel :
    look (exec (.decFw .b0 .g1 2#6 1#64) (sample 0xF#64 0#64 4 [])) (fun s => (s.regs.glen1, s.regs.fault)) =
      some (0#64, 0x4104#64) := by decide +kernel

/-- V-RG-1: the source's scenario S2. -/
theorem test_encRg :
    look (exec (.encRg .b1 .g0 1#6) (sample 0#64 0#64 0 [1, 1, 2, 1])) (fun s => (wordOf .b1 0 s, s.regs.len1)) =
      some (0x11A, 9#64) := by decide +kernel
/-- V-RG-14: the abort inside a run of ones. -/
theorem test_encRg_aborts :
    look (exec (.encRg .b1 .g0 0#6) (sample 0#64 0#64 0 [2, 70])) (fun s => (wordOf .b1 0 s, s.regs.len1, s.regs.fault)) =
      some (0xFFFFFFFFFFFFFFFB, 64#64, 0x5003#64) := by decide +kernel
/-- V-RG-26: the largest gap value. -/
theorem test_decRg :
    look (exec (.decRg .b0 .g1 31#6 1#64) (sample 0x1FFFFFFFD#64 0#64 33 []))
      (fun s => (entries .g1 1 s, s.responses.head?.map fun r => r.ret)) = some ([4294967295], some 33#64) := by decide +kernel
/-- V-RG-25: the value `2^32` does not fit. -/
theorem test_decRg_too_large :
    look (exec (.decRg .b0 .g1 31#6 1#64) (sample 3#64 0#64 34 [])) (fun s => (s.regs.glen1, s.regs.fault)) =
      some (0#64, 0x5104#64) := by decide +kernel

/-- B.8: FAULT keeps the first error; an illegal word records its `cw[7:0]` (V-ILL-6). -/
theorem test_fault_is_sticky :
    look (exec (.gaprd .g0 0x10000000000#64) { fresh with regs := { fresh.regs with fault := 0x1203#64 } }) (fun s => s.regs.fault) =
      some 0x1203#64 ∧
    look (step { State.reset with pending := [.command 0x00000A02#32 0#64] }) (fun s => s.regs.fault) = some 0x0201#64 := by decide

/-! ## The host's interface: the table's words, decoded and run as the first command after reset -/

theorem test_decodeTableWord :
    decodeTableWord 32 0x00000312 = some (.append .b0 3#6 0#64) ∧ decodeTableWord 96 (0x312 + 5 * 2 ^ 32) =
      some (.append .b0 3#6 5#64) ∧ decodeTableWord 32 0x0A02 = none := by decide
theorem test_withFetchWord_runs :
    look (step (State.reset.withFetchWord 32 0x00000014)) (fun s => s.responses) = some [{ status := 0#8, ret := 0#64 }] := by
  decide

/-! ## Witnesses: states and operands that meet the hypotheses of the obligations, each clause at its boundary -/

/-- One counted gap sequence, a full buffer 0 and a short buffer 1. -/
def one : State := sample 0x4A#64 0#64 128 [1, 1, 2, 1]

theorem one_inv : one.Inv := by decide +kernel

theorem witness_DecodeOfEncode :
    (Instr.wrreg 9#6 0xFFFFFFFFFFFFFFFF#64).wellFormed = true ∧ (Instr.decRg .b1 .g1 63#6 0#64).wellFormed = true := by decide

theorem witness_DecodeDeterminesWord : decode 0x00000902#32 0#64 = .ok (.rdreg 9#6) := by decide

theorem witness_IgnoredOperand : ∀ cw ∈ ([0x01, 0x3F02, 0x4014, 0x8030, 0x8031, 0xFF40, 0xFF50] : List Nat),
    (BitVec.ofNat 32 cw).toNat % 256 ∈ [0x01, 0x02, 0x14, 0x30, 0x31, 0x40, 0x50] := by decide

theorem witness_StepRunsDecodedCommand :
    State.pending { one with pending := [.command 0x10#32 127#64] } = .command 0x10#32 127#64 :: [] ∧
    decode 0x10#32 127#64 = .ok (.setbit .b0 127#64) := by decide

theorem witness_StepIllegalWord :
    State.pending { one with pending := [.command 0x0A02#32 0#64] } = .command 0x0A02#32 0#64 :: [] ∧
    ∀ cw ∈ ([0x0A02, 0x00000000, 0x00008012, 0x80000001] : List Nat), ∀ row ∈ commandTable,
      ¬ (cw &&& row.1 = row.2.1 ∧ (row.2.2 = true → cw / 256 % 64 < 10)) := by decide +kernel

theorem witness_StepIdleWaits : State.reset.pending = [] := rfl

theorem witness_StepHardwareReset : State.pending { one with pending := [.hardwareReset] } = .hardwareReset :: [] := rfl

theorem witness_StepAnswersEveryCommand :
    State.pending { one with pending := [.hardwareReset, .command 0#32 0#64] } = .hardwareReset :: [.command 0#32 0#64] ∧
    State.pending { one with pending := [.command 0#32 0#64] } = .command 0#32 0#64 :: [] ∧
    HostEvent.command 0#32 0#64 ≠ .hardwareReset := by decide

theorem witness_PowerOnInvariant : Config.suggested.legal ∧ Config.Params.legal { bbWords := 1, gapEntries := 1 } ∧
    Config.Params.legal { bbWords := 2 ^ 26 - 1, gapEntries := 2 ^ 24 } := by decide

theorem witness_StepKeepsInvariant : State.Inv { one with pending := [.command 0x4250#32 0#64] } ∧
    ∃ t, step { one with pending := [.command 0x4250#32 0#64] } = .next t := ⟨by decide +kernel, _, rfl⟩

theorem witness_ReachableStatesKeepInvariant : Config.Params.legal { bbWords := 1, gapEntries := 1 } ∧
    ∃ t, Host.Core.run Sys2Proof.core 1
      { State.powerOn { bbWords := 1, gapEntries := 1 } with pending := [.command 0x103#32 1#64] } = .next t ∧
      t.regs.capw0 = 1#64 := ⟨by decide, _, rfl, by decide⟩

/-- RESET, a command answered `OK`, an error, an illegal word. -/
theorem witness_FaultRecordsFirstError :
    look (step { one with pending := [.command 0x01#32 0#64] }) (fun t => t.regs.fault) = some 0#64 ∧
    look (step { one with pending := [.command 0x11#32 127#64] }) (fun t => t.regs.fault) = some 0#64 ∧
    look (step { one with pending := [.command 0x11#32 128#64] }) (fun t => t.regs.fault) = some 0x1103#64 ∧
    look (step { one with pending := [.command 0x00#32 0#64] }) (fun t => t.regs.fault) = some 0x0001#64 := by decide +kernel

theorem witness_FaultZeroMeansAllOk :
    (∀ ev ∈ [HostEvent.command 0x14#32 0#64, .command 0x31#32 0#64], isReset ev = false) ∧
    ∃ t, Host.Core.run Sys2Proof.core 2 { one with pending := [.command 0x14#32 0#64, .command 0x31#32 0#64] } = .next t ∧
      t.noFault := ⟨by decide, _, rfl, by decide +kernel⟩

theorem witness_StatusesAsTabled :
    (Instr.rdreg 9#6).wellFormed = true ∧ ∃ t, exec (.rdreg 9#6) one = .next t := ⟨by decide, _, rfl⟩

theorem witness_ResetClearsRegisters : Instr.bbclr .b0 ≠ .reset ∧
    (Regs.fault { one.regs with fault := 0x1203#64 }).toNat % 256 ≠ 0 ∧
    ∃ u, exec (.bbclr .b0) { one with regs := { one.regs with fault := 0x1203#64 } } = .next u := ⟨by decide, by decide, _, rfl⟩

theorem witness_RdregReturnsRegister :
    [one.regs.fault, one.regs.capw0, one.regs.capw1, one.regs.len0, one.regs.len1, one.regs.glen0, one.regs.glen1,
      one.regs.optW, one.regs.optBits, one.regs.optWords][(9#6).toNat]? = some 0#64 ∧ 10 ≤ (10#6).toNat := by decide

/-- `CAPW` at the buffer's size and at the length, `LEN` at the capacity, `GLEN` at the memory's size. -/
theorem witness_WrregWritesLegalValue :
    ((3#64).toNat ≤ one.params.bbWords ∧ (one.len .b0).toNat ≤ 64 * (3#64).toNat) ∧
    (one.len .b0).toNat = 64 * (2#64).toNat ∧ (64#64).toNat = 64 * (one.capw .b1).toNat ∧
    (4#64).toNat = one.params.gapEntries := by decide

/-- One past each of these. -/
theorem witness_WrregRefusesIllegalValue :
    (7#6).toNat ∈ [0, 7, 8, 9] ∧ (0#6).toNat ∈ [0, 7, 8, 9] ∧ one.params.bbWords < (4#64).toNat ∧
    64 * (1#64).toNat < (one.len .b0).toNat ∧ 64 * (one.capw .b1).toNat < (65#64).toNat ∧
    one.params.gapEntries < (5#64).toNat := by decide

theorem witness_SetbitSetsOneBit : (127#64).toNat < one.capBits .b0 ∧ one.capBits .b0 ≤ (128#64).toNat := by decide
theorem witness_GetbitReturnsBit : (63#64).toNat < one.capBits .b1 ∧ one.capBits .b1 ≤ (64#64).toNat := by decide

/-- The field that just fits, the value that just does not fit the width, the field that just does not fit the capacity. -/
theorem witness_AppendWritesField :
    one.Inv ∧ (1#64).toNat < 2 ^ (63#6).toNat ∧ (one.len .b1).toNat + (63#6).toNat ≤ one.capBits .b1 ∧
    2 ^ (3#6).toNat ≤ (8#64).toNat ∧ 2 ^ (0#6).toNat ≤ (1#64).toNat ∧
    (1#64).toNat < 2 ^ (1#6).toNat ∧ one.capBits .b0 < (one.len .b0).toNat + (1#6).toNat := by decide +kernel

theorem witness_ReadfReturnsField :
    (65#64).toNat + (63#6).toNat ≤ one.capBits .b0 ∧ one.capBits .b0 < (66#64).toNat + (63#6).toNat ∧
    (128#64).toNat + (0#6).toNat ≤ one.capBits .b0 := by decide

theorem witness_ReadfAfterAppend :
    one.Inv ∧ (7#64).toNat < 2 ^ (3#6).toNat ∧ (one.len .b1).toNat + (3#6).toNat ≤ one.capBits .b1 := by decide +kernel

theorem witness_FieldWordForm :
    0 < 2 ^ 0 ∧ (60 % 64 + 4 ≤ 64 ∧ 15 < 2 ^ 4) ∧ (64 < 60 % 64 + 5 ∧ 31 < 2 ^ 5) ∧ (64 < 63 % 64 + 63 ∧ 63 ≤ 63) := by decide

/-- A length one past the capacity; three ones, four gaps for four entries; four ones, five gaps. -/
theorem witness_ExtractWritesGapSequence :
    one.Inv ∧ one.capBits .b0 < (129#64).toNat ∧
    ((128#64).toNat ≤ one.capBits .b0 ∧ (one.onesBelow .b0 (128#64).toNat).length + 1 = one.params.gapEntries) ∧
    (sample 0xF#64 0#64 0 []).Inv ∧ (sample 0xF#64 0#64 0 []).params.gapEntries <
      ((sample 0xF#64 0#64 0 []).onesBelow .b0 (4#64).toNat).length + 1 :=
  ⟨one_inv, by decide, by decide +kernel, by decide +kernel, by decide +kernel⟩

theorem witness_ExtractConservesLength :
    one.Inv ∧ look (exec (.extract .b0 .g1 128#64) one) (fun t => decide (answered one t 0#8 4#64)) = some true ∧
    look (exec (.extract .b0 .g1 0#64) one) (fun t => decide (answered one t 0#8 1#64)) = some true :=
  ⟨one_inv, by decide +kernel, by decide +kernel⟩

theorem witness_GaprdReturnsEntry : (3#64).toNat < one.params.gapEntries ∧ one.params.gapEntries ≤ (4#64).toNat := by decide
theorem witness_GapwrWritesEntry : (3#32).toNat < one.params.gapEntries ∧ one.params.gapEntries ≤ (4#32).toNat := by decide

/-- With a sequence, and with the empty one. -/
theorem witness_OptFwChoosesCheapestWidth : one.Inv ∧ (sample 0#64 0#64 0 []).Inv ∧
    (sample 0#64 0#64 0 []).gapSeq .g0 = [] := ⟨one_inv, by decide +kernel, by decide⟩
theorem witness_OptRgChoosesCheapestWidth : State.Inv { one with regs := { one.regs with glen1 := 4#64 } } := by decide +kernel

/-- An exact fit: 64 bits in 64 positions. -/
theorem witness_EncFwWritesStream : (sample 0#64 0#64 0 [4294967295]).Inv ∧ (32#6 : Width) ≠ 0#6 ∧
    fieldsLen (fieldsFW (32#6).toNat ((sample 0#64 0#64 0 [4294967295]).gapSeq .g0)) =
      (sample 0#64 0#64 0 [4294967295]).capBits .b1 := by decide +kernel

theorem witness_EncFwAbortsAtCapacity : (sample 0#64 0#64 0 [5, 6, 7, 8]).Inv ∧ (20#6 : Width) ≠ 0#6 ∧
    3 < (fieldsFW (20#6).toNat ((sample 0#64 0#64 0 [5, 6, 7, 8]).gapSeq .g0)).length ∧
    fieldsLen ((fieldsFW (20#6).toNat ((sample 0#64 0#64 0 [5, 6, 7, 8]).gapSeq .g0)).take 3) ≤
      (sample 0#64 0#64 0 [5, 6, 7, 8]).capBits .b1 ∧
    (sample 0#64 0#64 0 [5, 6, 7, 8]).capBits .b1 <
      fieldsLen ((fieldsFW (20#6).toNat ((sample 0#64 0#64 0 [5, 6, 7, 8]).gapSeq .g0)).take (3 + 1)) := by decide +kernel

theorem witness_EncRgWritesStream : (sample 0#64 0#64 0 [4294967295]).Inv ∧
    fieldsLen (fieldsRG (63#6).toNat ((sample 0#64 0#64 0 [4294967295]).gapSeq .g0)) =
      (sample 0#64 0#64 0 [4294967295]).capBits .b1 := by decide +kernel

/-- The abort between a terminator and its remainder (V-RG-17), and inside a run of ones (V-RG-14). -/
theorem witness_EncRgAbortsAtCapacity : (sample 0#64 0#64 0 [1, 1]).Inv ∧
    3 < (fieldsRG (62#6).toNat ((sample 0#64 0#64 0 [1, 1]).gapSeq .g0)).length ∧
    fieldsLen ((fieldsRG (62#6).toNat ((sample 0#64 0#64 0 [1, 1]).gapSeq .g0)).take 3) = 64 ∧
    64 < fieldsLen ((fieldsRG (62#6).toNat ((sample 0#64 0#64 0 [1, 1]).gapSeq .g0)).take (3 + 1)) ∧
    fieldsLen ((fieldsRG (0#6).toNat ((sample 0#64 0#64 0 [2, 70]).gapSeq .g0)).take 65) = 64 ∧
    64 < fieldsLen ((fieldsRG (0#6).toNat ((sample 0#64 0#64 0 [2, 70]).gapSeq .g0)).take (65 + 1)) ∧
    (sample 0#64 0#64 0 [1, 1]).capBits .b1 = 64 := by decide +kernel

theorem witness_DecodeCountRefused : one.params.gapEntries < (5#64).toNat ∧ (1#6 : Width) ≠ 0#6 := by decide

/-- Four gaps for four entries, the stream up to the declared length. -/
theorem witness_DecFwReadsStream : (sample 0x23CC#64 0#64 14 []).Inv ∧ (2#6 : Width) ≠ 0#6 ∧
    (∀ x ∈ [0, 3, 6, 2], x < 2 ^ 32) ∧ [0, 3, 6, 2].length ≤ (sample 0x23CC#64 0#64 14 []).params.gapEntries ∧
    fieldsLen (fieldsFW (2#6).toNat [0, 3, 6, 2]) = ((sample 0x23CC#64 0#64 14 []).len .b0).toNat ∧
    holdsStream (sample 0x23CC#64 0#64 14 []) .b0 (streamOf (fieldsFW (2#6).toNat [0, 3, 6, 2])) :=
  ⟨by decide +kernel, by decide, by decide, by decide, by decide +kernel, holdsStream_of_lt (by decide +kernel)⟩

theorem witness_DecRgReadsStream : (sample 0x11A#64 0#64 9 []).Inv ∧ (∀ x ∈ [1, 1, 2, 1], x < 2 ^ 32) ∧
    [1, 1, 2, 1].length ≤ (sample 0x11A#64 0#64 9 []).params.gapEntries ∧
    fieldsLen (fieldsRG (1#6).toNat [1, 1, 2, 1]) = ((sample 0x11A#64 0#64 9 []).len .b0).toNat ∧
    holdsStream (sample 0x11A#64 0#64 9 []) .b0 (streamOf (fieldsRG (1#6).toNat [1, 1, 2, 1])) :=
  ⟨by decide +kernel, by decide, by decide, by decide +kernel, holdsStream_of_lt (by decide +kernel)⟩

/-- A word past the length, after two sentinels (V-FW-25). -/
theorem witness_DecFwRejectsStream_length : (sample 0xF#64 0#64 4 []).Inv ∧ (2#6 : Width) ≠ 0#6 ∧
    ([] : List Nat).length < (1#64).toNat ∧ (1#64).toNat ≤ (sample 0xF#64 0#64 4 []).params.gapEntries ∧
    2 * (2 ^ (2#6).toNat - 1) < 2 ^ 32 ∧
    fieldsLen (fieldsFW (2#6).toNat []) + 2 * (2#6).toNat ≤ ((sample 0xF#64 0#64 4 []).len .b0).toNat ∧
    holdsStream (sample 0xF#64 0#64 4 []) .b0
      (streamOf (fieldsFW (2#6).toNat [] ++ List.replicate 2 ((2#6).toNat, 2 ^ (2#6).toNat - 1))) ∧
    ((sample 0xF#64 0#64 4 []).len .b0).toNat < fieldsLen (fieldsFW (2#6).toNat []) + 2 * (2#6).toNat + (2#6).toNat :=
  ⟨by decide +kernel, by decide, by decide, by decide, by decide, by decide, holdsStream_of_lt (by decide +kernel), by decide⟩

/-- A total of `2^32` exactly (V-FW-26). -/
theorem witness_DecFwRejectsStream_value : (sample 0x1FFFFFFFF#64 0#64 64 []).Inv ∧
    1 * (2 ^ (32#6).toNat - 1) < 2 ^ 32 ∧
    fieldsLen (fieldsFW (32#6).toNat []) + 1 * (32#6).toNat ≤ ((sample 0x1FFFFFFFF#64 0#64 64 []).len .b0).toNat ∧
    holdsStream (sample 0x1FFFFFFFF#64 0#64 64 []) .b0
      (streamOf (fieldsFW (32#6).toNat [] ++ List.replicate 1 ((32#6).toNat, 2 ^ (32#6).toNat - 1))) ∧
    2 ^ 32 = 1 * (2 ^ (32#6).toNat - 1) +
      (sample 0x1FFFFFFFF#64 0#64 64 []).getField .b0 (fieldsLen (fieldsFW (32#6).toNat []) + 1 * (32#6).toNat) (32#6).toNat :=
  ⟨by decide +kernel, by decide, by decide +kernel, holdsStream_of_lt (by decide +kernel), by decide +kernel⟩

/-- A run of ones up to the length (V-RG-27). -/
theorem witness_DecRgRejectsStream_unary : (sample 0x1F#64 0#64 5 []).Inv ∧ ([] : List Nat).length < (1#64).toNat ∧
    (1#64).toNat ≤ (sample 0x1F#64 0#64 5 []).params.gapEntries ∧
    holdsStream (sample 0x1F#64 0#64 5 []) .b0 (streamOf (fieldsRG (0#6).toNat [] ++ List.replicate 5 (1, 1))) ∧
    ((sample 0x1F#64 0#64 5 []).len .b0).toNat = fieldsLen (fieldsRG (0#6).toNat []) + 5 :=
  ⟨by decide +kernel, by decide, by decide, holdsStream_of_lt (by decide +kernel), by decide⟩

/-- A remainder one bit past the length. -/
theorem witness_DecRgRejectsStream_remainder : (sample 0#64 0#64 1 []).Inv ∧
    holdsStream (sample 0#64 0#64 1 []) .b0 (streamOf (fieldsRG (1#6).toNat [] ++ List.replicate 0 (1, 1))) ∧
    fieldsLen (fieldsRG (1#6).toNat []) + 0 ≤ ((sample 0#64 0#64 1 []).len .b0).toNat ∧
    (sample 0#64 0#64 1 []).bit .b0 (fieldsLen (fieldsRG (1#6).toNat []) + 0) = false ∧
    ((sample 0#64 0#64 1 []).len .b0).toNat < fieldsLen (fieldsRG (1#6).toNat []) + 0 + 1 + (1#6).toNat :=
  ⟨by decide +kernel, holdsStream_of_lt (by decide), by decide, by decide +kernel, by decide⟩

/-- A value of `2^32` exactly (V-RG-25). -/
theorem witness_DecRgRejectsStream_value : (sample 3#64 0#64 34 []).Inv ∧
    holdsStream (sample 3#64 0#64 34 []) .b0 (streamOf (fieldsRG (31#6).toNat [] ++ List.replicate 2 (1, 1))) ∧
    (sample 3#64 0#64 34 []).bit .b0 (fieldsLen (fieldsRG (31#6).toNat []) + 2) = false ∧
    2 ^ 32 = 2 * 2 ^ (31#6).toNat +
      (sample 3#64 0#64 34 []).getField .b0 (fieldsLen (fieldsRG (31#6).toNat []) + 2 + 1) (31#6).toNat :=
  ⟨by decide +kernel, holdsStream_of_lt (by decide +kernel), by decide +kernel, by decide +kernel⟩

/-- Exact fits again: the encodes are answered `OK` with 64. -/
theorem witness_FixedWidthRoundTrip : (sample 0#64 0#64 0 [4294967295]).Inv ∧ (32#6 : Width) ≠ 0#6 ∧
    look (exec (.encFw .b1 .g0 32#6) (sample 0#64 0#64 0 [4294967295]))
      (fun t => decide (answered (sample 0#64 0#64 0 [4294967295]) t 0#8 64#64)) = some true := by decide +kernel
theorem witness_RiceGolombRoundTrip : (sample 0#64 0#64 0 [4294967295]).Inv ∧
    look (exec (.encRg .b1 .g0 63#6) (sample 0#64 0#64 0 [4294967295]))
      (fun t => decide (answered (sample 0#64 0#64 0 [4294967295]) t 0#8 64#64)) = some true := by decide +kernel

theorem witness_CostsDoNotOverflow : (∀ g ∈ [4294967295], g < 2 ^ 32) ∧ [4294967295].length ≤ 2 ^ 24 ∧ 63 ≤ 63 := by decide

/-- A sequence whose best streams fit both buffers. -/
theorem witness_OptimizerPredictsEncoder : one.Inv ∧
    look (exec (.optFw .g0) one) (fun t => decide (t.regs.optBits.toNat ≤ one.capBits .b1)) = some true ∧
    look (exec (.optRg .g0) one) (fun t => decide (t.regs.optBits.toNat ≤ one.capBits .b1)) = some true := by decide +kernel

/-- An aborted encode, with the first position and the first entry outside. -/
theorem witness_CapacityWindowRespected : (∃ t, exec (.encRg .b1 .g0 63#6) one = .next t) ∧ one.capBits .b1 ≤ 64 ∧
    one.params.gapEntries ≤ 4 := ⟨⟨_, rfl⟩, by decide, by decide⟩

theorem witness_BufferWritersAsTabled : (∃ t, exec (.encFw .b1 .g0 1#6) one = .next t) ∧
    writesBuffer .b0 (.encFw .b1 .g0 1#6) = false := ⟨⟨_, rfl⟩, by decide⟩
theorem witness_GapWritersAsTabled : (∃ t, exec (.extract .b0 .g1 8#64) one = .next t) ∧
    writesGaps .g0 (.extract .b0 .g1 8#64) = false := ⟨⟨_, rfl⟩, by decide⟩
theorem witness_RegisterWritersAsTabled : (∃ t, exec (.wrreg 3#6 64#64) one = .next t) ∧
    ¬ writesCapw .b0 (.wrreg 3#6 64#64) ∧ ¬ writesLen .b1 (.wrreg 3#6 64#64) ∧ ¬ writesGlen .g0 (.wrreg 3#6 64#64) ∧
    ¬ writesOpt (.wrreg 3#6 64#64) :=
  ⟨⟨_, rfl⟩, by simp [writesCapw, capwNumber], by simp [writesLen, lenNumber], by simp [writesGlen, glenNumber],
    by simp [writesOpt]⟩

/-- The first bit at the length differs. -/
theorem witness_DecodersReadBelowLength : (∀ p, p < ((sample 0xF#64 0#64 4 []).len .b0).toNat →
      ((sample 0xF#64 0#64 4 []).setBuf .b0 [(0, full 0x1F#64)]).bit .b0 p = (sample 0xF#64 0#64 4 []).bit .b0 p) ∧
    ((sample 0xF#64 0#64 4 []).setBuf .b0 [(0, full 0x1F#64)]).bit .b0 4 ≠ (sample 0xF#64 0#64 4 []).bit .b0 4 := by
  decide +kernel

end Tests
end Machine
end Sys2Proof
end

/-! ## The family of spec/00_scope.md: every event is served in one step, every command with one answer -/

namespace Sys2Proof
namespace Machine

/-! ### What a command's procedure leaves to the port -/

/-- From `s` to `t` neither the parameters, the draw and the host's events nor the answers given so far changed: only registers
and memories may have. -/
structure KeepsPort (s t : State) : Prop where
  host : sameHost s t
  responses : t.responses = s.responses

theorem KeepsPort.refl (s : State) : KeepsPort s s := ⟨⟨rfl, rfl, rfl⟩, rfl⟩
theorem KeepsPort.of_regs_mem (s : State) (r : Regs) (m : Memory) : KeepsPort s { s with regs := r, mem := m } :=
  ⟨⟨rfl, rfl, rfl⟩, rfl⟩

theorem TouchesBuffer.keepsPort {b : BufId} {s t : State} (h : TouchesBuffer b s t) : KeepsPort s t :=
  ⟨⟨h.params, h.epoch, h.pending⟩, h.responses⟩
theorem TouchesGaps.keepsPort {g : GapId} {s t : State} (h : TouchesGaps g s t) : KeepsPort s t :=
  ⟨⟨h.params, h.epoch, h.pending⟩, h.responses⟩

/-- A register write is one of registers only (R232). -/
theorem State.writeReg_keepsPort (s : State) (r : Reg) (v : Word) : KeepsPort s (s.writeReg r v) := by
  obtain ⟨-, hparams, hepoch, hpending, hresponses, -⟩ := s.writeReg_frame r v
  exact ⟨⟨hparams, hepoch, hpending⟩, hresponses⟩

/-- A procedure that runs only if its operands pass a test, and raises with nothing written if they do not. -/
theorem KeepsPort.of_guard {c : Prop} [Decidable c] {s : State} {r : Ended Nat} (e : Error) (h : KeepsPort s r.state) :
    KeepsPort s (if c then r else .raised e s).state := by
  split
  · exact h
  · exact .refl s

/-- The same with the test that refuses an operand written first. -/
theorem KeepsPort.of_refusal {c : Prop} [Decidable c] {s : State} {r : Ended Nat} (e : Error) (h : KeepsPort s r.state) :
    KeepsPort s (if c then .raised e s else r).state := by
  split
  · exact .refl s
  · exact h

/-- Every command is a procedure that leaves the port alone, and then its one answer (R11). -/
theorem exec_concludes_keepsPort (i : Instr) (s : State) :
    ∃ r, exec i s = conclude i.opcode r ∧ KeepsPort s r.state := by
  cases i with
  | reset => exact ⟨.returned _ _, rfl, .of_regs_mem s _ _⟩
  | rdreg r =>
    refine ⟨_, rfl, ?_⟩
    split <;> exact .refl s
  | wrreg r value =>
    refine ⟨_, rfl, ?_⟩
    split
    · exact .refl s
    · exact .of_guard _ (s.writeReg_keepsPort _ value)
  | setbit b pos => exact ⟨_, rfl, .of_guard _ (.of_regs_mem s _ _)⟩
  | getbit b pos => exact ⟨_, rfl, .of_guard _ (.refl s)⟩
  | append b w value => exact ⟨_, rfl, .of_guard _ (s.append_touches b _ _).keepsPort⟩
  | readf b w offset => exact ⟨_, rfl, .of_guard _ (.refl s)⟩
  | bbclr b => exact ⟨.returned _ _, rfl, .of_regs_mem s _ _⟩
  | extract b g n => exact ⟨_, rfl, .of_guard _ (extractScan_touches s b g _ _ _ _ s).keepsPort⟩
  | gaprd g index => exact ⟨_, rfl, .of_guard _ (.refl s)⟩
  | gapwr g index value => exact ⟨_, rfl, .of_guard _ (s.gapWrite_touches g _ value).keepsPort⟩
  | optFw g => exact ⟨.returned _ _, rfl, .of_regs_mem s _ _⟩
  | optRg g => exact ⟨.returned _ _, rfl, .of_regs_mem s _ _⟩
  | encFw b g w =>
    exact ⟨_, rfl, .of_refusal _ (encodeInto_touches (fun x => encodeGapFW_touches b _ (x + 1) x) _ s).keepsPort⟩
  | decFw b g w count => exact ⟨_, rfl, .of_refusal _ (decodeInto_touches _ g _ s).keepsPort⟩
  | encRg b g w => exact ⟨_, rfl, (encodeInto_touches (encodeGapRG_touches b _) _ s).keepsPort⟩
  | decRg b g w count => exact ⟨_, rfl, (decodeInto_touches _ g _ s).keepsPort⟩

/-! ### The one answer (R11, R251) -/

/-- `t` comes after `s` by a command that was given one answer, of the form R11 and R251 ask for. -/
def AnswersOnce (s t : State) : Prop := sameHost s t ∧ ∃ r, t.responses = r :: s.responses ∧ responseOk r

theorem responseOk_ok (ret : Word) : responseOk { status := statusOk, ret := ret } :=
  ⟨Nat.zero_le 5, fun h => absurd rfl h⟩
theorem responseOk_error (e : Error) : responseOk { status := errorCode e, ret := 0#64 } := ⟨errorCode_known e, fun _ => rfl⟩

/-- A procedure that leaves the port alone is concluded by exactly one answer, whichever way it ends. -/
theorem conclude_answersOnce (op : Byte) {r : Ended Nat} {s : State} (h : KeepsPort s r.state) :
    ∃ t, conclude op r = .next t ∧ AnswersOnce s t := by
  obtain ⟨hhost, hresponses⟩ := h
  cases r with
  | returned n u => exact ⟨_, rfl, hhost, _, congrArg _ hresponses, responseOk_ok _⟩
  | raised e u => exact ⟨_, rfl, hhost, _, congrArg _ hresponses, responseOk_error e⟩

theorem exec_answersOnce (i : Instr) (s : State) : ∃ t, exec i s = .next t ∧ AnswersOnce s t := by
  obtain ⟨r, hexec, hr⟩ := exec_concludes_keepsPort i s
  rw [hexec]
  exact conclude_answersOnce i.opcode hr

theorem execIllegal_answersOnce (cw : CmdWord) (s : State) : ∃ t, execIllegal cw s = .next t ∧ AnswersOnce s t :=
  conclude_answersOnce (opField cw) (.refl s)

/-! ### One step per event -/

theorem step_of_hardwareReset {s : State} {rest : List HostEvent} (hp : s.pending = .hardwareReset :: rest) :
    step s = .next s.withoutHead.hardwareReset := by simp [step, hp]
theorem step_of_decode_ok {s : State} {cw : CmdWord} {arg : Word} {rest : List HostEvent} {i : Instr}
    (hp : s.pending = .command cw arg :: rest) (hd : decode cw arg = .ok i) : step s = exec i s.withoutHead := by
  simp [step, hp, hd]
theorem step_of_decode_error {s : State} {cw : CmdWord} {arg : Word} {rest : List HostEvent} {e : Reject}
    (hp : s.pending = .command cw arg :: rest) (hd : decode cw arg = .error e) : step s = execIllegal cw s.withoutHead := by
  simp [step, hp, hd]

/-- A pending command is answered once by the step that serves it, legal word or not (R11, R87). -/
theorem step_command_answersOnce {s : State} {cw : CmdWord} {arg : Word} {rest : List HostEvent}
    (hp : s.pending = .command cw arg :: rest) : ∃ t, step s = .next t ∧ AnswersOnce s.withoutHead t := by
  cases hd : decode cw arg with
  | ok i =>
    rw [step_of_decode_ok hp hd]
    exact exec_answersOnce i s.withoutHead
  | error e =>
    rw [step_of_decode_error hp hd]
    exact execIllegal_answersOnce cw s.withoutHead

/-- Settles O11, by the two kinds of event: the reset input answers nothing, and a command's step is `step_command_answersOnce`. -/
theorem stepAnswersEveryCommand : Obligations.StepAnswersEveryCommand := by
  intro s ev rest hp
  cases ev with
  | hardwareReset =>
    exact ⟨_, step_of_hardwareReset hp, by simp [hp], rfl, fun _ => rfl, fun h => absurd rfl h⟩
  | command cw arg =>
    obtain ⟨t, hstep, ⟨hparams, hepoch, hpending⟩, hanswer⟩ := step_command_answersOnce hp
    exact ⟨t, hstep, by simp [hpending, hp], hparams, nofun, fun _ => ⟨hepoch, hanswer⟩⟩

end Machine
end Sys2Proof

/-! ## The family of spec/10_state.md: reset, the invariant of R36, and which command writes what -/

namespace Sys2Proof
namespace Machine

/-! ### The state a reset leaves (R34, R35) -/

theorem State.readReg_of_zero {s : State} (h : s.regs = Regs.zero) (r : Reg) : s.readReg r = 0#64 := by
  cases r with
  | capw b => cases b <;> simp [State.readReg, State.capw, h, Regs.zero]
  | len b => cases b <;> simp [State.readReg, State.len, h, Regs.zero]
  | glen g => cases g <;> simp [State.readReg, State.glen, h, Regs.zero]
  | fault => simp [State.readReg, h, Regs.zero]
  | optW => simp [State.readReg, h, Regs.zero]
  | optBits => simp [State.readReg, h, Regs.zero]
  | optWords => simp [State.readReg, h, Regs.zero]

theorem State.buf_of_unwritten {s : State} (h : s.mem = Memory.unwritten) (b : BufId) : s.buf b = [] := by
  cases b <;> simp [State.buf, h, Memory.unwritten]
theorem State.gaps_of_unwritten {s : State} (h : s.mem = Memory.unwritten) (g : GapId) : s.gaps g = [] := by
  cases g <;> simp [State.gaps, h, Memory.unwritten]

/-- Unwritten storage reads as the draw (R35). -/
theorem State.word_of_unwritten {s : State} (h : s.mem = Memory.unwritten) (b : BufId) (k : Nat) :
    s.word b k = Config.drawnWord s.epoch b k := by
  simp [State.word, State.buf_of_unwritten h, storeGet]
theorem State.gapRead_of_unwritten {s : State} (h : s.mem = Memory.unwritten) (g : GapId) (i : Nat) :
    s.gapRead g i = Config.drawnGap s.epoch g i := by
  simp [State.gapRead, State.gaps_of_unwritten h, storeGet]

/-- Settles O10: the step is the reset event, which leaves zero registers and unwritten memories. -/
theorem stepHardwareReset : Obligations.StepHardwareReset := by
  intro s rest hp
  exact ⟨_, step_of_hardwareReset hp, State.readReg_of_zero rfl, State.word_of_unwritten rfl, State.gapRead_of_unwritten rfl,
    rfl, rfl, by simp [hp], rfl⟩

/-! ### The memories keep their form and their sizes (R30, R31) -/

theorem storeWithin_storeSet {α : Type} {m : Store α} {n a : Nat} (h : storeWithin m n) (ha : a < n) (v : α) :
    storeWithin (storeSet m a v) n := storeSet_forall h ha

theorem bufPutBit_within {m : Store Cell} {n p : Nat} (h : storeWithin m n) (hp : p < 64 * n) (t : Bool) :
    storeWithin (bufPutBit m p t) n :=
  storeWithin_storeSet h (Nat.div_lt_of_lt_mul hp) _

theorem bufPutField_within {m : Store Cell} {n o k : Nat} (h : storeWithin m n) (hk : o + k ≤ 64 * n) (v : Nat) :
    storeWithin (bufPutField m o k v) n := by
  induction k with
  | zero => exact h
  | succ k ih => exact bufPutBit_within (ih (by omega)) (by omega) _

theorem bufClear_within {m : Store Cell} {n k : Nat} (h : storeWithin m n) (hk : k ≤ n) : storeWithin (bufClear m k) n := by
  induction k generalizing m with
  | zero => exact h
  | succ k ih => exact ih (storeWithin_storeSet h (by omega) _) (by omega)

theorem State.memOk_buf {s : State} (h : s.memOk) (b : BufId) : storeWithin (s.buf b) s.params.bbWords := by
  obtain ⟨-, h0, h1, -, -⟩ := h
  cases b
  · exact h0
  · exact h1
theorem State.memOk_gaps {s : State} (h : s.memOk) (g : GapId) : storeWithin (s.gaps g) s.params.gapEntries := by
  obtain ⟨-, -, -, h0, h1⟩ := h
  cases g
  · exact h0
  · exact h1

theorem State.setBuf_memOk {s : State} (h : s.memOk) {b : BufId} {m : Store Cell} (hwf : storeWf m ∧ ∀ x ∈ m, cellWf x.2)
    (hm : storeWithin m s.params.bbWords) : (s.setBuf b m).memOk := by
  obtain ⟨hmem, h0, h1, hg⟩ := h
  refine ⟨Memory.setBuf_wf hmem hwf, ?_⟩
  cases b
  · exact ⟨hm, h1, hg⟩
  · exact ⟨h0, hm, hg⟩
theorem State.setGaps_memOk {s : State} (h : s.memOk) {g : GapId} {m : Store Gap} (hwf : storeWf m)
    (hm : storeWithin m s.params.gapEntries) : (s.setGaps g m).memOk := by
  obtain ⟨hmem, hb0, hb1, h0, h1⟩ := h
  refine ⟨Memory.setGaps_wf hmem hwf, ?_⟩
  cases g
  · exact ⟨hb0, hb1, hm, h1⟩
  · exact ⟨hb0, hb1, h0, hm⟩

theorem State.memOk_of_unwritten {s : State} (h : s.mem = Memory.unwritten) : s.memOk := by
  simp [State.memOk, h, Memory.unwritten]

/-! ### The engine's part of the invariant (R36) -/

/-- The invariant of R36 without what it says of the answers: what a command's procedure keeps before it is concluded. -/
structure EngineOk (s : State) : Prop where
  legal : s.params.legal
  bufs : ∀ b, s.bufOk b
  counts : ∀ g, s.gapsOk g
  fault : faultOk s.regs.fault
  opt : s.regs.optOk
  mem : s.memOk

theorem State.inv_iff (s : State) : s.Inv ↔ EngineOk s ∧ ∀ r ∈ s.responses, responseOk r := by
  constructor
  · rintro ⟨hlegal, hb0, hb1, hg0, hg1, hfault, hopt, hmem, hanswers⟩
    exact ⟨⟨hlegal, (by cases · <;> assumption), (by cases · <;> assumption), hfault, hopt, hmem⟩, hanswers⟩
  · rintro ⟨h, hanswers⟩
    exact ⟨h.legal, h.bufs _, h.bufs _, h.counts _, h.counts _, h.fault, h.opt, h.mem, hanswers⟩

/-- Registers all 0 are within their ranges, whatever the parameters and the memories (R34, R36). -/
theorem EngineOk.of_zero {s : State} (hlegal : s.params.legal) (hregs : s.regs = Regs.zero) (hmem : s.memOk) :
    EngineOk s where
  legal := hlegal
  bufs b := by cases b <;> simp [State.bufOk, State.capw, State.len, hregs, Regs.zero]
  counts g := by cases g <;> simp [State.gapsOk, State.glen, hregs, Regs.zero]
  fault := by rw [hregs]; decide
  opt := by rw [hregs]; decide
  mem := hmem

/-- Settles O13: zero registers and unwritten memories are within every range. -/
theorem powerOnInvariant : Obligations.PowerOnInvariant := by
  refine ⟨fun p hp => ⟨(State.inv_iff _).2 ⟨?_, by simp⟩, State.readReg_of_zero rfl⟩, rfl⟩
  exact EngineOk.of_zero hp rfl (State.memOk_of_unwritten rfl)

/-! ### Each state operation keeps it -/

section
variable {s : State} (h : EngineOk s)
include h

theorem EngineOk.setCapw {b : BufId} {v : Word} (hv : v.toNat ≤ s.params.bbWords) (hlen : (s.len b).toNat ≤ 64 * v.toNat) :
    EngineOk (s.setCapw b v) where
  legal := h.legal
  bufs b' := by
    by_cases e : b' = b
    · subst e; simpa [State.bufOk] using ⟨hv, hlen⟩
    · simpa [State.bufOk, e] using h.bufs b'
  counts g := by simpa [State.gapsOk] using h.counts g
  fault := by simpa using h.fault
  opt := by simpa [Regs.optOk] using h.opt
  mem := h.mem

theorem EngineOk.setLen {b : BufId} {v : Word} (hv : v.toNat ≤ s.capBits b) : EngineOk (s.setLen b v) where
  legal := h.legal
  bufs b' := by
    by_cases e : b' = b
    · subst e; simpa [State.bufOk] using ⟨(h.bufs b').1, hv⟩
    · simpa [State.bufOk, e] using h.bufs b'
  counts g := by simpa [State.gapsOk] using h.counts g
  fault := by simpa using h.fault
  opt := by simpa [Regs.optOk] using h.opt
  mem := h.mem

theorem EngineOk.setGlen {g : GapId} {v : Word} (hv : v.toNat ≤ s.params.gapEntries) : EngineOk (s.setGlen g v) where
  legal := h.legal
  bufs b := by simpa [State.bufOk] using h.bufs b
  counts g' := by
    by_cases e : g' = g
    · subst e; simpa [State.gapsOk] using hv
    · simpa [State.gapsOk, e] using h.counts g'
  fault := by simpa using h.fault
  opt := by simpa [Regs.optOk] using h.opt
  mem := h.mem

/-- A count that fits the gap memory fits `GLEN`. -/
theorem EngineOk.setGlen_ofNat {g : GapId} {k : Nat} (hk : k ≤ s.params.gapEntries) :
    EngineOk (s.setGlen g (BitVec.ofNat 64 k)) :=
  h.setGlen ((Nat.mod_le k _).trans hk)

theorem EngineOk.setOpt {w bits words : Nat} (hw : w ≤ Config.maxWidth - 1) (hbits : bits < 2 ^ 57) (hwords : words < 2 ^ 57) :
    EngineOk (s.setOpt (BitVec.ofNat 64 w) (BitVec.ofNat 64 bits) (BitVec.ofNat 64 words)) :=
  { h with
    opt := ⟨(Nat.mod_le w _).trans hw, (Nat.mod_le bits _).trans_lt hbits, (Nat.mod_le words _).trans_lt hwords⟩ }

theorem EngineOk.reset : EngineOk { s with regs := Regs.zero } := .of_zero h.legal rfl h.mem

theorem EngineOk.capBits_le (b : BufId) : s.capBits b ≤ 64 * s.params.bbWords := Nat.mul_le_mul_left 64 (h.bufs b).1

theorem EngineOk.putBit {b : BufId} {p : Nat} (hp : p < s.capBits b) (t : Bool) : EngineOk (s.putBit b p t) :=
  { h with
    mem := State.setBuf_memOk h.mem (bufPutBit_wf (Memory.wf_buf h.mem.1 b) p t)
      (bufPutBit_within (State.memOk_buf h.mem b) (hp.trans_le (h.capBits_le b)) t) }

theorem EngineOk.putField {b : BufId} {o k : Nat} (hk : o + k ≤ s.capBits b) (v : Nat) : EngineOk (s.putField b o k v) :=
  { h with
    mem := State.setBuf_memOk h.mem (bufPutField_wf (Memory.wf_buf h.mem.1 b) o k v)
      (bufPutField_within (State.memOk_buf h.mem b) (hk.trans (h.capBits_le b)) v) }

theorem EngineOk.clear (b : BufId) : EngineOk (s.setBuf b (bufClear (s.buf b) (s.capw b).toNat)) :=
  { h with
    mem := State.setBuf_memOk h.mem (bufClear_wf (Memory.wf_buf h.mem.1 b) _)
      (bufClear_within (State.memOk_buf h.mem b) (h.bufs b).1) }

theorem EngineOk.gapWrite {g : GapId} {i : Nat} (hi : i < s.params.gapEntries) (v : Gap) : EngineOk (s.gapWrite g i v) :=
  { h with
    mem := State.setGaps_memOk h.mem (storeSet_wf (Memory.wf_gaps h.mem.1 g) i v)
      (storeWithin_storeSet (State.memOk_gaps h.mem g) hi v) }

/-- WRREG's conditions (R232) are what the invariant asks of the register. -/
theorem EngineOk.writeReg {r : Reg} {v : Word} (hv : s.writeLegal r v = true) : EngineOk (s.writeReg r v) := by
  obtain ⟨b, rfl, hcap, hlen⟩ | ⟨b, rfl, hlen⟩ | ⟨g, rfl, hcount⟩ := State.writeLegal_cases hv
  · exact h.setCapw hcap hlen
  · exact h.setLen hlen
  · exact h.setGlen hcount

/-- `Append` (R59) advances the cursor only where the capacity test has passed. -/
theorem EngineOk.append (b : BufId) (k v : Nat) : EngineOk (s.append b k v).state := by
  obtain ⟨hfits, heq⟩ | ⟨-, heq⟩ := s.append_cases b k v <;> rw [heq]
  · exact (h.putField hfits v).setLen (by simpa using (Nat.mod_le _ _).trans hfits)
  · exact h

theorem EngineOk.takeError (op : Byte) (e : Error) : EngineOk (s.takeError op e) where
  legal := h.legal
  bufs b := by simpa [State.bufOk] using h.bufs b
  counts g := by simpa [State.gapsOk] using h.counts g
  fault := updateFault_ok h.fault op e
  opt := h.opt
  mem := h.mem

theorem EngineOk.respond (c : Byte) (ret : Word) : EngineOk (s.respond c ret) := { h with }

end

/-! ### Each procedure keeps it -/

/-- What holds of the state a test finds, and of the state the procedure behind the test ends in, holds however it ends. -/
theorem state_of_guard {P : State → Prop} {c : Prop} [Decidable c] {s : State} {r : Ended Nat} {e : Error} (hs : P s)
    (hr : c → P r.state) : P (if c then r else .raised e s).state := by
  split
  · exact hr ‹c›
  · exact hs

/-- The same with the test that refuses an operand written first. -/
theorem state_of_refusal {P : State → Prop} {c : Prop} [Decidable c] {s : State} {r : Ended Nat} {e : Error} (hs : P s)
    (hr : ¬ c → P r.state) : P (if c then .raised e s else r).state := by
  split
  · exact hs
  · exact hr ‹¬ c›

/-- What the first statement of a procedure establishes and the second one keeps holds at the end (R11). -/
theorem state_of_andThen {P : State → Prop} {α β : Type} {r : Ended α} {f : α → State → Ended β} (hr : P r.state)
    (hf : ∀ a s, P s → P (f a s).state) : P (andThen r f).state := by
  cases r with
  | returned a s => exact hf a s hr
  | raised e s => exact hr

theorem appendFields_engineOk (b : BufId) (fields : List (Nat × Nat)) {s : State} (h : EngineOk s) :
    EngineOk (appendFields b fields s).state := by
  induction fields generalizing s with
  | nil => exact h
  | cons f fs ih => exact state_of_andThen (h.append b f.1 f.2) fun _ _ => ih

/-- An encode (R191, R211) is appends of fields from an empty buffer on. -/
theorem encode_engineOk (b : BufId) (fields : List (Nat × Nat)) {s : State} (h : EngineOk s) :
    EngineOk (andThen (appendFields b fields (s.setLen b 0#64)) fun _ s' => .returned (s'.len b).toNat s' : Ended Nat).state :=
  state_of_andThen (appendFields_engineOk b fields (h.setLen (Nat.zero_le _))) fun _ _ hs => hs

theorem decodeGaps_engineOk (one : Nat → Option (Nat × Nat)) (g : GapId) (n k pos : Nat) {s : State} (h : EngineOk s)
    (hk : k + n ≤ s.params.gapEntries) : EngineOk (decodeGaps one g n k pos s).state := by
  induction n generalizing k pos s with
  | zero => exact h.setGlen_ofNat (by omega)
  | succ n ih =>
    rw [decodeGaps]
    split
    · exact h.setGlen_ofNat (by omega)
    · exact ih _ _ (h.gapWrite (by omega) _) (by simpa using by omega)

theorem decodeInto_engineOk (one : Nat → Option (Nat × Nat)) (g : GapId) (count : Nat) {s : State} (h : EngineOk s) :
    EngineOk (decodeInto one g count s).state :=
  state_of_refusal h fun hcount => decodeGaps_engineOk one g count 0 0 h (by omega)

theorem extractScan_engineOk (src : State) (b : BufId) (g : GapId) (n p d k : Nat) {s : State} (h : EngineOk s)
    (hk : k ≤ s.params.gapEntries) : EngineOk (extractScan src b g n p d k s).state := by
  induction n generalizing p d k s with
  | zero =>
    rw [extractScan]
    split
    · rename_i hi
      rw [State.gapIndexOk_iff] at hi
      exact (h.gapWrite hi _).setGlen_ofNat hi
    · exact h.setGlen_ofNat hk
  | succ n ih =>
    rw [extractScan]
    split
    · split
      · rename_i hi
        rw [State.gapIndexOk_iff] at hi
        exact ih _ _ _ (h.gapWrite hi _) hi
      · exact h.setGlen_ofNat hk
    · exact ih _ _ _ h hk

/-! ### The optimizer's costs fit its registers (R177) -/

theorem State.gapSeq_length (s : State) (g : GapId) : (s.gapSeq g).length = (s.glen g).toNat := by
  simp [State.gapSeq, State.gapList]
theorem State.gapSeq_lt (s : State) (g : GapId) : ∀ x ∈ s.gapSeq g, x < 2 ^ 32 := by
  intro x hx
  obtain ⟨i, -, rfl⟩ := List.mem_map.1 hx
  exact (s.gapRead g i).isLt

theorem EngineOk.gapSeq_length_le {s : State} (h : EngineOk s) (g : GapId) : (s.gapSeq g).length ≤ 2 ^ 24 := by
  obtain ⟨-, -, -, hentries⟩ := h.legal
  rw [State.gapSeq_length]
  exact (h.counts g).trans hentries

/-- At most `2^24` gaps, each with a cost of at most `2^32 + 1`, cost less than `2^57` together (R177). -/
theorem cost_sum_lt {gaps : List Nat} {cost : Nat → Nat} (hlen : gaps.length ≤ 2 ^ 24)
    (hcost : ∀ g ∈ gaps, cost g ≤ 2 ^ 32 + 1) : (gaps.map cost).sum < 2 ^ 57 := by
  have hsum : (gaps.map cost).sum ≤ (gaps.map cost).length • (2 ^ 32 + 1) :=
    List.sum_le_card_nsmul _ _ (by simpa using hcost)
  rw [List.length_map, smul_eq_mul] at hsum
  have := Nat.mul_le_mul_right (2 ^ 32 + 1) hlen
  omega

/-- The fixed-width choice costs no more than width 1, which costs `g + 1` bits a gap (R173). -/
theorem bestWidthFW_fits {gaps : List Nat} (hlen : gaps.length ≤ 2 ^ 24) (hlt : ∀ g ∈ gaps, g < 2 ^ 32) :
    bestWidthFW gaps ≤ Config.maxWidth - 1 ∧ bitsFW gaps (bestWidthFW gaps) < 2 ^ 57 ∧
      wordsFW gaps (bestWidthFW gaps) < 2 ^ 57 := by
  obtain ⟨hlo, hhi, hmin, -⟩ := chosenWidth_spec (bitsFW gaps) 1 (Config.maxWidth - 1) (by decide)
  change 1 ≤ bestWidthFW gaps at hlo
  have hone : bitsFW gaps 1 < 2 ^ 57 := by
    rw [bitsFW, one_mul]
    exact cost_sum_lt hlen fun g hg => by simpa [sentinel] using (hlt g hg).trans (Nat.lt_succ_self _)
  have hbits : bitsFW gaps (bestWidthFW gaps) < 2 ^ 57 := (hmin 1 le_rfl (by decide)).trans_lt hone
  exact ⟨by unfold bestWidthFW; omega, hbits, (Nat.le_mul_of_pos_left _ hlo).trans_lt hbits⟩

/-- The Rice-Golomb choice costs no more than width 0, which costs `g + 1` bits a gap (R174). -/
theorem bestWidthRG_fits {gaps : List Nat} (hlen : gaps.length ≤ 2 ^ 24) (hlt : ∀ g ∈ gaps, g < 2 ^ 32) :
    bestWidthRG gaps ≤ Config.maxWidth - 1 ∧ bitsRG gaps (bestWidthRG gaps) < 2 ^ 57 ∧
      wordsRG gaps (bestWidthRG gaps) < 2 ^ 57 := by
  obtain ⟨-, hhi, hmin, -⟩ := chosenWidth_spec (bitsRG gaps) 0 Config.maxWidth (by decide)
  have hzero : bitsRG gaps 0 < 2 ^ 57 := cost_sum_lt hlen fun g hg => by simpa using (hlt g hg).trans (Nat.lt_succ_self _)
  refine ⟨by unfold bestWidthRG; omega, (hmin 0 le_rfl (by decide)).trans_lt hzero, cost_sum_lt hlen fun g hg => ?_⟩
  have hdiv := Nat.div_le_self g (2 ^ bestWidthRG gaps)
  have := hlt g hg
  omega

/-! ### Every command and every step keeps the invariant -/

/-- Every command is a procedure that keeps the engine's part of the invariant, and then its answer. -/
theorem exec_concludes_engineOk (i : Instr) {s : State} (h : EngineOk s) :
    ∃ r, exec i s = conclude i.opcode r ∧ EngineOk r.state := by
  cases i with
  | reset => exact ⟨.returned _ _, rfl, h.reset⟩
  | rdreg r =>
    refine ⟨_, rfl, ?_⟩
    split <;> exact h
  | wrreg r value =>
    refine ⟨_, rfl, ?_⟩
    split
    · exact h
    · exact state_of_guard h h.writeReg
  | setbit b pos => exact ⟨_, rfl, state_of_guard h fun hc => h.putBit ((s.inCapacity_iff b _ _).1 hc) true⟩
  | getbit b pos => exact ⟨_, rfl, state_of_guard h fun _ => h⟩
  | append b w value => exact ⟨_, rfl, state_of_guard h fun _ => h.append b _ _⟩
  | readf b w offset => exact ⟨_, rfl, state_of_guard h fun _ => h⟩
  | bbclr b => exact ⟨.returned _ _, rfl, (h.clear b).setLen (Nat.zero_le _)⟩
  | extract b g n =>
    exact ⟨_, rfl, state_of_guard h fun _ => extractScan_engineOk s b g _ _ _ _ h (Nat.zero_le _)⟩
  | gaprd g index => exact ⟨_, rfl, state_of_guard h fun _ => h⟩
  | gapwr g index value => exact ⟨_, rfl, state_of_guard h fun hc => h.gapWrite ((s.gapIndexOk_iff _).1 hc) value⟩
  | optFw g =>
    obtain ⟨hw, hbits, hwords⟩ := bestWidthFW_fits (h.gapSeq_length_le g) (s.gapSeq_lt g)
    exact ⟨.returned _ _, rfl, h.setOpt hw hbits hwords⟩
  | optRg g =>
    obtain ⟨hw, hbits, hwords⟩ := bestWidthRG_fits (h.gapSeq_length_le g) (s.gapSeq_lt g)
    exact ⟨.returned _ _, rfl, h.setOpt hw hbits hwords⟩
  | encFw b g w =>
    refine ⟨_, rfl, state_of_refusal h fun hw => ?_⟩
    have hpos : 1 ≤ w.toNat := Nat.pos_of_ne_zero fun h0 => hw (BitVec.eq_of_toNat_eq h0)
    rw [encodeInto_fw b w.toNat hpos]
    exact encode_engineOk b _ h
  | decFw b g w count => exact ⟨_, rfl, state_of_refusal h fun _ => decodeInto_engineOk _ g _ h⟩
  | encRg b g w =>
    refine ⟨_, rfl, ?_⟩
    rw [encodeInto_rg]
    exact encode_engineOk b _ h
  | decRg b g w count => exact ⟨_, rfl, decodeInto_engineOk _ g _ h⟩

/-- A procedure's end keeps it too: an answer, or an error and its answer. -/
theorem conclude_engineOk {op : Byte} {r : Ended Nat} {t : State} (h : EngineOk r.state) (ht : conclude op r = .next t) :
    EngineOk t := by
  obtain ⟨n, s, rfl, rfl⟩ | ⟨e, s, rfl, rfl⟩ := conclude_cases ht
  · exact h.respond _ _
  · exact h.takeError op e

theorem exec_engineOk {i : Instr} {s t : State} (h : EngineOk s) (ht : exec i s = .next t) : EngineOk t := by
  obtain ⟨r, hexec, hr⟩ := exec_concludes_engineOk i h
  exact conclude_engineOk hr (hexec ▸ ht)

theorem EngineOk.withoutHead {s : State} (h : EngineOk s) : EngineOk s.withoutHead := { h with }
theorem EngineOk.hardwareReset {s : State} (h : EngineOk s) : EngineOk s.hardwareReset :=
  .of_zero h.legal rfl (State.memOk_of_unwritten rfl)

theorem step_engineOk {s t : State} (h : EngineOk s) (ht : step s = .next t) : EngineOk t := by
  obtain ⟨-, rfl⟩ | ⟨_, -, rfl⟩ | ⟨_, _, _, _, -, -, hexec⟩ | ⟨_, _, _, _, -, -, rfl⟩ := step_cases ht
  · exact h
  · exact h.withoutHead.hardwareReset
  · exact exec_engineOk h.withoutHead hexec
  · exact h.withoutHead.takeError _ _

/-- A step adds at most one answer, of the form R11 and R251 ask for. -/
theorem step_responsesOk {s t : State} (h : ∀ r ∈ s.responses, responseOk r) (ht : step s = .next t) :
    ∀ r ∈ t.responses, responseOk r := by
  cases hp : s.pending with
  | nil =>
    obtain rfl : s = t := by simpa [step, hp] using ht
    exact h
  | cons ev rest =>
    obtain ⟨u, hstep, -, -, hreset, hcommand⟩ := stepAnswersEveryCommand s ev rest hp
    obtain rfl : u = t := Host.Outcome.next.inj (hstep.symm.trans ht)
    by_cases hev : ev = .hardwareReset
    · rw [hreset hev]; exact h
    · obtain ⟨-, r, hr, hok⟩ := hcommand hev
      rw [hr]
      exact List.forall_mem_cons.2 ⟨hok, h⟩

/-- Settles O14: the engine's part by `step_engineOk`, the answers by `step_responsesOk`. -/
theorem stepKeepsInvariant : Obligations.StepKeepsInvariant := by
  intro s t hs ht
  obtain ⟨hengine, hanswers⟩ := (State.inv_iff s).1 hs
  exact (State.inv_iff t).2 ⟨step_engineOk hengine ht, step_responsesOk hanswers ht⟩

/-- A run that ends in a next state has a next state after its first step. -/
theorem run_succ_next {M : Host.Core} {n : Nat} {s t : M.State} (h : M.run (n + 1) s = .next t) :
    ∃ s', M.step s = .next s' ∧ M.run n s' = .next t := by
  rw [Host.Core.run] at h
  split at h
  · exact ⟨_, ‹_›, h⟩
  · cases h
  · cases h

/-- What every step keeps, every run keeps. -/
theorem run_keeps {P : State → Prop} (hstep : ∀ s t, P s → step s = .next t → P t) (n : Nat) {s t : State} (hs : P s)
    (ht : Host.Core.run Sys2Proof.core n s = .next t) : P t := by
  induction n generalizing s with
  | zero => exact Host.Outcome.next.inj ht ▸ hs
  | succ n ih =>
    obtain ⟨s', hs', ht'⟩ := run_succ_next ht
    exact ih (hstep s s' hs hs') ht'

/-- Settles O15: power-on has the invariant (O13), the events the host has ready are no part of it, and every step keeps it
(O14). -/
theorem reachableStatesKeepInvariant : Obligations.ReachableStatesKeepInvariant := by
  intro p evs n t hp ht
  have hstart : ({ State.powerOn p with pending := evs } : State).Inv := (powerOnInvariant.1 p hp).1
  exact run_keeps stepKeepsInvariant n hstart ht

/-! ### Which command writes what (R24, R30, R31) -/

/-- From `s` to `t` only the memories and the registers changed that the tables of R24, R30 and R31 let command `i` write;
FAULT is R256's. -/
structure Footprint (i : Instr) (s t : State) : Prop where
  epoch : t.epoch = s.epoch
  buf : ∀ b, writesBuffer b i = false → t.buf b = s.buf b
  gaps : ∀ g, writesGaps g i = false → t.gaps g = s.gaps g
  capw : ∀ b, ¬ writesCapw b i → t.capw b = s.capw b
  len : ∀ b, ¬ writesLen b i → t.len b = s.len b
  glen : ∀ g, ¬ writesGlen g i → t.glen g = s.glen g
  opt : ¬ writesOpt i → t.regs.optW = s.regs.optW ∧ t.regs.optBits = s.regs.optBits ∧ t.regs.optWords = s.regs.optWords

theorem Footprint.refl (i : Instr) (s : State) : Footprint i s s :=
  ⟨rfl, fun _ _ => rfl, fun _ _ => rfl, fun _ _ => rfl, fun _ _ => rfl, fun _ _ => rfl, fun _ => ⟨rfl, rfl, rfl⟩⟩

theorem Footprint.trans {i : Instr} {s t u : State} (h : Footprint i s t) (k : Footprint i t u) : Footprint i s u where
  epoch := k.epoch.trans h.epoch
  buf b hb := (k.buf b hb).trans (h.buf b hb)
  gaps g hg := (k.gaps g hg).trans (h.gaps g hg)
  capw b hb := (k.capw b hb).trans (h.capw b hb)
  len b hb := (k.len b hb).trans (h.len b hb)
  glen g hg := (k.glen g hg).trans (h.glen g hg)
  opt ho := by
    obtain ⟨hw, hbits, hwords⟩ := h.opt ho
    obtain ⟨kw, kbits, kwords⟩ := k.opt ho
    exact ⟨kw.trans hw, kbits.trans hbits, kwords.trans hwords⟩

/-! One rule per state operation: its footprint is in that of a command the table names for it. -/

theorem Footprint.setBuf {i : Instr} {b : BufId} (h : writesBuffer b i = true) (s : State) (m : Store Cell) :
    Footprint i s (s.setBuf b m) :=
  { Footprint.refl i s with
    buf := fun b' hb' => by
      have hne : b' ≠ b := by rintro rfl; simp [h] at hb'
      simp [hne]
    gaps := fun g _ => by simp }

theorem Footprint.setGaps {i : Instr} {g : GapId} (h : writesGaps g i = true) (s : State) (m : Store Gap) :
    Footprint i s (s.setGaps g m) :=
  { Footprint.refl i s with
    buf := fun b _ => by simp
    gaps := fun g' hg' => by
      have hne : g' ≠ g := by rintro rfl; simp [h] at hg'
      simp [hne] }

theorem Footprint.setCapw {i : Instr} {b : BufId} (h : writesCapw b i) (s : State) (v : Word) :
    Footprint i s (s.setCapw b v) where
  epoch := rfl
  buf b' _ := by simp
  gaps g _ := by simp
  capw b' hb' := by
    have hne : b' ≠ b := by rintro rfl; exact hb' h
    simp [hne]
  len b' _ := by simp
  glen g _ := by simp
  opt _ := by simp

theorem Footprint.setLen {i : Instr} {b : BufId} (h : writesLen b i) (s : State) (v : Word) :
    Footprint i s (s.setLen b v) where
  epoch := rfl
  buf b' _ := by simp
  gaps g _ := by simp
  capw b' _ := by simp
  len b' hb' := by
    have hne : b' ≠ b := by rintro rfl; exact hb' h
    simp [hne]
  glen g _ := by simp
  opt _ := by simp

theorem Footprint.setGlen {i : Instr} {g : GapId} (h : writesGlen g i) (s : State) (v : Word) :
    Footprint i s (s.setGlen g v) where
  epoch := rfl
  buf b _ := by simp
  gaps g' _ := by simp
  capw b _ := by simp
  len b _ := by simp
  glen g' hg' := by
    have hne : g' ≠ g := by rintro rfl; exact hg' h
    simp [hne]
  opt _ := by simp

theorem Footprint.setOpt {i : Instr} (h : writesOpt i) (s : State) (w bits words : Word) :
    Footprint i s (s.setOpt w bits words) :=
  { Footprint.refl i s with opt := fun hno => absurd h hno }

/-- A state with the registers of one in the footprint is in it too, once its draw and its memories are. -/
theorem Footprint.of_regs {i : Instr} {s t u : State} (h : Footprint i s u) (hregs : t.regs = u.regs)
    (hepoch : t.epoch = s.epoch) (hbuf : ∀ b, writesBuffer b i = false → t.buf b = s.buf b)
    (hgaps : ∀ g, writesGaps g i = false → t.gaps g = s.gaps g) : Footprint i s t where
  epoch := hepoch
  buf := hbuf
  gaps := hgaps
  capw b hb := Eq.trans (by simp [State.capw, hregs]) (h.capw b hb)
  len b hb := Eq.trans (by simp [State.len, hregs]) (h.len b hb)
  glen g hg := Eq.trans (by simp [State.glen, hregs]) (h.glen g hg)
  opt := hregs ▸ h.opt

theorem TouchesBuffer.footprint {i : Instr} {b : BufId} {s t : State} (h : TouchesBuffer b s t)
    (hbuf : writesBuffer b i = true) (hlen : writesLen b i) : Footprint i s t := by
  obtain ⟨v, hregs⟩ := h.regs
  refine (Footprint.setLen hlen s v).of_regs hregs h.epoch (fun b' hb' => h.buf b' ?_) fun g _ => h.gaps g
  rintro rfl
  simp [hbuf] at hb'

theorem TouchesGaps.footprint {i : Instr} {g : GapId} {s t : State} (h : TouchesGaps g s t)
    (hgaps : writesGaps g i = true) (hglen : writesGlen g i) : Footprint i s t := by
  obtain ⟨v, hregs⟩ := h.regs
  refine (Footprint.setGlen hglen s v).of_regs hregs h.epoch (fun b _ => h.buf b) fun g' hg' => h.gaps g' ?_
  rintro rfl
  simp [hgaps] at hg'

theorem Footprint.takeError {i : Instr} {s t : State} (h : Footprint i s t) (op : Byte) (e : Error) :
    Footprint i s (t.takeError op e) := { h with }
theorem Footprint.respond {i : Instr} {s t : State} (h : Footprint i s t) (c : Byte) (ret : Word) :
    Footprint i s (t.respond c ret) := { h with }

/-! The register numbers of R24, read back. -/

theorem regOfNumber_capw {r : Width} {b : BufId} (h : regOfNumber r = some (.capw b)) : r = capwNumber b := by
  revert r; cases b <;> decide
theorem regOfNumber_len {r : Width} {b : BufId} (h : regOfNumber r = some (.len b)) : r = lenNumber b := by
  revert r; cases b <;> decide
theorem regOfNumber_glen {r : Width} {g : GapId} (h : regOfNumber r = some (.glen g)) : r = glenNumber g := by
  revert r; cases g <;> decide

/-- WRREG writes the register it names (R232). -/
theorem writeReg_footprint {r : Width} {reg : Reg} (hreg : regOfNumber r = some reg) {s : State} {v : Word}
    (hv : s.writeLegal reg v = true) : Footprint (.wrreg r v) s (s.writeReg reg v) := by
  obtain ⟨b, rfl, -⟩ | ⟨b, rfl, -⟩ | ⟨g, rfl, -⟩ := State.writeLegal_cases hv
  · exact .setCapw (.inr ⟨v, by rw [regOfNumber_capw hreg]⟩) s v
  · exact .setLen (.inr (.inl ⟨v, by rw [regOfNumber_len hreg]⟩)) s v
  · exact .setGlen (.inr (.inl ⟨v, by rw [regOfNumber_glen hreg]⟩)) s v

/-- RESET may write every register (R24, R230). -/
theorem reset_footprint (s : State) : Footprint .reset s { s with regs := Regs.zero } :=
  { Footprint.refl .reset s with
    capw := fun _ h => absurd (.inl rfl) h
    len := fun _ h => absurd (.inl rfl) h
    glen := fun _ h => absurd (.inl rfl) h
    opt := fun h => absurd (.inl rfl) h }

/-- Every command is a procedure that stays in its footprint, and then its answer. -/
theorem exec_concludes_footprint (i : Instr) (s : State) :
    ∃ r, exec i s = conclude i.opcode r ∧ Footprint i s r.state := by
  have hrefl : Footprint i s s := .refl i s
  cases i with
  | reset => exact ⟨.returned _ _, rfl, reset_footprint s⟩
  | rdreg r =>
    refine ⟨_, rfl, ?_⟩
    split <;> exact hrefl
  | wrreg r value =>
    refine ⟨_, rfl, ?_⟩
    split
    · exact hrefl
    · exact state_of_guard hrefl (writeReg_footprint ‹_›)
  | setbit b pos => exact ⟨_, rfl, state_of_guard hrefl fun _ => .setBuf (by simp [writesBuffer]) s _⟩
  | getbit b pos => exact ⟨_, rfl, state_of_guard hrefl fun _ => hrefl⟩
  | append b w value =>
    refine ⟨_, rfl, state_of_guard hrefl fun _ => (s.append_touches b _ _).footprint ?_ ?_⟩
    · simp [writesBuffer]
    · simp [writesLen]
  | readf b w offset => exact ⟨_, rfl, state_of_guard hrefl fun _ => hrefl⟩
  | bbclr b =>
    refine ⟨.returned _ _, rfl, (Footprint.setBuf ?_ s _).trans (.setLen ?_ _ _)⟩
    · simp [writesBuffer]
    · simp [writesLen]
  | extract b g n =>
    refine ⟨_, rfl, state_of_guard hrefl fun _ => (extractScan_touches s b g _ _ _ _ s).footprint ?_ ?_⟩
    · simp [writesGaps]
    · simp [writesGlen]
  | gaprd g index => exact ⟨_, rfl, state_of_guard hrefl fun _ => hrefl⟩
  | gapwr g index value => exact ⟨_, rfl, state_of_guard hrefl fun _ => .setGaps (by simp [writesGaps]) s _⟩
  | optFw g => exact ⟨.returned _ _, rfl, .setOpt (.inr (.inl ⟨g, rfl⟩)) s _ _ _⟩
  | optRg g => exact ⟨.returned _ _, rfl, .setOpt (.inr (.inr ⟨g, rfl⟩)) s _ _ _⟩
  | encFw b g w =>
    refine ⟨_, rfl, state_of_refusal hrefl fun _ =>
      (encodeInto_touches (fun x => encodeGapFW_touches b _ (x + 1) x) _ s).footprint ?_ ?_⟩
    · simp [writesBuffer]
    · simp [writesLen]
  | decFw b g w count =>
    refine ⟨_, rfl, state_of_refusal hrefl fun _ => (decodeInto_touches _ g _ s).footprint ?_ ?_⟩
    · simp [writesGaps]
    · simp [writesGlen]
  | encRg b g w =>
    refine ⟨_, rfl, (encodeInto_touches (encodeGapRG_touches b _) _ s).footprint ?_ ?_⟩
    · simp [writesBuffer]
    · simp [writesLen]
  | decRg b g w count =>
    refine ⟨_, rfl, (decodeInto_touches _ g _ s).footprint ?_ ?_⟩
    · simp [writesGaps]
    · simp [writesGlen]

theorem exec_footprint {i : Instr} {s t : State} (ht : exec i s = .next t) : Footprint i s t := by
  obtain ⟨r, hexec, hr⟩ := exec_concludes_footprint i s
  obtain ⟨n, u, rfl, rfl⟩ | ⟨e, u, rfl, rfl⟩ := conclude_cases (hexec ▸ ht)
  · exact hr.respond _ _
  · exact hr.takeError _ e

/-- Settles O56, by the command's footprint: a bit is read from the draw and the written part of its buffer. -/
theorem bufferWritersAsTabled : Obligations.BufferWritersAsTabled := by
  intro i s t b ht hb p
  have hfoot := exec_footprint ht
  rw [State.bit_eq_bufBit, State.bit_eq_bufBit, hfoot.epoch, hfoot.buf b hb]

/-- Settles O57, by the command's footprint: an entry is read from the draw and the written part of its memory. -/
theorem gapWritersAsTabled : Obligations.GapWritersAsTabled := by
  intro i s t g ht hg k
  have hfoot := exec_footprint ht
  rw [State.gapRead, State.gapRead, hfoot.epoch, hfoot.gaps g hg]

/-- Settles O58, by the command's footprint. -/
theorem registerWritersAsTabled : Obligations.RegisterWritersAsTabled := by
  intro i s t ht
  have hfoot := exec_footprint ht
  exact ⟨hfoot.capw, hfoot.len, hfoot.glen, hfoot.opt⟩

end Machine
end Sys2Proof

/-! ## The family of spec/20_memory.md: bits and words, the capacity window, the decoders' read limit, the port's history -/

namespace Sys2Proof
namespace Machine

/-! ### The capacity window (R60, R61) -/

/-- The commands that write buffer `b` (R30), from the table back to the commands. -/
theorem writesBuffer_cases {b : BufId} {i : Instr} (h : writesBuffer b i = true) :
    (∃ pos, i = .setbit b pos) ∨ (∃ w v, i = .append b w v) ∨ i = .bbclr b ∨ (∃ g w, i = .encFw b g w) ∨
      ∃ g w, i = .encRg b g w := by
  cases i <;> simp_all [writesBuffer]

/-- The commands that write gap memory `g` (R31), from the table back to the commands. -/
theorem writesGaps_cases {g : GapId} {i : Instr} (h : writesGaps g i = true) :
    (∃ b n, i = .extract b g n) ∨ (∃ j v, i = .gapwr g j v) ∨ (∃ b w c, i = .decFw b g w c) ∨
      ∃ b w c, i = .decRg b g w c := by
  cases i <;> simp_all [writesGaps]

/-- From `s` to `t` buffer `b` was written below its capacity only, and the capacity stayed. -/
structure WritesBelowCapacity (b : BufId) (s t : State) : Prop where
  capBits : t.capBits b = s.capBits b
  bits : ∀ p, s.capBits b ≤ p → t.bit b p = s.bit b p

theorem WritesBelowCapacity.refl (b : BufId) (s : State) : WritesBelowCapacity b s s := ⟨rfl, fun _ _ => rfl⟩

theorem WritesBelowCapacity.trans {b : BufId} {s t u : State} (h : WritesBelowCapacity b s t)
    (k : WritesBelowCapacity b t u) : WritesBelowCapacity b s u :=
  ⟨k.capBits.trans h.capBits, fun p hp => (k.bits p (h.capBits.trans_le hp)).trans (h.bits p hp)⟩

theorem State.setLen_belowCapacity (s : State) (b : BufId) (v : Word) : WritesBelowCapacity b s (s.setLen b v) :=
  ⟨by simp, by simp⟩

theorem State.putBit_belowCapacity {s : State} {b : BufId} {p : Nat} (hp : p < s.capBits b) (x : Bool) :
    WritesBelowCapacity b s (s.putBit b p x) where
  capBits := by simp
  bits q hq := by
    have hne : q ≠ p := by omega
    simp [hne]

theorem State.putField_belowCapacity {s : State} {b : BufId} {o k : Nat} (hk : o + k ≤ s.capBits b) (v : Nat) :
    WritesBelowCapacity b s (s.putField b o k v) where
  capBits := by simp
  bits q hq := by
    have hout : ¬ q < o + k := by omega
    simp [hout]

/-- `Append` (R59) writes only a field that passed the capacity test. -/
theorem State.append_belowCapacity (s : State) (b : BufId) (k v : Nat) :
    WritesBelowCapacity b s (s.append b k v).state := by
  obtain ⟨hfits, heq⟩ | ⟨-, heq⟩ := s.append_cases b k v <;> rw [heq]
  · exact (State.putField_belowCapacity hfits v).trans (State.setLen_belowCapacity _ b _)
  · exact .refl b s

/-- BBCLR (R125) clears the words of the window only. -/
theorem State.clear_belowCapacity (s : State) (b : BufId) :
    WritesBelowCapacity b s (s.setBuf b (bufClear (s.buf b) (s.capw b).toNat)) where
  capBits := by simp
  bits q hq := by
    have hout : ¬ q < 64 * (s.capw b).toNat := Nat.not_lt.2 hq
    simp [bufBit_bufClear, hout, State.bit_eq_bufBit]

/-- Appends field by field stay below the capacity, also where one of them raises. -/
theorem appendFields_belowCapacity (b : BufId) (fields : List (Nat × Nat)) (s : State) :
    WritesBelowCapacity b s (appendFields b fields s).state := by
  induction fields generalizing s with
  | nil => exact .refl b s
  | cons f fs ih => exact state_of_andThen (s.append_belowCapacity b f.1 f.2) fun _ s' hs => hs.trans (ih s')

/-- An encode (R191, R211) is appends from `LEN[b] = 0` on. -/
theorem encode_belowCapacity (b : BufId) (fields : List (Nat × Nat)) (s : State) :
    WritesBelowCapacity b s
      (andThen (appendFields b fields (s.setLen b 0#64)) fun _ s' => .returned (s'.len b).toNat s' : Ended Nat).state :=
  state_of_andThen ((s.setLen_belowCapacity b _).trans (appendFields_belowCapacity b fields _)) fun _ _ hs => hs

theorem WritesBelowCapacity.conclude {b : BufId} {s t : State} {op : Byte} {r : Ended Nat}
    (h : WritesBelowCapacity b s r.state) (ht : conclude op r = .next t) : WritesBelowCapacity b s t := by
  obtain ⟨n, u, rfl, rfl⟩ | ⟨e, u, rfl, rfl⟩ := conclude_cases ht
  · exact ⟨by simpa using h.capBits, by simpa using h.bits⟩
  · exact ⟨by simpa using h.capBits, by simpa using h.bits⟩

theorem one_le_toNat_of_ne_zero {w : Width} (hw : w ≠ 0#6) : 1 ≤ w.toNat :=
  Nat.pos_of_ne_zero fun h => hw (BitVec.eq_of_toNat_eq h)

/-- The five commands that write a buffer write it below its capacity (R60, R254). -/
theorem exec_belowCapacity {b : BufId} {i : Instr} {s t : State} (hb : writesBuffer b i = true)
    (ht : exec i s = .next t) : WritesBelowCapacity b s t := by
  have hrefl := WritesBelowCapacity.refl b s
  obtain ⟨pos, rfl⟩ | ⟨w, v, rfl⟩ | rfl | ⟨g, w, rfl⟩ | ⟨g, w, rfl⟩ := writesBuffer_cases hb
  · exact .conclude (state_of_guard hrefl fun hc => State.putBit_belowCapacity ((s.inCapacity_iff b _ _).1 hc) true) ht
  · exact .conclude (state_of_guard hrefl fun _ => s.append_belowCapacity b _ _) ht
  · exact .conclude (op := Instr.opcode (.bbclr b)) (r := .returned _ _)
      ((s.clear_belowCapacity b).trans (State.setLen_belowCapacity _ b _)) ht
  · refine .conclude (state_of_refusal hrefl fun hw => ?_) ht
    rw [encodeInto_fw b w.toNat (one_le_toNat_of_ne_zero hw)]
    exact encode_belowCapacity b _ s
  · refine .conclude ?_ ht
    rw [encodeInto_rg]
    exact encode_belowCapacity b _ s

/-- From `s` to `t` gap memory `g` was written below `GAP_ENTRIES` only, and `GAP_ENTRIES` stayed. -/
structure WritesBelowEntries (g : GapId) (s t : State) : Prop where
  params : t.params = s.params
  entries : ∀ k, s.params.gapEntries ≤ k → t.gapRead g k = s.gapRead g k

theorem WritesBelowEntries.refl (g : GapId) (s : State) : WritesBelowEntries g s s := ⟨rfl, fun _ _ => rfl⟩

theorem WritesBelowEntries.trans {g : GapId} {s t u : State} (h : WritesBelowEntries g s t)
    (k : WritesBelowEntries g t u) : WritesBelowEntries g s u :=
  ⟨k.params.trans h.params, fun j hj => (k.entries j (by rwa [h.params])).trans (h.entries j hj)⟩

theorem State.setGlen_belowEntries (s : State) (g : GapId) (v : Word) : WritesBelowEntries g s (s.setGlen g v) :=
  ⟨rfl, by simp⟩

theorem State.gapWrite_belowEntries {s : State} {g : GapId} {j : Nat} (hj : j < s.params.gapEntries) (v : Gap) :
    WritesBelowEntries g s (s.gapWrite g j v) where
  params := rfl
  entries k hk := by
    have hne : k ≠ j := by omega
    simp [hne]

/-- The decoders' loop (R192, R212) writes entry after entry, no more of them than the count that was tested. -/
theorem decodeGaps_belowEntries (one : Nat → Option (Nat × Nat)) (g : GapId) (n k pos : Nat) {s : State}
    (hk : k + n ≤ s.params.gapEntries) : WritesBelowEntries g s (decodeGaps one g n k pos s).state := by
  induction n generalizing k pos s with
  | zero => exact s.setGlen_belowEntries g _
  | succ n ih =>
    rw [decodeGaps]
    split
    · exact s.setGlen_belowEntries g _
    · exact (State.gapWrite_belowEntries (by omega) _).trans (ih _ _ (by simpa using by omega))

theorem decodeInto_belowEntries (one : Nat → Option (Nat × Nat)) (g : GapId) (count : Nat) (s : State) :
    WritesBelowEntries g s (decodeInto one g count s).state :=
  state_of_refusal (.refl g s) fun hcount => decodeGaps_belowEntries one g count 0 0 (by omega)

/-- The scan of EXTRACT (R151) tests each entry before it writes it. -/
theorem extractScan_belowEntries (src : State) (b : BufId) (g : GapId) (n p d k : Nat) (s : State) :
    WritesBelowEntries g s (extractScan src b g n p d k s).state := by
  induction n generalizing p d k s with
  | zero =>
    rw [extractScan]
    split
    · rename_i hk
      exact (State.gapWrite_belowEntries ((s.gapIndexOk_iff k).1 hk) _).trans (State.setGlen_belowEntries _ g _)
    · exact s.setGlen_belowEntries g _
  | succ n ih =>
    rw [extractScan]
    split
    · split
      · rename_i hk
        exact (State.gapWrite_belowEntries ((s.gapIndexOk_iff k).1 hk) _).trans (ih _ _ _ _)
      · exact s.setGlen_belowEntries g _
    · exact ih _ _ _ s

theorem WritesBelowEntries.conclude {g : GapId} {s t : State} {op : Byte} {r : Ended Nat}
    (h : WritesBelowEntries g s r.state) (ht : conclude op r = .next t) : WritesBelowEntries g s t := by
  obtain ⟨n, u, rfl, rfl⟩ | ⟨e, u, rfl, rfl⟩ := conclude_cases ht
  · exact ⟨h.params, by simpa using h.entries⟩
  · exact ⟨h.params, by simpa using h.entries⟩

/-- The four commands that write a gap memory write it below `GAP_ENTRIES` (R61). -/
theorem exec_belowEntries {g : GapId} {i : Instr} {s t : State} (hg : writesGaps g i = true)
    (ht : exec i s = .next t) : WritesBelowEntries g s t := by
  have hrefl := WritesBelowEntries.refl g s
  obtain ⟨b, n, rfl⟩ | ⟨j, v, rfl⟩ | ⟨b, w, c, rfl⟩ | ⟨b, w, c, rfl⟩ := writesGaps_cases hg
  · exact .conclude (state_of_guard hrefl fun _ => extractScan_belowEntries s b g _ _ _ _ s) ht
  · exact .conclude (state_of_guard hrefl fun hc => State.gapWrite_belowEntries ((s.gapIndexOk_iff _).1 hc) v) ht
  · exact .conclude (state_of_refusal hrefl fun _ => decodeInto_belowEntries _ g _ s) ht
  · exact .conclude (decodeInto_belowEntries _ g _ s) ht

/-- Settles O55: a command the tables of R30 and R31 do not name for a memory leaves it whole (O56, O57), and one they name
stays in the window. -/
theorem capacityWindowRespected : Obligations.CapacityWindowRespected := by
  refine fun i s t ht => ⟨fun b p hp => ?_, fun g k hk => ?_⟩
  · cases hb : writesBuffer b i with
    | false => exact bufferWritersAsTabled i s t b ht hb p
    | true => exact (exec_belowCapacity hb ht).bits p hp
  · cases hg : writesGaps g i with
    | false => exact gapWritersAsTabled i s t g ht hg k
    | true => exact (exec_belowEntries hg ht).entries k hk


/-! ### Where a procedure ends, seen through a change of the state -/

/-- The same end with `f` applied to the state it leaves. -/
def Ended.mapState {α : Type} (f : State → State) : Ended α → Ended α
  | .returned a s => .returned a (f s)
  | .raised e s => .raised e (f s)

@[simp] theorem Ended.mapState_returned {α : Type} (f : State → State) (a : α) (s : State) :
    (Ended.returned a s).mapState f = .returned a (f s) := rfl
@[simp] theorem Ended.mapState_raised {α : Type} (f : State → State) (e : Error) (s : State) :
    (Ended.raised e s : Ended α).mapState f = .raised e (f s) := rfl

/-- A test that `f` does not show to, on procedures that commute with `f`. -/
theorem Ended.mapState_ite {α : Type} (f : State → State) (c : Prop) [Decidable c] (r r' : Ended α) :
    (if c then r else r').mapState f = if c then r.mapState f else r'.mapState f := apply_ite _ _ _ _

/-- A sequence commutes with `f` if its second statement does. -/
theorem andThen_mapState {α β : Type} {f : State → State} {k : α → State → Ended β}
    (hk : ∀ a s, k a (f s) = (k a s).mapState f) (r : Ended α) :
    andThen (r.mapState f) k = (andThen r k).mapState f := by
  cases r with
  | returned a s => exact hk a s
  | raised e s => rfl

section
variable {f : State → State} {g : GapId} (hglen : ∀ s v, (f s).setGlen g v = f (s.setGlen g v))
  (hgap : ∀ s k v, (f s).gapWrite g k v = f (s.gapWrite g k v))
include hglen hgap

/-- The decoders' loop commutes with every `f` its writes commute with: it looks at no other part of the state. -/
theorem decodeGaps_mapState (one : Nat → Option (Nat × Nat)) (n k pos : Nat) (s : State) :
    decodeGaps one g n k pos (f s) = (decodeGaps one g n k pos s).mapState f := by
  induction n generalizing k pos s with
  | zero => simp [decodeGaps, hglen]
  | succ n ih =>
    rw [decodeGaps, decodeGaps]
    split
    · simp [hglen]
    · rw [hgap, ih]

theorem decodeInto_mapState (hparams : ∀ s, (f s).params = s.params) (one : Nat → Option (Nat × Nat)) (count : Nat)
    (s : State) : decodeInto one g count (f s) = (decodeInto one g count s).mapState f := by
  rw [decodeInto, decodeInto, Ended.mapState_ite, hparams, decodeGaps_mapState hglen hgap, Ended.mapState_raised]

end

/-! ### The decoders' read limit (R71) -/

section
variable {s s' : State} {b : BufId} (hlen : s'.len b = s.len b) (hbits : ∀ p, p < (s.len b).toNat → s'.bit b p = s.bit b p)
include hlen hbits

/-- The code of one fixed-width gap is read below the declared length (R192, R194). -/
theorem decodeGapFW_congr (w fuel pos acc : Nat) : decodeGapFW s' b w fuel pos acc = decodeGapFW s b w fuel pos acc := by
  induction fuel generalizing pos acc with
  | zero => rfl
  | succ fuel ih =>
    rw [decodeGapFW, decodeGapFW, hlen]
    by_cases hread : pos + w > (s.len b).toNat
    · rw [if_pos hread, if_pos hread]
    · have hfield : s'.getField b pos w = s.getField b pos w := State.getField_congr fun p _ hp => hbits p (by omega)
      simp only [hfield, ih]

/-- The unary part of a Rice-Golomb code is read below the declared length (R212, R214). -/
theorem decodeUnary_congr (fuel pos q : Nat) : decodeUnary s' b fuel pos q = decodeUnary s b fuel pos q := by
  induction fuel generalizing pos q with
  | zero => rfl
  | succ fuel ih =>
    rw [decodeUnary, decodeUnary, hlen]
    by_cases hread : pos + 1 > (s.len b).toNat
    · rw [if_pos hread, if_pos hread]
    · rw [hbits pos (by omega), ih]

/-- The code of one Rice-Golomb gap is read below the declared length (R212, R214). -/
theorem decodeGapRG_congr (w pos : Nat) : decodeGapRG s' b w pos = decodeGapRG s b w pos := by
  rw [decodeGapRG, decodeGapRG, hlen, decodeUnary_congr hlen hbits]
  split
  · rfl
  · rename_i q pos' _
    by_cases hread : pos' + w > (s.len b).toNat
    · rw [if_pos hread, if_pos hread]
    · have hfield : s'.getField b pos' w = s.getField b pos' w := State.getField_congr fun p _ hp => hbits p (by omega)
      rw [hfield]

end

/-- A decode of the same gaps over another content of a buffer ends the same, over that content. -/
theorem decodeInto_setBuf (one : Nat → Option (Nat × Nat)) (g : GapId) (count : Nat) (b : BufId) (m : Store Cell)
    (s : State) :
    decodeInto one g count (s.setBuf b m) = (decodeInto one g count s).mapState fun t => t.setBuf b m :=
  decodeInto_mapState (f := fun t => t.setBuf b m) (fun _ _ => rfl) (fun _ _ _ => by cases b <;> cases g <;> rfl)
    (fun _ => rfl) one count s

/-- `b`'s content shows neither in the registers nor in the answers nor in the gap memories. -/
theorem conclude_setBuf (op : Byte) (b : BufId) (m : Store Cell) (r : Ended Nat) :
    ∃ t u, conclude op r = .next t ∧ conclude op (r.mapState fun t => t.setBuf b m) = .next u ∧ u.regs = t.regs ∧
      u.responses = t.responses ∧ sameGaps t u := by
  cases r with
  | returned n t => exact ⟨_, _, rfl, rfl, rfl, rfl, by simp [sameGaps]⟩
  | raised e t => exact ⟨_, _, rfl, rfl, rfl, rfl, by simp [sameGaps]⟩

/-- Settles O59: both runs read the same gaps below the declared length, and the loop that stores them looks at no buffer. -/
theorem decodersReadBelowLength : Obligations.DecodersReadBelowLength := by
  intro s b g w count m i hi hbits
  have hlen : (s.setBuf b m).len b = s.len b := by simp
  obtain rfl | rfl := hi
  · have hone := decodeGapFW_congr hlen hbits w.toNat
    have hexec : exec (.decFw b g w count) (s.setBuf b m) = conclude (Instr.opcode (.decFw b g w count))
        ((if w = 0#6 then .raised .argumentError s
          else decodeInto (fun pos => decodeGapFW s b w.toNat ((s.len b).toNat + 1) pos 0) g count.toNat s : Ended Nat).mapState
          fun t => t.setBuf b m) := by
      simp only [exec, execDecFw, hone, hlen, decodeInto_setBuf, Ended.mapState_ite, Ended.mapState_raised]
    rw [hexec]
    exact conclude_setBuf _ b m _
  · have hexec : exec (.decRg b g w count) (s.setBuf b m) = conclude (Instr.opcode (.decRg b g w count))
        ((decodeInto (fun pos => decodeGapRG s b w.toNat pos) g count.toNat s).mapState fun t => t.setBuf b m) := by
      simp only [exec, execDecRg, decodeGapRG_congr hlen hbits, decodeInto_setBuf]
    rw [hexec]
    exact conclude_setBuf _ b m _

/-! ### The port's history (R68 (c)) -/

/-- The same engine behind a port with other events to come and other answers given. -/
def State.withPort (s : State) (ps : List HostEvent) (rs : List Response) : State := { s with pending := ps, responses := rs }

section
variable (ps : List HostEvent) (rs : List Response)

/-- `Append` (R59) looks at the buffer, its capacity and its cursor. -/
theorem State.append_withPort (s : State) (b : BufId) (k v : Nat) :
    (s.withPort ps rs).append b k v = (s.append b k v).mapState (State.withPort · ps rs) := by
  rw [State.append, State.append, Ended.mapState_ite]
  rfl

theorem appendFields_withPort (b : BufId) (fields : List (Nat × Nat)) (s : State) :
    appendFields b fields (s.withPort ps rs) = (appendFields b fields s).mapState (State.withPort · ps rs) := by
  induction fields generalizing s with
  | nil => rfl
  | cons f fs ih =>
    rw [appendFields, appendFields, State.append_withPort]
    exact andThen_mapState (f := (State.withPort · ps rs)) (fun _ => ih) _

/-- An encode (R191, R211) is appends from `LEN[b] = 0` on. -/
theorem encode_withPort (b : BufId) (fields : List (Nat × Nat)) (s : State) :
    (andThen (appendFields b fields ((s.withPort ps rs).setLen b 0#64)) fun _ s' => .returned (s'.len b).toNat s') =
      (andThen (appendFields b fields (s.setLen b 0#64)) fun _ s' => .returned (s'.len b).toNat s').mapState
        (State.withPort · ps rs) := by
  have happend : appendFields b fields ((s.withPort ps rs).setLen b 0#64) =
      (appendFields b fields (s.setLen b 0#64)).mapState (State.withPort · ps rs) :=
    appendFields_withPort ps rs b fields (s.setLen b 0#64)
  rw [happend]
  exact andThen_mapState (f := (State.withPort · ps rs)) (fun _ _ => rfl) _

theorem decodeInto_withPort (one : Nat → Option (Nat × Nat)) (g : GapId) (count : Nat) (s : State) :
    decodeInto one g count (s.withPort ps rs) = (decodeInto one g count s).mapState (State.withPort · ps rs) :=
  decodeInto_mapState (f := (State.withPort · ps rs)) (fun _ _ => rfl) (fun _ _ _ => rfl) (fun _ => rfl) one count s

/-- The scan of EXTRACT (R151) looks at the buffer's bits and at the entries still free. -/
theorem extractScan_withPort (src : State) (b : BufId) (g : GapId) (n p d k : Nat) (s : State) :
    extractScan (src.withPort ps rs) b g n p d k (s.withPort ps rs) =
      (extractScan src b g n p d k s).mapState (State.withPort · ps rs) := by
  induction n generalizing p d k s with
  | zero =>
    rw [extractScan, extractScan, Ended.mapState_ite]
    rfl
  | succ n ih =>
    rw [extractScan, extractScan, Ended.mapState_ite, Ended.mapState_ite, ← ih, ← ih]
    rfl

theorem decodeGapFW_withPort (s : State) (b : BufId) (w fuel pos acc : Nat) :
    decodeGapFW (s.withPort ps rs) b w fuel pos acc = decodeGapFW s b w fuel pos acc :=
  decodeGapFW_congr (s := s) (s' := s.withPort ps rs) rfl (fun _ _ => rfl) w fuel pos acc
theorem decodeGapRG_withPort (s : State) (b : BufId) (w pos : Nat) :
    decodeGapRG (s.withPort ps rs) b w pos = decodeGapRG s b w pos :=
  decodeGapRG_congr (s := s) (s' := s.withPort ps rs) rfl (fun _ _ => rfl) w pos

theorem State.getField_withPort (s : State) (b : BufId) (o k : Nat) :
    (s.withPort ps rs).getField b o k = s.getField b o k :=
  State.getField_congr (s := s) (t := s.withPort ps rs) fun _ _ _ => rfl

theorem State.writeLegal_withPort (s : State) (r : Reg) (v : Word) :
    (s.withPort ps rs).writeLegal r v = s.writeLegal r v := by
  cases r <;> rfl

/-- A register write is the same whatever stands at the port (R232). -/
theorem State.writeReg_withPort (s : State) (r : Reg) (v : Word) :
    (s.withPort ps rs).writeReg r v = (s.writeReg r v).withPort ps rs := by
  cases r <;> rfl

/-- A tested procedure commutes with a change of the port, if the procedure behind the test does. -/
theorem guard_withPort {c : Prop} [Decidable c] {e : Error} {s : State} {r r' : Ended Nat}
    (h : c → r' = r.mapState (State.withPort · ps rs)) :
    (if c then r' else .raised e (s.withPort ps rs)) =
      (if c then r else .raised e s).mapState (State.withPort · ps rs) := by
  split
  · exact h ‹c›
  · rfl

/-- The same with the test that refuses an operand written first. -/
theorem refusal_withPort {c : Prop} [Decidable c] {e : Error} {s : State} {r r' : Ended Nat}
    (h : ¬ c → r' = r.mapState (State.withPort · ps rs)) :
    (if c then .raised e (s.withPort ps rs) else r') =
      (if c then .raised e s else r).mapState (State.withPort · ps rs) := by
  split
  · rfl
  · exact h ‹¬ c›

/-- Every command is a procedure that ends the same whatever stands at the port, and then its answer. -/
theorem exec_concludes_withPort (i : Instr) (s : State) :
    ∃ r, exec i s = conclude i.opcode r ∧
      exec i (s.withPort ps rs) = conclude i.opcode (r.mapState (State.withPort · ps rs)) := by
  cases i with
  | reset => exact ⟨.returned _ _, rfl, rfl⟩
  | rdreg r =>
    refine ⟨_, rfl, congrArg (conclude _) ?_⟩
    cases regOfNumber r with
    | none => rfl
    | some reg => cases reg <;> rfl
  | wrreg r value =>
    refine ⟨_, rfl, congrArg (conclude _) ?_⟩
    cases regOfNumber r with
    | none => rfl
    | some reg =>
      simp only [State.writeLegal_withPort, State.writeReg_withPort]
      exact guard_withPort ps rs fun _ => rfl
  | setbit b pos => exact ⟨_, rfl, congrArg (conclude _) (guard_withPort ps rs fun _ => rfl)⟩
  | getbit b pos => exact ⟨_, rfl, congrArg (conclude _) (guard_withPort ps rs fun _ => rfl)⟩
  | append b w value =>
    exact ⟨_, rfl, congrArg (conclude _) (guard_withPort ps rs fun _ => s.append_withPort ps rs b _ _)⟩
  | readf b w offset =>
    refine ⟨_, rfl, congrArg (conclude _) (guard_withPort ps rs fun _ => ?_)⟩
    rw [State.getField_withPort, Ended.mapState_returned]
  | bbclr b => exact ⟨.returned _ _, rfl, rfl⟩
  | extract b g n =>
    exact ⟨_, rfl, congrArg (conclude _) (guard_withPort ps rs fun _ => extractScan_withPort ps rs s b g _ _ _ _ s)⟩
  | gaprd g index => exact ⟨_, rfl, congrArg (conclude _) (guard_withPort ps rs fun _ => rfl)⟩
  | gapwr g index value => exact ⟨_, rfl, congrArg (conclude _) (guard_withPort ps rs fun _ => rfl)⟩
  | optFw g => exact ⟨.returned _ _, rfl, rfl⟩
  | optRg g => exact ⟨.returned _ _, rfl, rfl⟩
  | encFw b g w =>
    refine ⟨_, rfl, congrArg (conclude _) (refusal_withPort ps rs fun hw => ?_)⟩
    have hpos := one_le_toNat_of_ne_zero hw
    rw [encodeInto_fw b w.toNat hpos, encodeInto_fw b w.toNat hpos]
    exact encode_withPort ps rs b _ s
  | decFw b g w count =>
    refine ⟨_, rfl, congrArg (conclude _) (refusal_withPort ps rs fun _ => ?_)⟩
    simp only [decodeGapFW_withPort]
    exact decodeInto_withPort ps rs _ g _ s
  | encRg b g w =>
    refine ⟨_, rfl, congrArg (conclude _) ?_⟩
    rw [encodeInto_rg, encodeInto_rg]
    exact encode_withPort ps rs b _ s
  | decRg b g w count =>
    refine ⟨_, rfl, congrArg (conclude _) ?_⟩
    simp only [decodeGapRG_withPort]
    exact decodeInto_withPort ps rs _ g _ s

/-- The answer to an end is the same over every port, and so is the engine it leaves. -/
theorem conclude_withPort (op : Byte) (r : Ended Nat) :
    ∃ t a, conclude op r = .next t ∧ t.responses = a :: r.state.responses ∧
      conclude op (r.mapState (State.withPort · ps rs)) = .next (t.withPort ps (a :: rs)) := by
  cases r with
  | returned n s => exact ⟨_, _, rfl, rfl, rfl⟩
  | raised e s => exact ⟨_, _, rfl, rfl, rfl⟩

end

/-- Settles O12: the command's procedure ends the same over both ports, and the answer is a function of that end. -/
theorem hostHistoryDoesNotMatter : Obligations.HostHistoryDoesNotMatter := by
  intro i s ps rs
  obtain ⟨r, hexec, hexec'⟩ := exec_concludes_withPort ps rs i s
  obtain ⟨t, a, hend, ha, hend'⟩ := conclude_withPort ps rs i.opcode r
  obtain ⟨u, hu, -, a', ha', -⟩ := exec_answersOnce i s
  obtain rfl : u = t := Host.Outcome.next.inj (hu.symm.trans (hexec.trans hend))
  obtain ⟨rfl, -⟩ := List.cons.inj (ha'.symm.trans ha)
  exact ⟨u, _, a', hu, hexec'.trans hend', ha', rfl⟩

/-! ### Words and bits (R50, R54) -/

/-- Settles O29, by whether the word, and in it the bit, has been written. -/
theorem bitIsWordBit : Obligations.BitIsWordBit := by
  intro s b p
  have h64 : p % 64 < 64 := Nat.mod_lt p (by decide)
  rw [State.bit_eq_bufBit, bufBit, State.word]
  cases storeGet (s.buf b) (p / 64) with
  | none => rfl
  | some c =>
    rw [cellBit]
    cases hw : c.written.getLsbD (p % 64) <;> simp [hw, h64, -BitVec.getLsbD_eq_getElem]

/-- Bit `i` of a storage word is the buffer's bit at position `64 * k + i` (R50). -/
theorem State.word_getLsbD (s : State) (b : BufId) (k i : Nat) (hi : i < 64) :
    (s.word b k).getLsbD i = s.bit b (64 * k + i) := by
  have hdiv : (64 * k + i) / 64 = k := by omega
  have hmod : (64 * k + i) % 64 = i := by omega
  rw [bitIsWordBit, hdiv, hmod]

/-- A word after `PutField` (R57), bit by bit: inside the field the value's bits, outside what was there. -/
theorem State.putField_word_getLsbD (s : State) (b : BufId) (o k v j i : Nat) (hi : i < 64) :
    ((s.putField b o k v).word b j).getLsbD i =
      if o ≤ 64 * j + i ∧ 64 * j + i < o + k then v.testBit (64 * j + i - o) else (s.word b j).getLsbD i := by
  simp [State.word_getLsbD, hi, -BitVec.getLsbD_eq_getElem]

/-- A word no position of the field lies in keeps its value. -/
theorem State.putField_word_of_outside (s : State) (b : BufId) (o k v j : Nat)
    (h : ∀ i, i < 64 → ¬ (o ≤ 64 * j + i ∧ 64 * j + i < o + k)) : (s.putField b o k v).word b j = s.word b j := by
  apply BitVec.eq_of_getLsbD_eq
  intro i hi
  rw [State.putField_word_getLsbD _ _ _ _ _ _ _ hi, if_neg (h i hi)]

/-! ### Fields on words (R58) -/

theorem testBit_eq_false_of_width_le {v k i : Nat} (hv : v < 2 ^ k) (hi : k ≤ i) : v.testBit i = false :=
  Nat.testBit_lt_two_pow (hv.trans_le (Nat.pow_le_pow_right (by decide) hi))

section
variable (s : State) (b : BufId) {o k v : Nat}

/-- The word a field starts in, bit by bit: the value's bits begin at bit `o mod 64`. -/
theorem State.putField_firstWord_getLsbD {i : Nat} (hi : i < 64) :
    ((s.putField b o k v).word b (o / 64)).getLsbD i =
      if o % 64 ≤ i ∧ i < o % 64 + k then v.testBit (i - o % 64) else (s.word b (o / 64)).getLsbD i := by
  have hin : (o ≤ 64 * (o / 64) + i ∧ 64 * (o / 64) + i < o + k) ↔ (o % 64 ≤ i ∧ i < o % 64 + k) := by omega
  have hsub : 64 * (o / 64) + i - o = i - o % 64 := by omega
  simp only [State.putField_word_getLsbD _ _ _ _ _ _ _ hi, hin, hsub]

/-- The word after it, bit by bit: the value's bits from `64 - o mod 64` on. -/
theorem State.putField_secondWord_getLsbD {i : Nat} (hi : i < 64) :
    ((s.putField b o k v).word b (o / 64 + 1)).getLsbD i =
      if i < k - (64 - o % 64) then v.testBit (64 - o % 64 + i) else (s.word b (o / 64 + 1)).getLsbD i := by
  have hin : (o ≤ 64 * (o / 64 + 1) + i ∧ 64 * (o / 64 + 1) + i < o + k) ↔ i < k - (64 - o % 64) := by omega
  have hsub : 64 * (o / 64 + 1) + i - o = 64 - o % 64 + i := by omega
  simp only [State.putField_word_getLsbD _ _ _ _ _ _ _ hi, hin, hsub]

/-- A field is written into the word it starts in: the value shifted to its place, the bits of the field masked out before. -/
theorem State.putField_firstWord (hv : v < 2 ^ k) :
    (s.putField b o k v).word b (o / 64) =
      (s.word b (o / 64) &&& ~~~(BitVec.ofNat 64 ((2 ^ k - 1) <<< (o % 64)))) ||| BitVec.ofNat 64 (v <<< (o % 64)) := by
  apply BitVec.eq_of_getLsbD_eq
  intro i hi
  rw [State.putField_firstWord_getLsbD s b hi]
  simp only [BitVec.getLsbD_or, BitVec.getLsbD_and, BitVec.getLsbD_not, BitVec.getLsbD_ofNat, Nat.testBit_shiftLeft,
    Nat.testBit_two_pow_sub_one, hi, decide_true, Bool.true_and]
  by_cases hlo : o % 64 ≤ i
  · by_cases hhi : i < o % 64 + k
    · have hin : i - o % 64 < k := by omega
      simp [hlo, hhi, hin]
    · have hin : ¬ i - o % 64 < k := by omega
      simp [hlo, hhi, hin, testBit_eq_false_of_width_le hv (Nat.not_lt.1 hin)]
  · simp [hlo]

/-- The low part of a straddling field fills the word it starts in from bit `o mod 64` up. -/
theorem State.putField_firstWord_straddling (hstraddle : 64 < o % 64 + k) :
    (s.putField b o k v).word b (o / 64) =
      (s.word b (o / 64) &&& BitVec.ofNat 64 (2 ^ (o % 64) - 1)) |||
        BitVec.ofNat 64 ((v % 2 ^ (64 - o % 64)) <<< (o % 64)) := by
  apply BitVec.eq_of_getLsbD_eq
  intro i hi
  have hbelow : i < o % 64 + k := by omega
  rw [State.putField_firstWord_getLsbD s b hi]
  simp only [BitVec.getLsbD_or, BitVec.getLsbD_and, BitVec.getLsbD_ofNat, Nat.testBit_shiftLeft, Nat.testBit_mod_two_pow,
    Nat.testBit_two_pow_sub_one, hi, decide_true, Bool.true_and]
  by_cases hlo : o % 64 ≤ i
  · have hin : i - o % 64 < 64 - o % 64 := by omega
    simp [hlo, hbelow, hin, Nat.not_lt.2 hlo]
  · simp [hlo, Nat.not_le.1 hlo]

/-- The high part of a straddling field stands in the bottom bits of the next word. -/
theorem State.putField_secondWord (hv : v < 2 ^ k) :
    (s.putField b o k v).word b (o / 64 + 1) =
      (s.word b (o / 64 + 1) &&& ~~~(BitVec.ofNat 64 (2 ^ (k - (64 - o % 64)) - 1))) |||
        BitVec.ofNat 64 (v >>> (64 - o % 64)) := by
  apply BitVec.eq_of_getLsbD_eq
  intro i hi
  rw [State.putField_secondWord_getLsbD s b hi]
  simp only [BitVec.getLsbD_or, BitVec.getLsbD_and, BitVec.getLsbD_not, BitVec.getLsbD_ofNat, Nat.testBit_shiftRight,
    Nat.testBit_two_pow_sub_one, hi, decide_true, Bool.true_and]
  by_cases hin : i < k - (64 - o % 64)
  · simp [hin]
  · simp [hin, testBit_eq_false_of_width_le hv (show k ≤ 64 - o % 64 + i by omega)]

/-- A field in one word is read from that word. -/
theorem State.getField_within (hfit : o % 64 + k ≤ 64) :
    s.getField b o k = (s.word b (o / 64)).toNat >>> (o % 64) % 2 ^ k := by
  apply Nat.eq_of_testBit_eq
  intro i
  rw [State.getField_testBit, Nat.testBit_mod_two_pow, Nat.testBit_shiftRight, BitVec.testBit_toNat]
  by_cases hi : i < k
  · have hpos : 64 * (o / 64) + (o % 64 + i) = o + i := by omega
    rw [State.word_getLsbD _ _ _ _ (by omega), hpos]
  · simp [hi]

/-- A straddling field is read from two words: the top bits of the first under the bottom bits of the second. -/
theorem State.getField_straddling (hk : k ≤ 63) (hstraddle : 64 < o % 64 + k) :
    s.getField b o k = (s.word b (o / 64)).toNat >>> (o % 64) |||
      ((s.word b (o / 64 + 1)).toNat % 2 ^ (k - (64 - o % 64))) <<< (64 - o % 64) := by
  apply Nat.eq_of_testBit_eq
  intro i
  simp only [State.getField_testBit, Nat.testBit_or, Nat.testBit_shiftLeft, Nat.testBit_mod_two_pow,
    Nat.testBit_shiftRight, BitVec.testBit_toNat]
  by_cases hlow : i < 64 - o % 64
  · have hpos : 64 * (o / 64) + (o % 64 + i) = o + i := by omega
    have hi : i < k := by omega
    rw [State.word_getLsbD _ _ _ _ (by omega), hpos]
    simp [hi, Nat.not_le.2 hlow]
  · have hfirst : (s.word b (o / 64)).getLsbD (o % 64 + i) = false := BitVec.getLsbD_of_ge _ _ (by omega)
    rw [hfirst]
    by_cases hi : i < k
    · have hpos : 64 * (o / 64 + 1) + (i - (64 - o % 64)) = o + i := by omega
      have hin : i - (64 - o % 64) < k - (64 - o % 64) := by omega
      rw [State.word_getLsbD _ _ _ _ (by omega), hpos]
      simp [hi, hin, Nat.not_lt.1 hlow]
    · have hout : ¬ i - (64 - o % 64) < k - (64 - o % 64) := by omega
      simp [hi, hout]

end

/-- Settles O30, case by case of R58; words the field does not reach are `putField_word_of_outside`. -/
theorem fieldWordForm : Obligations.FieldWordForm := by
  intro s b o k v hk hv
  refine ⟨?empty, fun _ hfit => ⟨fun j => ?_, s.getField_within b hfit⟩, fun hstraddle =>
    ⟨fun j => ?_, s.getField_straddling b hk hstraddle, fun hcap => ?_⟩⟩
  case empty =>
    rintro rfl
    exact ⟨fun j => s.putField_word_of_outside b o 0 v j fun i _ => by omega, rfl⟩
  · split
    · subst j
      exact s.putField_firstWord b hv
    · exact s.putField_word_of_outside b o k v j fun i _ => by omega
  · split
    · subst j
      exact s.putField_firstWord_straddling b hstraddle
    · split
      · subst j
        exact s.putField_secondWord b hv
      · exact s.putField_word_of_outside b o k v j fun i _ => by omega
  · rw [State.capBits, Config.wordBits] at hcap
    omega

/-! ### One step, one command (R64) -/

/-- Settles O7: the state the command runs on is the one with the head of the port taken off. -/
theorem stepRunsDecodedCommand : Obligations.StepRunsDecodedCommand := by
  intro s cw arg rest i hp hd
  rw [step_of_decode_ok hp hd, State.withoutHead, hp, List.tail_cons]

end Machine
end Sys2Proof

/-! ## The family of spec/30_encoding.md: the command word and its map, the two codes and their costs -/

namespace Sys2Proof

/-! ### The fields of a word as numbers (R81) -/

theorem opField_toNat (cw : CmdWord) : (opField cw).toNat = cw.toNat % 256 := by simp [opField]
theorem wField_toNat (cw : CmdWord) : (wField cw).toNat = cw.toNat / 256 % 64 := by
  simp [wField, Nat.shiftRight_eq_div_pow]
theorem bField_eq (cw : CmdWord) : bField cw = decide (cw.toNat / 2 ^ 14 % 2 = 1) := by
  rw [bField, ← BitVec.testBit_toNat, Nat.testBit_eq_decide_div_mod_eq]
theorem gField_eq (cw : CmdWord) : gField cw = decide (cw.toNat / 2 ^ 15 % 2 = 1) := by
  rw [gField, ← BitVec.testBit_toNat, Nat.testBit_eq_decide_div_mod_eq]
theorem reservedField_toNat (cw : CmdWord) : (reservedField cw).toNat = cw.toNat / 2 ^ 16 % 2 ^ 16 := by
  simp [reservedField, Nat.shiftRight_eq_div_pow]

/-- The five fields of R81 cover the word. -/
theorem cmdWord_eq_iff (a b : CmdWord) :
    a = b ↔ opField a = opField b ∧ wField a = wField b ∧ bField a = bField b ∧ gField a = gField b ∧
      reservedField a = reservedField b := by
  refine ⟨fun h => by simp [h], fun ⟨hop, hw, hb, hg, hres⟩ => BitVec.eq_of_toNat_eq ?_⟩
  rw [← BitVec.toNat_inj, opField_toNat, opField_toNat] at hop
  rw [← BitVec.toNat_inj, wField_toNat, wField_toNat] at hw
  rw [bField_eq, bField_eq, decide_eq_decide] at hb
  rw [gField_eq, gField_eq, decide_eq_decide] at hg
  rw [← BitVec.toNat_inj, reservedField_toNat, reservedField_toNat] at hres
  omega

@[simp] theorem bitOfBuf_eq_false_iff (b : BufId) : bitOfBuf b = false ↔ b = .b0 := by cases b <;> decide
@[simp] theorem bitOfGap_eq_false_iff (g : GapId) : bitOfGap g = false ↔ g = .g0 := by cases g <;> decide
theorem bufOfBit_eq_b0_iff (t : Bool) : bufOfBit t = .b0 ↔ t = false := by cases t <;> decide
theorem gapOfBit_eq_g0_iff (t : Bool) : gapOfBit t = .g0 ↔ t = false := by cases t <;> decide
@[simp] theorem bitOfBuf_bufOfBit (t : Bool) : bitOfBuf (bufOfBit t) = t := by cases t <;> rfl
@[simp] theorem bitOfGap_gapOfBit (t : Bool) : bitOfGap (gapOfBit t) = t := by cases t <;> rfl

/-- A word with zero reserved bits is assembled from its own fields (R81). -/
theorem commandWord_fields {cw : CmdWord} (hres : reservedField cw = 0#16) :
    commandWord (opField cw) (wField cw) (bufOfBit (bField cw)) (gapOfBit (gField cw)) = cw := by
  simp [cmdWord_eq_iff, hres]

theorem bitOfBuf_eq (b : BufId) : bitOfBuf b = decide (Machine.bufNumber b = 1) := by cases b <;> rfl
theorem bitOfGap_eq (g : GapId) : bitOfGap g = decide (Machine.gapNumber g = 1) := by cases g <;> rfl
theorem bufNumber_lt (b : BufId) : Machine.bufNumber b < 2 := by cases b <;> decide
theorem gapNumber_lt (g : GapId) : Machine.gapNumber g < 2 := by cases g <;> decide

/-- The sum in which the rules write their words is the word assembled from its fields (R81). -/
theorem fieldWord_eq_commandWord (op : Byte) (w : Width) (b : BufId) (g : GapId) :
    Machine.fieldWord op.toNat w (Machine.bufNumber b) (Machine.gapNumber g) = commandWord op w b g := by
  have hop := op.isLt
  have hw := w.isLt
  have hb := bufNumber_lt b
  have hg := gapNumber_lt g
  rw [cmdWord_eq_iff, opField_commandWord, wField_commandWord, bField_commandWord, gField_commandWord,
    reservedField_commandWord, ← BitVec.toNat_inj, opField_toNat, ← BitVec.toNat_inj, wField_toNat, bField_eq, bitOfBuf_eq,
    decide_eq_decide, gField_eq, bitOfGap_eq, decide_eq_decide, ← BitVec.toNat_inj, reservedField_toNat, Machine.fieldWord,
    BitVec.toNat_ofNat, BitVec.toNat_ofNat]
  omega

/-! ### The fields a format admits (R82, R85) -/

/-- The fields with which a word of the format is legal: 0 in a field the format does not use (R82), and a register number
below 10 (R85). -/
def Format.Admits : Format → Width → BufId → GapId → Prop
  | .n, w, buf, gap => w = 0#6 ∧ buf = .b0 ∧ gap = .g0
  | .r, w, buf, gap => registerNumberOk w ∧ buf = .b0 ∧ gap = .g0
  | .b, w, _, gap => w = 0#6 ∧ gap = .g0
  | .bw, _, _, gap => gap = .g0
  | .g, w, buf, _ => w = 0#6 ∧ buf = .b0
  | .bg, w, _, _ => w = 0#6
  | .bgw, _, _, _ => True

theorem Format.admits_iff (f : Format) (w : Width) (b : BufId) (g : GapId) :
    f.Admits w b g ↔ (formatUsesW f = false → w = 0#6) ∧ (formatUsesB f = false → b = .b0) ∧
      (formatUsesG f = false → g = .g0) ∧ (f = .r → registerNumberOk w) := by
  cases f <;> simp [Format.Admits, formatUsesW, formatUsesB, formatUsesG, and_comm, and_assoc]

/-- The fields of a word are admitted exactly if they pass the tests of R85. -/
theorem Format.admits_fields_iff (f : Format) (cw : CmdWord) :
    f.Admits (wField cw) (bufOfBit (bField cw)) (gapOfBit (gField cw)) ↔ (formatUsesW f = false → wField cw = 0#6) ∧
      (formatUsesB f = false → bField cw = false) ∧ (formatUsesG f = false → gField cw = false) ∧
      (f = .r → registerNumberOk (wField cw)) := by
  rw [f.admits_iff, bufOfBit_eq_b0_iff, gapOfBit_eq_g0_iff]

theorem opField_and (a b : CmdWord) : opField (a &&& b) = opField a &&& opField b := BitVec.extractLsb'_and
theorem wField_and (a b : CmdWord) : wField (a &&& b) = wField a &&& wField b := BitVec.extractLsb'_and
theorem bField_and (a b : CmdWord) : bField (a &&& b) = (bField a && bField b) := BitVec.getLsbD_and
theorem gField_and (a b : CmdWord) : gField (a &&& b) = (gField a && gField b) := BitVec.getLsbD_and
theorem reservedField_and (a b : CmdWord) : reservedField (a &&& b) = reservedField a &&& reservedField b :=
  BitVec.extractLsb'_and

/-! The mask of a format keeps the opcode, the reserved bits and the fields the format does not use (R82). -/

theorem opField_formatMask (f : Format) : opField (formatMask f) = BitVec.allOnes 8 := by cases f <;> rfl
theorem wField_formatMask (f : Format) : wField (formatMask f) = if formatUsesW f then 0#6 else BitVec.allOnes 6 := by
  cases f <;> rfl
theorem bField_formatMask (f : Format) : bField (formatMask f) = !formatUsesB f := by cases f <;> rfl
theorem gField_formatMask (f : Format) : gField (formatMask f) = !formatUsesG f := by cases f <;> rfl
theorem reservedField_formatMask (f : Format) : reservedField (formatMask f) = BitVec.allOnes 16 := by cases f <;> rfl

/-- A masked word is the opcode alone exactly if the word has that opcode and 0 in every other field the mask keeps (R85,
R86). -/
theorem and_formatMask_eq_iff (f : Format) (cw : CmdWord) (op : Byte) :
    cw &&& formatMask f = commandWord op 0#6 .b0 .g0 ↔ opField cw = op ∧ reservedField cw = 0#16 ∧
      (formatUsesW f = false → wField cw = 0#6) ∧ (formatUsesB f = false → bField cw = false) ∧
      (formatUsesG f = false → gField cw = false) := by
  have hW : (wField cw &&& if formatUsesW f then 0#6 else BitVec.allOnes 6) = 0#6 ↔
      (formatUsesW f = false → wField cw = 0#6) := by cases formatUsesW f <;> simp [-BitVec.reduceAllOnes]
  have hB : (bField cw && !formatUsesB f) = false ↔ (formatUsesB f = false → bField cw = false) := by
    cases formatUsesB f <;> simp
  have hG : (gField cw && !formatUsesG f) = false ↔ (formatUsesG f = false → gField cw = false) := by
    cases formatUsesG f <;> simp
  rw [cmdWord_eq_iff, opField_and, wField_and, bField_and, gField_and, reservedField_and, opField_formatMask,
    wField_formatMask, bField_formatMask, gField_formatMask, reservedField_formatMask, opField_commandWord, wField_commandWord,
    bField_commandWord, gField_commandWord, reservedField_commandWord, BitVec.and_allOnes, BitVec.and_allOnes, hW]
  simp only [bitOfBuf, bitOfGap, hB, hG]
  tauto

/-- The words a mask and a register range match are those assembled from the opcode and fields the format admits (R85). -/
theorem exists_commandWord_iff (f : Format) (cw : CmdWord) (op : Byte) :
    (∃ w b g, f.Admits w b g ∧ cw = commandWord op w b g) ↔
      cw &&& formatMask f = commandWord op 0#6 .b0 .g0 ∧ (f = .r → registerNumberOk (wField cw)) := by
  rw [and_formatMask_eq_iff]
  constructor
  · rintro ⟨w, b, g, hadm, rfl⟩
    obtain ⟨hw, hb, hg, hr⟩ := (f.admits_iff w b g).1 hadm
    simpa using ⟨⟨hw, hb, hg⟩, hr⟩
  · rintro ⟨⟨rfl, hres, hw, hb, hg⟩, hr⟩
    exact ⟨_, _, _, (f.admits_fields_iff cw).2 ⟨hw, hb, hg, hr⟩, (commandWord_fields hres).symm⟩

/-! ### The command map (R86) -/

/-- Each row is the row of its opcode: no two rows share one. -/
theorem rowOf_opcode : ∀ row ∈ commandRows, rowOf row.opcode = some row := by
  simp [commandRows, rowOf]

/-- The word of a row, with fields its format admits, decodes to what the row builds from them (R83, R85). -/
theorem decode_commandWord {row : Row} (hrow : row ∈ commandRows) {w : Width} {b : BufId} {g : GapId}
    (hadm : row.format.Admits w b g) (arg : Word) :
    decode (commandWord row.opcode w b g) arg = .ok (row.build w b g arg) := by
  obtain ⟨hw, hb, hg, hr⟩ := (row.format.admits_iff w b g).1 hadm
  have hw' : ¬ (¬ formatUsesW row.format ∧ w ≠ 0#6) := by simpa using hw
  have hb' : ¬ (¬ formatUsesB row.format ∧ bitOfBuf b) := by simpa using hb
  have hg' : ¬ (¬ formatUsesG row.format ∧ bitOfGap g) := by simpa using hg
  have hr' : ¬ (row.format = .r ∧ ¬ registerNumberOk w) := by simpa using hr
  simp only [decode, reservedField_commandWord, opField_commandWord, wField_commandWord, bField_commandWord,
    gField_commandWord, rowOf_opcode row hrow, bufOfBit_bitOfBuf, gapOfBit_bitOfGap, ne_eq, not_true_eq_false, if_false,
    if_neg hw', if_neg hb', if_neg hg', if_neg hr']

/-- What decodes is the word of a row with fields its format admits, and it decodes to what the row builds from them. -/
theorem decode_eq_ok_iff {cw : CmdWord} {arg : Word} {i : Instr} :
    decode cw arg = .ok i ↔ ∃ row ∈ commandRows, ∃ w b g, row.format.Admits w b g ∧ cw = commandWord row.opcode w b g ∧
      i = row.build w b g arg := by
  constructor
  · intro h
    obtain ⟨row, hrow, hres, hw, hb, hg, hr, rfl⟩ := decode_ok_cases h
    obtain ⟨hmem, hop⟩ := rowOf_some hrow
    exact ⟨row, hmem, _, _, _, (row.format.admits_fields_iff cw).2 ⟨hw, hb, hg, hr⟩,
      by rw [hop, commandWord_fields hres], rfl⟩
  · rintro ⟨row, hrow, w, b, g, hadm, rfl, rfl⟩
    exact decode_commandWord hrow hadm arg

/-- Each well-formed command is built by a row, from fields its format admits and from the operand it encodes to. -/
theorem exists_row_of_wellFormed {i : Instr} (h : i.wellFormed = true) :
    ∃ row ∈ commandRows, ∃ w b g arg, row.format.Admits w b g ∧ encode i = (commandWord row.opcode w b g, arg) ∧
      row.build w b g arg = i := by
  suffices hrow : ∃ row, rowOf i.opcode = some row ∧ ∃ w b g arg, row.format.Admits w b g ∧
      encode i = (commandWord i.opcode w b g, arg) ∧ row.build w b g arg = i by
    obtain ⟨row, hfound, hbuilt⟩ := hrow
    obtain ⟨hmem, hop⟩ := rowOf_some hfound
    exact ⟨row, hmem, hop ▸ hbuilt⟩
  cases i with
  | reset => exact ⟨_, rfl, _, _, _, _, ⟨rfl, rfl, rfl⟩, rfl, rfl⟩
  | rdreg r => exact ⟨_, rfl, _, _, _, _, ⟨of_decide_eq_true h, rfl, rfl⟩, rfl, rfl⟩
  | wrreg r value => exact ⟨_, rfl, _, _, _, _, ⟨of_decide_eq_true h, rfl, rfl⟩, rfl, rfl⟩
  | setbit b pos => exact ⟨_, rfl, _, _, _, _, ⟨rfl, rfl⟩, rfl, rfl⟩
  | getbit b pos => exact ⟨_, rfl, _, _, _, _, ⟨rfl, rfl⟩, rfl, rfl⟩
  | append b w value => exact ⟨_, rfl, _, _, _, _, rfl, rfl, rfl⟩
  | readf b w offset => exact ⟨_, rfl, _, _, _, _, rfl, rfl, rfl⟩
  | bbclr b => exact ⟨_, rfl, _, _, _, _, ⟨rfl, rfl⟩, rfl, rfl⟩
  | extract b g n => exact ⟨_, rfl, _, _, _, _, rfl, rfl, rfl⟩
  | gaprd g index => exact ⟨_, rfl, _, _, _, _, ⟨rfl, rfl⟩, rfl, rfl⟩
  | gapwr g index value =>
    exact ⟨_, rfl, _, _, _, _, ⟨rfl, rfl⟩, rfl, congrArg₂ _ (gapwrIndex_gapwrArg _ _) (gapwrValue_gapwrArg _ _)⟩
  | optFw g => exact ⟨_, rfl, _, _, _, _, ⟨rfl, rfl⟩, rfl, rfl⟩
  | optRg g => exact ⟨_, rfl, _, _, _, _, ⟨rfl, rfl⟩, rfl, rfl⟩
  | encFw b g w => exact ⟨_, rfl, _, _, _, _, trivial, rfl, rfl⟩
  | decFw b g w count => exact ⟨_, rfl, _, _, _, _, trivial, rfl, rfl⟩
  | encRg b g w => exact ⟨_, rfl, _, _, _, _, trivial, rfl, rfl⟩
  | decRg b g w count => exact ⟨_, rfl, _, _, _, _, trivial, rfl, rfl⟩

/-- What a row builds from fields its format admits is well-formed and encodes to the row's word with those fields: read off
the map row by row, a field the format does not use being the 0 the encoder writes. -/
theorem encode_build : ∀ row ∈ commandRows, ∀ w b g arg, row.format.Admits w b g →
    (encode (row.build w b g arg)).1 = commandWord row.opcode w b g ∧ (row.build w b g arg).wellFormed = true := by
  simp +contextual [commandRows, Format.Admits, encode, Instr.opcode, Instr.wellFormed]

/-- R86's table, read off the command map: mask, match, and whether the row names a register. -/
theorem commandTable_eq :
    commandTable = commandRows.map fun row => ((formatMask row.format).toNat, row.opcode.toNat, row.format == .r) := rfl

/-- What the rows with these opcodes build does not depend on the operand (R83). -/
theorem build_arg_ignored : ∀ row ∈ commandRows, row.opcode.toNat ∈ [0x01, 0x02, 0x14, 0x30, 0x31, 0x40, 0x50] →
    ∀ w b g arg arg', row.build w b g arg = row.build w b g arg' := by
  simp [commandRows]

theorem commandWord_opcode_toNat (op : Byte) : (commandWord op 0#6 .b0 .g0).toNat = op.toNat := by
  have hop : op.toNat < 2 ^ 32 := op.isLt.trans (by decide)
  simpa [commandWord, bitOfBuf, bitOfGap] using hop

/-- A word passes a row's line of R86's table exactly if it is the row's word with some fields its format admits. -/
theorem tableRow_matches_iff (cw : CmdWord) (row : Row) :
    (cw.toNat &&& (formatMask row.format).toNat = row.opcode.toNat ∧
        ((row.format == .r) = true → cw.toNat / 256 % 64 < 10)) ↔
      ∃ w b g, row.format.Admits w b g ∧ cw = commandWord row.opcode w b g := by
  rw [exists_commandWord_iff, ← BitVec.toNat_inj, BitVec.toNat_and, commandWord_opcode_toNat, beq_iff_eq, registerNumberOk,
    wField_toNat]

/-- The row of a word its mask matches is the row of the word's opcode, so there is one only (R85). -/
theorem rowOf_opField_of_matches {cw : CmdWord} {row : Row} (hrow : row ∈ commandRows)
    (h : cw.toNat &&& (formatMask row.format).toNat = row.opcode.toNat) : rowOf (opField cw) = some row := by
  rw [← BitVec.toNat_and, ← commandWord_opcode_toNat, BitVec.toNat_inj, and_formatMask_eq_iff] at h
  obtain ⟨hop, -⟩ := h
  rw [hop, rowOf_opcode row hrow]

/-! ### Decoding and encoding agree -/

/-- Settles O2: the row that builds a command decodes the command's word. -/
theorem decodeOfEncode : Obligations.DecodeOfEncode := by
  intro i hi
  obtain ⟨row, hrow, w, b, g, arg, hadm, henc, hbuild⟩ := exists_row_of_wellFormed hi
  rw [henc, decode_commandWord hrow hadm, hbuild]

/-- Settles O4: what decodes was built by a row, from the fields of the word. -/
theorem decodeDeterminesWord : Obligations.DecodeDeterminesWord := by
  intro cw arg i h
  obtain ⟨row, hrow, w, b, g, hadm, rfl, rfl⟩ := decode_eq_ok_iff.1 h
  exact encode_build row hrow w b g arg hadm

/-- Settles O3: R86's table lists the masks and opcodes of the rows, and a row's mask matches the words of that row. -/
theorem decodeAcceptsByMask : Obligations.DecodeAcceptsByMask := by
  intro cw arg
  rw [commandTable_eq]
  refine ⟨⟨?accepted, ?matched⟩, ?disjoint⟩
  case accepted =>
    rintro ⟨i, h⟩
    obtain ⟨row, hrow, w, b, g, hadm, hcw, -⟩ := decode_eq_ok_iff.1 h
    exact ⟨_, List.mem_map_of_mem hrow, (tableRow_matches_iff cw row).2 ⟨w, b, g, hadm, hcw⟩⟩
  case matched =>
    rintro ⟨_, hmem, h⟩
    obtain ⟨row, hrow, rfl⟩ := List.mem_map.1 hmem
    obtain ⟨w, b, g, hadm, rfl⟩ := (tableRow_matches_iff cw row).1 h
    exact ⟨_, decode_commandWord hrow hadm arg⟩
  case disjoint =>
    simp only [List.forall_mem_map]
    intro row hrow row' hrow' h h'
    have hsame : some row = some row' := by rw [← rowOf_opField_of_matches hrow h, rowOf_opField_of_matches hrow' h']
    rw [Option.some.inj hsame]

/-- Settles O6: an operand reaches the command only through what the row of the word's opcode builds. -/
theorem ignoredOperand : Obligations.IgnoredOperand := by
  intro cw arg arg' hop
  rw [← opField_toNat] at hop
  unfold decode
  cases hrow : rowOf (opField cw) with
  | none => rfl
  | some row =>
    obtain ⟨hmem, hopcode⟩ := rowOf_some hrow
    simp only [build_arg_ignored row hmem (hopcode ▸ hop) _ _ _ arg arg']

/-- Settles O1, by evaluation. -/
theorem decodeOfSpecWords : Obligations.DecodeOfSpecWords := by
  unfold Obligations.DecodeOfSpecWords
  decide

theorem gapwrIndex_eq (arg : Word) : gapwrIndex arg = BitVec.ofNat 32 (arg.toNat / 2 ^ 32) :=
  BitVec.eq_of_toNat_eq (by simp [gapwrIndex, Nat.shiftRight_eq_div_pow])
theorem gapwrValue_eq (arg : Word) : gapwrValue arg = BitVec.ofNat 32 (arg.toNat % 2 ^ 32) :=
  BitVec.eq_of_toNat_eq (by simp [gapwrValue])

/-- Settles O5: the word is GAPWR's, whose row splits the operand (R84). -/
theorem gapwrOperandSplit : Obligations.GapwrOperandSplit := by
  intro g arg
  have hrow : ⟨0x22#8, .g, fun _ _ g arg => .gapwr g (gapwrIndex arg) (gapwrValue arg)⟩ ∈ commandRows := by
    simp [commandRows]
  have hword : Machine.fieldWord 0x22 0#6 0 (Machine.gapNumber g) = commandWord 0x22#8 0#6 .b0 g :=
    fieldWord_eq_commandWord 0x22#8 0#6 .b0 g
  rw [hword, decode_commandWord hrow ⟨rfl, rfl⟩, ← gapwrIndex_eq, ← gapwrValue_eq]

end Sys2Proof

namespace Sys2Proof
namespace Machine

/-! ### The codes of R92 and R93 and their costs (R94, R95) -/

/-- A bit string has as many bits as its fields together (R91). -/
theorem streamOf_length (fields : List (Nat × Nat)) : (streamOf fields).length = fieldsLen fields := by
  simp [streamOf, fieldsLen, fieldBits, List.length_flatMap]

theorem streamOf_append (xs ys : List (Nat × Nat)) : streamOf (xs ++ ys) = streamOf xs ++ streamOf ys :=
  List.flatMap_append
theorem streamOf_flatMap (fields : Nat → List (Nat × Nat)) (gaps : List Nat) :
    streamOf (gaps.flatMap fields) = gaps.flatMap fun g => streamOf (fields g) := List.flatMap_assoc
theorem fieldsLen_append (xs ys : List (Nat × Nat)) : fieldsLen (xs ++ ys) = fieldsLen xs + fieldsLen ys := by
  simp [fieldsLen]

/-- The fields of a code written gap by gap have as many bits as those of each gap together. -/
theorem fieldsLen_flatMap (fields : Nat → List (Nat × Nat)) (gaps : List Nat) :
    fieldsLen (gaps.flatMap fields) = (gaps.map fun g => fieldsLen (fields g)).sum := by
  induction gaps with
  | nil => rfl
  | cons g gaps ih => rw [List.flatMap_cons, fieldsLen_append, ih, List.map_cons, List.sum_cons]

/-- Every field of the fixed-width code is `w` bits wide (R92, R173). -/
theorem fieldsLen_fieldsFW (w : Nat) (gaps : List Nat) : fieldsLen (fieldsFW w gaps) = bitsFW gaps w := by
  rw [fieldsFW, fieldsLen_flatMap, bitsFW, wordsFW, ← List.sum_map_mul_left]
  congr 1
  refine List.map_congr_left fun g _ => ?_
  simp [fieldsLen, sentinel, Nat.mul_comm, Nat.mul_add]

theorem fieldsFW_length (w : Nat) (gaps : List Nat) : (fieldsFW w gaps).length = wordsFW gaps w := by
  simp [fieldsFW, wordsFW, sentinel, List.length_flatMap]

/-- The Rice-Golomb code of a gap is its unary quotient, a terminator and `w` bits of remainder (R93, R174). -/
theorem fieldsLen_fieldsRG (w : Nat) (gaps : List Nat) : fieldsLen (fieldsRG w gaps) = bitsRG gaps w := by
  rw [fieldsRG, fieldsLen_flatMap, bitsRG]
  congr 1
  refine List.map_congr_left fun g _ => ?_
  simp [fieldsLen, add_assoc]

theorem fieldsRG_length (w : Nat) (gaps : List Nat) : (fieldsRG w gaps).length = wordsRG gaps w := by
  simp [fieldsRG, wordsRG, List.length_flatMap]

/-- Settles O39: bits and fields are counted field by field, `bitsFW` and `bitsRG` being the formulas of R94. -/
theorem streamLengthIsCost : Obligations.StreamLengthIsCost := by
  intro gaps w
  have hFW : (streamOf (fieldsFW w gaps)).length = bitsFW gaps w := by rw [streamOf_length, fieldsLen_fieldsFW]
  have hRG : (streamOf (fieldsRG w gaps)).length = bitsRG gaps w := by rw [streamOf_length, fieldsLen_fieldsRG]
  exact ⟨fun _ => ⟨hFW, hFW, fieldsFW_length w gaps⟩, hRG, hRG, fieldsRG_length w gaps⟩

/-- At Rice-Golomb width 0 a gap's terminator is followed by an empty remainder; at fixed width 1 its sentinels are one-bits and
its last field is the zero-bit: the two codes of a gap are one bit string (R95). -/
theorem streamOf_unary (gaps : List Nat) : streamOf (fieldsRG 0 gaps) = streamOf (fieldsFW 1 gaps) := by
  rw [fieldsRG, fieldsFW, streamOf_flatMap, streamOf_flatMap]
  refine List.flatMap_congr fun g _ => ?_
  have hlast : streamOf [(1, 0), (0, g % 1)] = streamOf [(1, g % 1)] := by
    rw [Nat.mod_one]
    rfl
  rw [pow_zero, pow_one, Nat.add_one_sub_one, streamOf_append, streamOf_append, hlast]

/-- Settles O41, from `streamOf_unary` and the costs at widths 0 and 1. -/
theorem unaryStreamsAgree : Obligations.UnaryStreamsAgree := by
  intro gaps
  refine ⟨streamOf_unary gaps, ?_, ?_, ?_⟩
  · rw [streamOf_length, fieldsLen_fieldsFW]; simp [bitsFW, wordsFW, sentinel]
  · rw [fieldsFW_length]; simp [wordsFW, sentinel]
  · rw [fieldsRG_length]; simp [wordsRG]

end Machine
end Sys2Proof

namespace Sys2Proof

/-! ### The words of the rules (R81) -/

/-- The word a rule writes by its fields, which the format of its opcode's row admits, decodes to what that row builds. -/
theorem decode_fieldWord {op : Byte} {row : Row} (hrow : rowOf op = some row) {w : Width} {b : BufId} {g : GapId}
    (hadm : row.format.Admits w b g) (arg : Word) :
    decode (Machine.fieldWord op.toNat w (Machine.bufNumber b) (Machine.gapNumber g)) arg = .ok (row.build w b g arg) := by
  obtain ⟨hmem, rfl⟩ := rowOf_some hrow
  rw [fieldWord_eq_commandWord, decode_commandWord hmem hadm]

namespace Machine

/-! ### Errors that change nothing but FAULT (R252, R256) -/

theorem faultCode_eq_zero_iff (f : Word) : faultCode f = 0#8 ↔ f.toNat % 256 = 0 := by
  simp [faultCode, ← BitVec.toNat_inj]

/-- The record of an error is the number its two bytes make (R25). -/
theorem faultRecord_eq_ofNat (op code : Byte) : faultRecord op code = BitVec.ofNat 64 (256 * op.toNat + code.toNat) := by
  have hop := op.isLt
  have hor : op.toNat <<< 8 ||| code.toNat = 256 * op.toNat + code.toNat := by
    rw [Nat.shiftLeft_eq, Nat.mul_comm, ← Nat.two_pow_add_eq_or_of_lt code.isLt]
  have hshift : op.toNat <<< 8 < 2 ^ 64 := by
    rw [Nat.shiftLeft_eq]
    omega
  apply BitVec.eq_of_toNat_eq
  rw [faultRecord, BitVec.toNat_or, BitVec.toNat_shiftLeft, BitVec.toNat_setWidth_of_le (by decide),
    BitVec.toNat_setWidth_of_le (by decide), Nat.mod_eq_of_lt hshift, hor, BitVec.toNat_ofNat]
  omega

theorem updateFault_eq_faultAfter (f : Word) (op code : Byte) :
    updateFault f op code = faultAfter f op.toNat code.toNat := by
  simp only [updateFault, faultAfter, faultCode_eq_zero_iff, faultRecord_eq_ofNat]

/-- An error taken in the state the command found changes nothing but FAULT. -/
theorem State.takeError_onlyError (s : State) (op : Byte) (e : Error) :
    onlyError op.toNat (errorCode e).toNat s (s.takeError op e) := by
  refine ⟨⟨rfl, rfl, rfl⟩, fun b p => by simp, fun g i => by simp, ?fault, ?answer⟩
  case fault => rw [State.takeError_regs, updateFault_eq_faultAfter]; rfl
  case answer => rw [answered, State.takeError_responses, BitVec.ofNat_toNat, BitVec.setWidth_eq]

/-- A command whose procedure raises before it wrote anything. -/
theorem conclude_raised_onlyError (op : Byte) (e : Error) (s : State) :
    ∃ t, conclude op (.raised e s) = .next t ∧ onlyError op.toNat (errorCode e).toNat s t :=
  ⟨_, rfl, s.takeError_onlyError op e⟩

/-! ### The test of positions against the capacity (R60) -/

section
variable {s : State} {b : BufId} {o k : Nat}

theorem guard_of_inCapacity (h : o + k ≤ s.capBits b) (r r' : Ended Nat) : (if s.inCapacity b o k then r else r') = r :=
  if_pos ((s.inCapacity_iff b o k).2 h)
theorem guard_of_outsideCapacity (h : s.capBits b < o + k) (r r' : Ended Nat) :
    (if s.inCapacity b o k then r else r') = r' :=
  if_neg fun hin => absurd ((s.inCapacity_iff b o k).1 hin) (Nat.not_le.2 h)

/-- A command on positions not all below the capacity is refused with nothing written. -/
theorem guard_onlyError (h : s.capBits b < o + k) (op : Byte) (r : Ended Nat) :
    ∃ t, conclude op (if s.inCapacity b o k then r else .raised .capacityViolation s) = .next t ∧ onlyError op.toNat 3 s t := by
  rw [guard_of_outsideCapacity h]
  exact conclude_raised_onlyError op .capacityViolation s

end

/-! ### Single bits (R121, R122) -/

theorem exec_setbit (s : State) (b : BufId) (pos : Word) : exec (.setbit b pos) s = execSetbit b pos s := rfl
theorem exec_getbit (s : State) (b : BufId) (pos : Word) : exec (.getbit b pos) s = execGetbit b pos s := rfl

theorem execSetbit_of_lt {s : State} {b : BufId} {pos : Word} (h : pos.toNat < s.capBits b) :
    execSetbit b pos s = .next ((s.putBit b pos.toNat true).respond statusOk 0#64) := by
  rw [execSetbit, guard_of_inCapacity h, conclude_returned]
theorem execGetbit_of_lt {s : State} {b : BufId} {pos : Word} (h : pos.toNat < s.capBits b) :
    execGetbit b pos s = .next (s.respond statusOk (if s.bit b pos.toNat then 1#64 else 0#64)) := by
  rw [execGetbit, guard_of_inCapacity h, conclude_returned]
  cases s.bit b pos.toNat <;> rfl

/-- Settles O23, by the capacity test: inside it the command is one `PutBit` (R55). -/
theorem setbitSetsOneBit : Obligations.SetbitSetsOneBit := by
  intro s b pos
  rw [exec_setbit]
  refine ⟨decode_fieldWord (op := 0x10#8) (g := .g0) rfl ⟨rfl, rfl⟩ pos, fun hin => ?inside, fun hout => ?outside⟩
  case inside =>
    exact ⟨_, execSetbit_of_lt hin, fun b' p => by simp, fun g i => by simp, rfl, ⟨rfl, rfl, rfl⟩, rfl⟩
  case outside => exact guard_onlyError (Nat.lt_succ_of_le hout) 0x10#8 _

/-- Settles O24, by the capacity test: inside it the state is left as it was and the answer is the bit. -/
theorem getbitReturnsBit : Obligations.GetbitReturnsBit := by
  intro s b pos
  rw [exec_getbit]
  refine ⟨decode_fieldWord (op := 0x11#8) (g := .g0) rfl ⟨rfl, rfl⟩ pos, fun hin => ?inside, fun hout => ?outside⟩
  case inside => exact ⟨_, execGetbit_of_lt hin, rfl, rfl, ⟨rfl, rfl, rfl⟩, rfl⟩
  case outside => exact guard_onlyError (Nat.lt_succ_of_le hout) 0x11#8 _

/-! ### Fields (R123, R124, R128) -/

theorem exec_append (s : State) (b : BufId) (w : Width) (v : Word) : exec (.append b w v) s = execAppend b w v s := rfl
theorem exec_readf (s : State) (b : BufId) (w : Width) (o : Word) : exec (.readf b w o) s = execReadf b w o s := rfl

section
variable {s : State} {b : BufId} {w : Width} {v o : Word}

/-- APPEND of a value that fits its width ends as `Append` does (R59). -/
theorem execAppend_of_fitsWidth (hv : v.toNat < 2 ^ w.toNat) :
    execAppend b w v s = conclude 0x12#8 (s.append b w.toNat v.toNat) := by
  rw [execAppend, if_pos ((fitsWidth_iff w v).2 hv)]
  rfl

theorem execAppend_fits (hv : v.toNat < 2 ^ w.toNat) (hcap : (s.len b).toNat + w.toNat ≤ s.capBits b) :
    execAppend b w v s = .next (((s.putField b (s.len b).toNat w.toNat v.toNat).setLen b
      (BitVec.ofNat 64 ((s.len b).toNat + w.toNat))).respond statusOk (s.len b)) := by
  rw [execAppend_of_fitsWidth hv, State.append_fits hcap, conclude_returned, BitVec.ofNat_toNat, BitVec.setWidth_eq]

theorem execAppend_wide (hv : 2 ^ w.toNat ≤ v.toNat) : ∃ t, execAppend b w v s = .next t ∧ onlyError 0x12 2 s t := by
  rw [execAppend, if_neg fun hfits => absurd ((fitsWidth_iff w v).1 hfits) (Nat.not_lt.2 hv)]
  exact conclude_raised_onlyError 0x12#8 .argumentError s

theorem execAppend_full (hv : v.toNat < 2 ^ w.toNat) (hcap : s.capBits b < (s.len b).toNat + w.toNat) :
    ∃ t, execAppend b w v s = .next t ∧ onlyError 0x12 3 s t := by
  rw [execAppend_of_fitsWidth hv, State.append_full hcap]
  exact conclude_raised_onlyError 0x12#8 .capacityViolation s

theorem execReadf_inCapacity (h : o.toNat + w.toNat ≤ s.capBits b) :
    execReadf b w o s = .next (s.respond statusOk (BitVec.ofNat 64 (s.getField b o.toNat w.toNat))) := by
  rw [execReadf, guard_of_inCapacity h, conclude_returned]

end

/-- A field of at most 64 bits is answered bit for bit (R56). -/
theorem State.getField_getLsbD (s : State) (b : BufId) (o : Nat) {k : Nat} (hk : k ≤ 64) (i : Nat) :
    (BitVec.ofNat 64 (s.getField b o k)).getLsbD i = (decide (i < k) && s.bit b (o + i)) := by
  rw [BitVec.getLsbD_ofNat, State.getField_testBit]
  by_cases hi : i < k
  · simp [hi, hi.trans_le hk]
  · simp [hi]

/-- A field whose positions hold the bits of a value that fits it reads as that value. -/
theorem State.getField_eq_of_bits {s : State} {b : BufId} {o k v : Nat} (hv : v < 2 ^ k)
    (hbits : ∀ i, i < k → s.bit b (o + i) = v.testBit i) : s.getField b o k = v := by
  apply Nat.eq_of_testBit_eq
  intro i
  rw [State.getField_testBit]
  by_cases hi : i < k
  · simp [hi, hbits i hi]
  · simp [hi, testBit_eq_false_of_width_le hv (Nat.le_of_not_lt hi)]

/-- Settles O25, by the two tests of R123 in their order: the value against the width, the field against the capacity. -/
theorem appendWritesField : Obligations.AppendWritesField := by
  intro s b w v _
  rw [exec_append]
  refine ⟨decode_fieldWord (op := 0x12#8) (g := .g0) rfl rfl v, fun hv hcap => ?_, execAppend_wide, execAppend_full⟩
  refine ⟨_, execAppend_fits hv hcap, fun b' p => ?bits, fun g i => by simp, rfl, ⟨rfl, rfl, rfl⟩, rfl⟩
  case bits => rw [State.respond_bit, State.setLen_bit, State.putField_bit, BitVec.testBit_toNat]

/-- Settles O26, by the capacity test: inside it the answer is `GetField` (R56), of at most 63 bits. -/
theorem readfReturnsField : Obligations.ReadfReturnsField := by
  intro s b w o
  rw [exec_readf]
  refine ⟨decode_fieldWord (op := 0x13#8) (g := .g0) rfl rfl o, fun hin => ?inside, fun hout => ?outside⟩
  case inside =>
    have hw : w.toNat ≤ 64 := w.isLt.le
    exact ⟨_, _, execReadf_inCapacity hin, rfl, rfl, ⟨rfl, rfl, rfl⟩, rfl, s.getField_getLsbD b o.toNat hw⟩
  case outside => exact guard_onlyError hout 0x13#8 _

/-- Settles O27: the positions read back are those the APPEND wrote, and the capacity is the one it was tested against. -/
theorem readfAfterAppend : Obligations.ReadfAfterAppend := by
  intro s b w v _ hv hcap
  rw [exec_append]
  refine ⟨_, _, s.len b, execAppend_fits hv hcap, rfl, execReadf_inCapacity (by simpa using hcap), ?_⟩
  rw [State.getField_eq_of_bits hv fun i hi => by simp [hi], BitVec.ofNat_toNat, BitVec.setWidth_eq]
  rfl

/-! ### Clearing (R125) -/

/-- A word after words `0 .. n-1` of a buffer are cleared. -/
theorem State.clear_word (s : State) (b b' : BufId) (n k : Nat) :
    (s.setBuf b (bufClear (s.buf b) n)).word b' k = if b' = b ∧ k < n then 0#64 else s.word b' k := by
  apply BitVec.eq_of_getLsbD_eq
  intro i hi
  have hword : 64 * k + i < 64 * n ↔ k < n := by omega
  by_cases hb : b' = b
  · subst hb
    rw [State.word_getLsbD _ _ _ _ hi, State.setBuf_bit, if_pos rfl, bufBit_bufClear, ← State.bit_eq_bufBit]
    by_cases hk : k < n
    · simp [hword, hk]
    · simp [hword, hk, State.word_getLsbD _ _ _ _ hi]
  · simp [hb, State.word_getLsbD _ _ _ _ hi]

theorem exec_bbclr (s : State) (b : BufId) : exec (.bbclr b) s =
    .next (((s.setBuf b (bufClear (s.buf b) (s.capw b).toNat)).setLen b 0#64).respond statusOk 0#64) := rfl

/-- Settles O28: BBCLR has one way to end, and its words are those of `State.clear_word`. -/
theorem bbclrZeroesWindow : Obligations.BbclrZeroesWindow := by
  intro s b arg
  refine ⟨decode_fieldWord (op := 0x14#8) (g := .g0) rfl ⟨rfl, rfl⟩ arg, _, exec_bbclr s b, fun b' k => ?words,
    fun g i => by simp, rfl, ⟨rfl, rfl, rfl⟩, rfl⟩
  case words => rw [State.respond_word, State.setLen_word, State.clear_word]

end Machine
end Sys2Proof

/-! ## The family of spec/41_gap_extractor.md: one entry of a gap memory, and the gap sequence of a bit vector -/

namespace Sys2Proof

namespace Machine

/-! ### The test of an index against the gap memory (R61) -/

section
variable {s : State} {i : Nat}

theorem guard_of_gapIndexOk {α : Type} (h : i < s.params.gapEntries) (r r' : Ended α) :
    (if s.gapIndexOk i then r else r') = r :=
  if_pos ((s.gapIndexOk_iff i).2 h)
theorem guard_of_gapIndexBad {α : Type} (h : s.params.gapEntries ≤ i) (r r' : Ended α) :
    (if s.gapIndexOk i then r else r') = r' :=
  if_neg fun hin => absurd ((s.gapIndexOk_iff i).1 hin) (Nat.not_lt.2 h)

/-- A command on an entry outside the gap memory is refused with nothing written. -/
theorem gapIndexBad_onlyError (h : s.params.gapEntries ≤ i) (op : Byte) (r : Ended Nat) :
    ∃ t, conclude op (if s.gapIndexOk i then r else .raised .gapCapacityViolation s) = .next t ∧
      onlyError op.toNat 5 s t := by
  rw [guard_of_gapIndexBad h]
  exact conclude_raised_onlyError op .gapCapacityViolation s

end

/-! ### Single entries (R152, R153) -/

theorem exec_gaprd (s : State) (g : GapId) (i : Word) : exec (.gaprd g i) s = execGaprd g i s := rfl
theorem exec_gapwr (s : State) (g : GapId) (i v : BitVec 32) : exec (.gapwr g i v) s = execGapwr g i v s := rfl

theorem execGaprd_of_lt {s : State} {g : GapId} {i : Word} (h : i.toNat < s.params.gapEntries) :
    execGaprd g i s = .next (s.respond statusOk ((s.gapRead g i.toNat).setWidth 64)) := by
  rw [execGaprd, guard_of_gapIndexOk h, conclude_returned, BitVec.ofNat_toNat]
theorem execGapwr_of_lt {s : State} {g : GapId} {i v : BitVec 32} (h : i.toNat < s.params.gapEntries) :
    execGapwr g i v s = .next ((s.gapWrite g i.toNat v).respond statusOk 0#64) := by
  rw [execGapwr, guard_of_gapIndexOk h, conclude_returned]

/-- Settles O33, by the index test: inside the memory the state is left as it was and the answer is the entry. -/
theorem gaprdReturnsEntry : Obligations.GaprdReturnsEntry := by
  intro s g i
  rw [exec_gaprd]
  refine ⟨decode_fieldWord (op := 0x21#8) (b := .b0) rfl ⟨rfl, rfl⟩ i, fun hin => ?inside, fun hout => ?outside⟩
  case inside => exact ⟨_, execGaprd_of_lt hin, rfl, rfl, ⟨rfl, rfl, rfl⟩, rfl⟩
  case outside => exact gapIndexBad_onlyError hout 0x21#8 _

/-- GAPWR's word with index and value packed as numbers into the operand (R84) decodes to the command with both. -/
theorem decode_gapwr (g : GapId) (i v : BitVec 32) :
    decode (fieldWord 0x22 0#6 0 (gapNumber g)) (BitVec.ofNat 64 (2 ^ 32 * i.toNat + v.toNat)) = .ok (.gapwr g i v) := by
  have hv := v.isLt
  have harg : (BitVec.ofNat 64 (2 ^ 32 * i.toNat + v.toNat)).toNat = 2 ^ 32 * i.toNat + v.toNat := by
    rw [BitVec.toNat_ofNat]
    omega
  have hindex : (2 ^ 32 * i.toNat + v.toNat) / 2 ^ 32 = i.toNat := by omega
  have hvalue : (2 ^ 32 * i.toNat + v.toNat) % 2 ^ 32 = v.toNat := by omega
  rw [gapwrOperandSplit g, harg, hindex, hvalue, BitVec.ofNat_toNat, BitVec.ofNat_toNat, BitVec.setWidth_eq,
    BitVec.setWidth_eq]

/-- Settles O34, by the index test: inside the memory the command is one `GapWrite` (R61). -/
theorem gapwrWritesEntry : Obligations.GapwrWritesEntry := by
  intro s g i v
  rw [exec_gapwr]
  refine ⟨decode_gapwr g i v, fun hin => ?inside, fun hout => ?outside⟩
  case inside =>
    exact ⟨_, execGapwr_of_lt hin, fun g' k => by simp, fun b p => by simp, rfl, ⟨rfl, rfl, rfl⟩, rfl⟩
  case outside => exact gapIndexBad_onlyError hout 0x22#8 _

/-! ### Writing a list of entries -/

/-- The store with the numbers of a list as its entries from entry `k` on. -/
def storePutGaps (m : Store Gap) (k : Nat) : List Nat → Store Gap
  | [] => m
  | x :: xs => storePutGaps (storeSet m k (BitVec.ofNat 32 x)) (k + 1) xs

/-- `GapWrite` of the numbers of a list, from entry `k` on (R61). -/
def State.writeGaps (s : State) (g : GapId) (k : Nat) (xs : List Nat) : State :=
  s.setGaps g (storePutGaps (s.gaps g) k xs)

theorem State.writeGaps_nil (s : State) (g : GapId) (k : Nat) : s.writeGaps g k [] = s := by cases g <;> rfl
theorem State.writeGaps_cons (s : State) (g : GapId) (k x : Nat) (xs : List Nat) :
    s.writeGaps g k (x :: xs) = (s.gapWrite g k (BitVec.ofNat 32 x)).writeGaps g (k + 1) xs := by cases g <;> rfl

@[simp] theorem State.writeGaps_regs (s : State) (g : GapId) (k : Nat) (xs : List Nat) :
    (s.writeGaps g k xs).regs = s.regs := rfl
@[simp] theorem State.writeGaps_bit (s : State) (g : GapId) (k : Nat) (xs : List Nat) (b : BufId) (p : Nat) :
    (s.writeGaps g k xs).bit b p = s.bit b p := by simp [State.writeGaps]

theorem overlay_cons_zero (x : Nat) (xs : List Nat) (old : Gap) : overlay (x :: xs) 0 old = BitVec.ofNat 32 x := rfl
theorem overlay_cons_succ (x : Nat) (xs : List Nat) (i : Nat) (old : Gap) :
    overlay (x :: xs) (i + 1) old = overlay xs i old := rfl

/-- Below entry `k` nothing is written; from there on the entries are those of the list, as far as it goes. -/
theorem State.writeGaps_gapRead (s : State) (g g' : GapId) (k i : Nat) (xs : List Nat) :
    (s.writeGaps g k xs).gapRead g' i =
      if g' = g ∧ k ≤ i then overlay xs (i - k) (s.gapRead g i) else s.gapRead g' i := by
  induction xs generalizing k s with
  | nil =>
    rw [State.writeGaps_nil]
    split
    · next h => rw [h.1]; rfl
    · rfl
  | cons x xs ih =>
    rw [State.writeGaps_cons, ih, State.gapWrite_gapRead, State.gapWrite_gapRead]
    rcases Nat.lt_trichotomy i k with hlt | rfl | hgt
    · simp [hlt.ne, Nat.not_le.2 hlt, Nat.not_le.2 (hlt.trans (Nat.lt_succ_self k))]
    · simp [overlay_cons_zero]
    · obtain ⟨j, rfl⟩ := Nat.exists_eq_add_of_lt hgt
      have hsub : k + j + 1 - k = (k + j + 1 - (k + 1)) + 1 := by omega
      have hne : k + j + 1 ≠ k := by omega
      have hle : k + 1 ≤ k + j + 1 := by omega
      simp only [hsub, overlay_cons_succ, hne, hle, Nat.le_of_lt hgt, and_true, and_false, if_false]

/-- A state that reads as one with a list written from entry 0 on holds that list. -/
theorem gapsAre_of_writeGaps {s t : State} {g : GapId} {xs : List Nat}
    (h : ∀ g' i, t.gapRead g' i = (s.writeGaps g 0 xs).gapRead g' i) : gapsAre s t g xs := by
  intro g' i
  rw [h, State.writeGaps_gapRead]
  simp

/-! ### Storing a gap sequence while entries are free (R151) -/

/-- The gaps of a list stored from entry `k` on, then `GLEN[g]` and the number of entries; the first that has no entry raises,
with `GLEN[g]` the entries written. -/
def storeGaps (g : GapId) : (k : Nat) → List Nat → State → Ended Nat
  | k, [], s => .returned k (s.setGlen g (BitVec.ofNat 64 k))
  | k, x :: xs, s =>
    if s.gapIndexOk k then storeGaps g (k + 1) xs (s.gapWrite g k (BitVec.ofNat 32 x))
    else .raised .gapCapacityViolation (s.setGlen g (BitVec.ofNat 64 k))

theorem storeGaps_fits (g : GapId) {k : Nat} {xs : List Nat} {s : State} (h : k + xs.length ≤ s.params.gapEntries) :
    storeGaps g k xs s =
      .returned (k + xs.length) ((s.writeGaps g k xs).setGlen g (BitVec.ofNat 64 (k + xs.length))) := by
  induction xs generalizing k s with
  | nil => rw [State.writeGaps_nil]; rfl
  | cons x xs ih =>
    rw [List.length_cons, Nat.add_comm xs.length, ← Nat.add_assoc] at h ⊢
    rw [storeGaps, guard_of_gapIndexOk (by omega), State.writeGaps_cons]
    exact ih h

theorem storeGaps_full (g : GapId) {k : Nat} {xs : List Nat} {s : State} (hk : k ≤ s.params.gapEntries)
    (h : s.params.gapEntries < k + xs.length) :
    storeGaps g k xs s = .raised .gapCapacityViolation
      ((s.writeGaps g k (xs.take (s.params.gapEntries - k))).setGlen g (BitVec.ofNat 64 s.params.gapEntries)) := by
  induction xs generalizing k s with
  | nil => exact absurd h (Nat.not_lt.2 hk)
  | cons x xs ih =>
    rw [storeGaps]
    rcases hk.eq_or_lt with rfl | hlt
    · rw [guard_of_gapIndexBad le_rfl, Nat.sub_self, List.take_zero, State.writeGaps_nil]
    · have hsub : s.params.gapEntries - k = s.params.gapEntries - (k + 1) + 1 := by omega
      have hlen : s.params.gapEntries < k + 1 + xs.length := by rw [List.length_cons] at h; omega
      rw [guard_of_gapIndexOk hlt, hsub, List.take_succ_cons, State.writeGaps_cons]
      exact ih hlt hlen

/-! ### The gap sequence of R150 -/

theorem gapsFrom_length (n start : Nat) (ones : List Nat) : (gapsFrom n start ones).length = ones.length + 1 := by
  induction ones generalizing start with
  | nil => rfl
  | cons p rest ih => rw [gapsFrom, List.length_cons, ih, List.length_cons]

/-- The gaps and the ones fill the positions from `start` on (R154). -/
theorem gapsFrom_sum {n start : Nat} {ones : List Nat} (hsorted : ones.Pairwise (· < ·))
    (hrange : ∀ p ∈ ones, start ≤ p ∧ p < n) (hstart : start ≤ n) :
    start + (gapsFrom n start ones).sum + ones.length = n := by
  induction ones generalizing start with
  | nil => simp [gapsFrom, hstart]
  | cons p rest ih =>
    obtain ⟨hp, hrest⟩ := List.pairwise_cons.1 hsorted
    obtain ⟨hle, hlt⟩ := hrange p List.mem_cons_self
    have htail : p + 1 + (gapsFrom n (p + 1) rest).sum + rest.length = n :=
      ih hrest (fun q hq => ⟨hp q hq, (hrange q (List.mem_cons_of_mem p hq)).2⟩) (Nat.succ_le_of_lt hlt)
    rw [gapsFrom, List.sum_cons, List.length_cons]
    omega

theorem State.onesBelow_pairwise (s : State) (b : BufId) (n : Nat) : (s.onesBelow b n).Pairwise (· < ·) :=
  List.pairwise_lt_range.filter _
theorem State.lt_of_mem_onesBelow {s : State} {b : BufId} {n p : Nat} (h : p ∈ s.onesBelow b n) : p < n :=
  List.mem_range.1 (List.mem_of_mem_filter h)

/-- R150's sequence for positions `0 .. n-1` of a buffer. -/
def State.extractedGaps (s : State) (b : BufId) (n : Nat) : List Nat := gapsFrom n 0 (s.onesBelow b n)

theorem State.extractedGaps_length (s : State) (b : BufId) (n : Nat) :
    (s.extractedGaps b n).length = (s.onesBelow b n).length + 1 := gapsFrom_length n 0 _

theorem State.extractedGaps_sum (s : State) (b : BufId) (n : Nat) :
    (s.extractedGaps b n).sum + (s.onesBelow b n).length = n := by
  have hsum := gapsFrom_sum (s.onesBelow_pairwise b n) (fun p hp => ⟨p.zero_le, State.lt_of_mem_onesBelow hp⟩) n.zero_le
  rwa [Nat.zero_add] at hsum

theorem State.extractedGaps_le {s : State} {b : BufId} {n x : Nat} (h : x ∈ s.extractedGaps b n) : x ≤ n :=
  calc x ≤ (s.extractedGaps b n).sum := List.le_sum_of_mem h
    _ ≤ (s.extractedGaps b n).sum + (s.onesBelow b n).length := Nat.le_add_right _ _
    _ = n := s.extractedGaps_sum b n

/-! ### EXTRACT (R151) -/

/-- The scan from position `p` on, with the zeros from `start` to `p` counted, stores the gaps from `start` on. -/
theorem extractScan_eq (src : State) (b : BufId) (g : GapId) (n k : Nat) (s : State) {start p : Nat} (h : start ≤ p) :
    extractScan src b g n p (p - start) k s =
      storeGaps g k (gapsFrom (p + n) start ((List.range' p n).filter fun q => src.bit b q)) s := by
  induction n generalizing start p k s with
  | zero => rfl
  | succ n ih =>
    have hend : p + (n + 1) = p + 1 + n := by omega
    rw [extractScan, List.range'_succ, hend]
    cases hbit : src.bit b p with
    | true => rw [List.filter_cons_of_pos hbit, gapsFrom, storeGaps, ← ih _ _ le_rfl, Nat.sub_self, if_pos rfl]
    | false =>
      rw [List.filter_cons_of_neg (by simp [hbit]), ← ih _ _ (h.trans (Nat.le_succ p)), Nat.succ_sub h,
        if_neg Bool.false_ne_true]

theorem exec_extract (s : State) (b : BufId) (g : GapId) (n : Word) : exec (.extract b g n) s = execExtract b g n s := rfl

section
variable {s : State} {b : BufId} {g : GapId} {n : Word}

/-- Inside the capacity EXTRACT stores the gap sequence of R150. -/
theorem execExtract_inCapacity (hcap : n.toNat ≤ s.capBits b) :
    execExtract b g n s = conclude 0x20#8 (storeGaps g 0 (s.extractedGaps b n.toNat) s) := by
  have hscan := extractScan_eq s b g n.toNat 0 s (Nat.le_refl 0)
  rw [Nat.zero_add, ← List.range_eq_range'] at hscan
  rw [execExtract, guard_of_inCapacity (by omega)]
  exact congrArg (conclude 0x20#8) hscan

theorem execExtract_fits (hcap : n.toNat ≤ s.capBits b) (hfit : (s.onesBelow b n.toNat).length + 1 ≤ s.params.gapEntries) :
    execExtract b g n s = .next (((s.writeGaps g 0 (s.extractedGaps b n.toNat)).setGlen g
      (BitVec.ofNat 64 ((s.onesBelow b n.toNat).length + 1))).respond statusOk
        (BitVec.ofNat 64 ((s.onesBelow b n.toNat).length + 1))) := by
  rw [← State.extractedGaps_length] at hfit ⊢
  rw [execExtract_inCapacity hcap, storeGaps_fits g (by omega), Nat.zero_add, conclude_returned]

theorem execExtract_full (hcap : n.toNat ≤ s.capBits b) (hfull : s.params.gapEntries < (s.onesBelow b n.toNat).length + 1) :
    execExtract b g n s = .next (((s.writeGaps g 0 ((s.extractedGaps b n.toNat).take s.params.gapEntries)).setGlen g
      (BitVec.ofNat 64 s.params.gapEntries)).takeError 0x20#8 .gapCapacityViolation) := by
  rw [← State.extractedGaps_length] at hfull
  rw [execExtract_inCapacity hcap, storeGaps_full g (Nat.zero_le _) (by omega), Nat.sub_zero, conclude_raised]

end

/-- Settles O31, by the two tests of R151 in their order: the length against the capacity, each gap against the entries. -/
theorem extractWritesGapSequence : Obligations.ExtractWritesGapSequence := by
  intro s b g n _
  rw [exec_extract]
  refine ⟨decode_fieldWord (op := 0x20#8) rfl rfl n, fun hout => ?outside, fun hcap hfit => ?fits, fun hcap hfull => ?full⟩
  case outside => exact guard_onlyError (by omega) 0x20#8 _
  case fits =>
    exact ⟨_, execExtract_fits hcap hfit, gapsAre_of_writeGaps (xs := s.extractedGaps b n.toNat) fun g' i => by simp,
      fun b' p => by simp, rfl, ⟨rfl, rfl, rfl⟩, rfl⟩
  case full =>
    refine ⟨_, execExtract_full hcap hfull,
      gapsAre_of_writeGaps (xs := (s.extractedGaps b n.toNat).take s.params.gapEntries) fun g' i => by simp,
      fun b' p => by simp, ?regs, ⟨rfl, rfl, rfl⟩, rfl⟩
    case regs =>
      rw [State.takeError_regs, updateFault_eq_faultAfter, State.setGlen_regs, Regs.setGlen_fault, State.writeGaps_regs]
      rfl

/-! ### What the gaps add up to (R154) -/

theorem answered_inj {s t : State} {c c' : Byte} {r r' : Word} (h : answered s t c r) (h' : answered s t c' r') :
    c = c' ∧ r = r' := by
  simpa using h.symm.trans h'

/-- A gap memory that holds a list of 32-bit numbers reads as that list. -/
theorem gapsAre_map_gapRead {s t : State} {g : GapId} {xs : List Nat} (h : gapsAre s t g xs) (hlt : ∀ x ∈ xs, x < 2 ^ 32) :
    ((List.range xs.length).map fun i => (t.gapRead g i).toNat) = xs := by
  apply List.ext_getElem (by simp)
  intro i _ hi
  rw [List.getElem_map, List.getElem_range, h, if_pos rfl, overlay, List.getElem?_eq_getElem hi]
  exact Nat.mod_eq_of_lt (hlt _ (List.getElem_mem hi))

/-- Positions inside a capacity are 32-bit numbers (R6, R36). -/
theorem EngineOk.capBits_lt {s : State} (h : EngineOk s) (b : BufId) : s.capBits b < 2 ^ 32 := by
  obtain ⟨-, hwords, -, -⟩ := h.legal
  have hcap := h.capBits_le b
  omega

/-- Settles O32, by the three ends of EXTRACT (O31): two of them are errors, and in the third `k - 1` is the number of ones. -/
theorem extractConservesLength : Obligations.ExtractConservesLength := by
  intro s b g n hinv
  obtain ⟨hok, -⟩ := s.inv_iff.1 hinv
  obtain ⟨-, hout, hfits, hfull⟩ := extractWritesGapSequence s b g n hinv
  rcases Nat.lt_or_ge (s.capBits b) n.toNat with hcap | hcap
  · obtain ⟨t, ht, -, -, -, -, herr⟩ := hout hcap
    exact ⟨t, ht, fun k hk => absurd (answered_inj herr hk).1 (by decide)⟩
  rcases Nat.lt_or_ge s.params.gapEntries ((s.onesBelow b n.toNat).length + 1) with hmem | hmem
  · obtain ⟨t, ht, -, -, -, -, herr⟩ := hfull hcap hmem
    exact ⟨t, ht, fun k hk => absurd (answered_inj herr hk).1 (by decide)⟩
  obtain ⟨t, ht, hgaps, -, -, -, hanswer⟩ := hfits hcap hmem
  refine ⟨t, ht, fun k hk => ?_⟩
  obtain ⟨-, rfl⟩ := answered_inj hanswer hk
  obtain ⟨-, -, -, hentries⟩ := hok.legal
  have hret : (BitVec.ofNat 64 ((s.onesBelow b n.toNat).length + 1)).toNat = (s.extractedGaps b n.toNat).length := by
    rw [BitVec.toNat_ofNat, State.extractedGaps_length]
    omega
  have hread : ((List.range (s.extractedGaps b n.toNat).length).map fun i => (t.gapRead g i).toNat) =
      s.extractedGaps b n.toNat :=
    gapsAre_map_gapRead hgaps fun x hx => (State.extractedGaps_le hx).trans_lt (hcap.trans_lt (hok.capBits_lt b))
  rw [hret, hread, State.extractedGaps_length, Nat.add_sub_cancel]
  exact ⟨Nat.le_add_left 1 _, rfl, s.extractedGaps_sum b n.toNat, rfl⟩

end Machine
end Sys2Proof

/-! ## The family of spec/42_parameter_optimizer.md: the search, the costs in the registers, the encoders at the chosen width -/

namespace Sys2Proof
namespace Machine

/-! ### The cheapest width of a range (R175) -/

/-- R175's choice among the widths `lo .. hi-1`: none is cheaper, and every smaller one costs more. -/
def IsCheapest (bits : Nat → Nat) (lo hi w : Nat) : Prop :=
  lo ≤ w ∧ w < hi ∧ (∀ w', lo ≤ w' → w' < hi → bits w ≤ bits w') ∧ ∀ w', lo ≤ w' → w' < w → bits w < bits w'

section
variable {bits : Nat → Nat} {lo hi w : Nat}

theorem chosenWidth_isCheapest (bits : Nat → Nat) (lo : Nat) {n : Nat} (hn : 0 < n) :
    IsCheapest bits lo (lo + n) (chosenWidth bits lo n) := chosenWidth_spec bits lo n hn

theorem isCheapest_singleton (bits : Nat → Nat) (lo : Nat) : IsCheapest bits lo (lo + 1) lo := by
  refine ⟨le_rfl, Nat.lt_succ_self lo, fun w' hlo hhi => ?_, fun w' hlo hlt => absurd hlo (Nat.not_le.2 hlt)⟩
  rw [Nat.le_antisymm (Nat.le_of_lt_succ hhi) hlo]

theorem IsCheapest.unique {w' : Nat} (h : IsCheapest bits lo hi w) (h' : IsCheapest bits lo hi w') : w = w' := by
  obtain ⟨hlo, hhi, hmin, hfirst⟩ := h
  obtain ⟨hlo', hhi', hmin', hfirst'⟩ := h'
  rcases Nat.lt_trichotomy w w' with hlt | heq | hgt
  · exact absurd (hmin w' hlo' hhi') (Nat.not_le.2 (hfirst' w hlo hlt))
  · exact heq
  · exact absurd (hmin' w hlo hhi) (Nat.not_le.2 (hfirst w' hlo' hgt))

/-- One more width that is strictly cheaper becomes the choice. -/
theorem IsCheapest.succ_of_lt (h : IsCheapest bits lo hi w) (hlt : bits hi < bits w) : IsCheapest bits lo (hi + 1) hi := by
  obtain ⟨hlo, hhi, hmin, -⟩ := h
  have hfirst : ∀ w', lo ≤ w' → w' < hi → bits hi < bits w' := fun w' hlo' hhi' => hlt.trans_le (hmin w' hlo' hhi')
  refine ⟨hlo.trans hhi.le, Nat.lt_succ_self hi, fun w' hlo' hhi' => ?_, hfirst⟩
  rcases Nat.lt_succ_iff_lt_or_eq.1 hhi' with hin | rfl
  · exact (hfirst w' hlo' hin).le
  · exact le_rfl

/-- One more width that is no cheaper leaves the choice: a tie keeps the smaller width. -/
theorem IsCheapest.succ_of_le (h : IsCheapest bits lo hi w) (hle : bits w ≤ bits hi) : IsCheapest bits lo (hi + 1) w := by
  obtain ⟨hlo, hhi, hmin, hfirst⟩ := h
  refine ⟨hlo, hhi.trans (Nat.lt_succ_self hi), fun w' hlo' hhi' => ?_, hfirst⟩
  rcases Nat.lt_succ_iff_lt_or_eq.1 hhi' with hin | rfl
  · exact hmin w' hlo' hin
  · exact hle

/-- The loop, started on the choice among `lo .. hi-1`, ends on the choice among the `n` widths from `hi` on as well (R176). -/
theorem searchLoop_eq (words : Nat → Nat) {n x : Nat} (h : IsCheapest bits lo hi w)
    (hx : IsCheapest bits lo (hi + n) x) : searchLoop bits words n hi w (bits w) (words w) = (x, bits x, words x) := by
  induction n generalizing hi w with
  | zero => rw [h.unique hx]; rfl
  | succ n ih =>
    rw [← Nat.add_assoc, Nat.add_right_comm] at hx
    rw [searchLoop]
    split
    · next hlt => exact ih (h.succ_of_lt hlt) hx
    · next hge => exact ih (h.succ_of_le (Nat.le_of_not_lt hge)) hx

end

/-- Settles O37: the loop keeps the choice among the widths it has tried, from the one it starts with on. -/
theorem searchLoopFindsChosenWidth : Obligations.SearchLoopFindsChosenWidth := by
  intro bits words lo n
  refine searchLoop_eq words (isCheapest_singleton bits lo) ?_
  rw [Nat.add_right_comm]
  exact chosenWidth_isCheapest bits lo (Nat.succ_pos n)

/-! ### The fixed-width cost has more than one valley (R181) -/

/-- Refutes O38 by R181's sequence: its costs at widths 4, 5 and 6 are 24, 25 and 24 bits, so a turning point above width 4
contradicts the rise, and one at or below it the fall. -/
theorem not_fixedWidthCostIsUnimodal : ¬ Obligations.FixedWidthCostIsUnimodal := by
  intro h
  obtain ⟨w0, hfall, hrise⟩ := h [31, 3, 1, 7]
  have h45 : bitsFW [31, 3, 1, 7] 4 < bitsFW [31, 3, 1, 7] 5 := by decide
  have h56 : bitsFW [31, 3, 1, 7] 6 < bitsFW [31, 3, 1, 7] 5 := by decide
  rcases Nat.lt_or_ge 4 w0 with hw0 | hw0
  · exact absurd (hfall 4 (by decide) hw0) (Nat.not_le.2 h45)
  · exact absurd (hrise 5 (by decide) (hw0.trans (by decide)) (by decide)) (Nat.not_le.2 h56)

/-! ### The costs at every width of the codecs (R177) -/

/-- A fixed-width code of one word has `w` bits; one of more words is no longer than the unary code of the gap. -/
theorem fwGapCost_le {w g : Nat} (hw : 1 ≤ w) (hmax : w ≤ 63) (hg : g < 2 ^ 32) : w * (g / sentinel w + 1) ≤ 2 ^ 32 + 1 := by
  have htwo : 2 * w ≤ 2 ^ w := Nat.mul_le_pow (by decide) w
  have hsentinel : w + (w - 1) ≤ sentinel w := by unfold sentinel; omega
  have hmul : g / sentinel w * sentinel w ≤ g := Nat.div_mul_le_self g _
  cases hq : g / sentinel w with
  | zero => omega
  | succ q =>
    rw [hq] at hmul
    have hbound : (q + 1) * (w + (w - 1)) ≤ g := (Nat.mul_le_mul_left _ hsentinel).trans hmul
    have hlast : w - 1 ≤ (q + 1) * (w - 1) := Nat.le_mul_of_pos_left _ q.succ_pos
    rw [Nat.mul_add] at hbound
    rw [Nat.mul_add, Nat.mul_comm]
    omega

/-- A Rice-Golomb code with quotient 0 has `w + 1` bits; one with ones is no longer than the unary code of the gap. -/
theorem rgGapCost_le {w g : Nat} (hmax : w ≤ 63) (hg : g < 2 ^ 32) : g / 2 ^ w + 1 + w ≤ 2 ^ 32 + 1 := by
  have hpow : w + 1 ≤ 2 ^ w := Nat.lt_two_pow_self
  have hmul : g / 2 ^ w * 2 ^ w ≤ g := Nat.div_mul_le_self g _
  cases hq : g / 2 ^ w with
  | zero => omega
  | succ q =>
    rw [hq] at hmul
    have hbound : (q + 1) * (w + 1) ≤ g := (Nat.mul_le_mul_left _ hpow).trans hmul
    have hrest : w ≤ (q + 1) * w := Nat.le_mul_of_pos_left _ q.succ_pos
    rw [Nat.mul_add] at hbound
    omega

section
variable {gaps : List Nat} {w : Nat}

theorem bitsFW_lt (hlt : ∀ g ∈ gaps, g < 2 ^ 32) (hlen : gaps.length ≤ 2 ^ 24) (hw : 1 ≤ w) (hmax : w ≤ 63) :
    bitsFW gaps w < 2 ^ 57 := by
  rw [bitsFW, wordsFW, ← List.sum_map_mul_left]
  exact cost_sum_lt hlen fun g hg => fwGapCost_le hw hmax (hlt g hg)

theorem wordsFW_le_bitsFW (gaps : List Nat) (hw : 1 ≤ w) : wordsFW gaps w ≤ bitsFW gaps w := Nat.le_mul_of_pos_left _ hw

theorem bitsRG_lt (hlt : ∀ g ∈ gaps, g < 2 ^ 32) (hlen : gaps.length ≤ 2 ^ 24) (hmax : w ≤ 63) : bitsRG gaps w < 2 ^ 57 :=
  cost_sum_lt hlen fun g hg => rgGapCost_le hmax (hlt g hg)

theorem wordsRG_lt (hlt : ∀ g ∈ gaps, g < 2 ^ 32) (hlen : gaps.length ≤ 2 ^ 24) : wordsRG gaps w < 2 ^ 57 :=
  cost_sum_lt hlen fun g hg =>
    calc g / 2 ^ w + 2 ≤ g + 2 := Nat.add_le_add_right (Nat.div_le_self g _) 2
      _ ≤ 2 ^ 32 + 1 := Nat.succ_le_succ (hlt g hg)

end

/-- Settles O40, from the cost of a single gap: each is at most `2^32 + 1`. -/
theorem costsDoNotOverflow : Obligations.CostsDoNotOverflow := by
  intro gaps w hlt hlen hmax
  refine ⟨fun hw => ?_, bitsRG_lt hlt hlen hmax, wordsRG_lt hlt hlen⟩
  have hbits := bitsFW_lt hlt hlen hw hmax
  exact ⟨hbits, (wordsFW_le_bitsFW gaps hw).trans_lt hbits⟩

/-! ### OPT.FW and OPT.RG (R171, R172) -/

/-- The state an optimizer command that chose `w` ends in: the three registers and the answer. -/
def State.optAnswered (s : State) (w bits words : Nat) : State :=
  (s.setOpt (BitVec.ofNat 64 w) (BitVec.ofNat 64 bits) (BitVec.ofNat 64 words)).respond statusOk (BitVec.ofNat 64 w)

theorem exec_optFw (s : State) (g : GapId) :
    exec (.optFw g) s = .next (s.optAnswered (bestWidthFW (s.gapSeq g)) (bitsFW (s.gapSeq g) (bestWidthFW (s.gapSeq g)))
      (wordsFW (s.gapSeq g) (bestWidthFW (s.gapSeq g)))) := rfl
theorem exec_optRg (s : State) (g : GapId) :
    exec (.optRg g) s = .next (s.optAnswered (bestWidthRG (s.gapSeq g)) (bitsRG (s.gapSeq g) (bestWidthRG (s.gapSeq g)))
      (wordsRG (s.gapSeq g) (bestWidthRG (s.gapSeq g)))) := rfl

section
variable (s : State) (w bits words : Nat)

@[simp] theorem State.optAnswered_optBits : (s.optAnswered w bits words).regs.optBits = BitVec.ofNat 64 bits := rfl
@[simp] theorem State.optAnswered_gapSeq (g : GapId) : (s.optAnswered w bits words).gapSeq g = s.gapSeq g := by
  simp [State.optAnswered, State.gapSeq, State.gapList]
@[simp] theorem State.optAnswered_capBits (b : BufId) : (s.optAnswered w bits words).capBits b = s.capBits b := by
  simp [State.optAnswered]

end

/-- A result within R177's bounds is read from the registers as it was computed. -/
theorem State.optAnswered_toNat (s : State) {w bits words : Nat}
    (h : w ≤ Config.maxWidth - 1 ∧ bits < 2 ^ 57 ∧ words < 2 ^ 57) :
    (s.optAnswered w bits words).regs.optW.toNat = w ∧ (s.optAnswered w bits words).regs.optBits.toNat = bits ∧
      (s.optAnswered w bits words).regs.optWords.toNat = words := by
  obtain ⟨hw, hbits, hwords⟩ := h
  have hwidth : w < 2 ^ 64 := hw.trans_lt (by decide)
  exact ⟨Nat.mod_eq_of_lt hwidth, Nat.mod_eq_of_lt (hbits.trans (by decide)), Nat.mod_eq_of_lt (hwords.trans (by decide))⟩

theorem bestWidthFW_isCheapest (gaps : List Nat) : IsCheapest (bitsFW gaps) 1 Config.maxWidth (bestWidthFW gaps) :=
  chosenWidth_isCheapest (bitsFW gaps) 1 (by decide)
theorem bestWidthRG_isCheapest (gaps : List Nat) : IsCheapest (bitsRG gaps) 0 Config.maxWidth (bestWidthRG gaps) := by
  have h := chosenWidth_isCheapest (bitsRG gaps) 0 (n := Config.maxWidth) (by decide)
  rwa [Nat.zero_add] at h

theorem EngineOk.optFw_fits {s : State} (h : EngineOk s) (g : GapId) :
    bestWidthFW (s.gapSeq g) ≤ Config.maxWidth - 1 ∧ bitsFW (s.gapSeq g) (bestWidthFW (s.gapSeq g)) < 2 ^ 57 ∧
      wordsFW (s.gapSeq g) (bestWidthFW (s.gapSeq g)) < 2 ^ 57 := bestWidthFW_fits (h.gapSeq_length_le g) (s.gapSeq_lt g)
theorem EngineOk.optRg_fits {s : State} (h : EngineOk s) (g : GapId) :
    bestWidthRG (s.gapSeq g) ≤ Config.maxWidth - 1 ∧ bitsRG (s.gapSeq g) (bestWidthRG (s.gapSeq g)) < 2 ^ 57 ∧
      wordsRG (s.gapSeq g) (bestWidthRG (s.gapSeq g)) < 2 ^ 57 := bestWidthRG_fits (h.gapSeq_length_le g) (s.gapSeq_lt g)

/-- Settles O35: the choice is R175's from width 1 on, and its width, bits and words fit their registers. -/
theorem optFwChoosesCheapestWidth : Obligations.OptFwChoosesCheapestWidth := by
  intro s g arg hinv
  obtain ⟨hok, -⟩ := s.inv_iff.1 hinv
  obtain ⟨hlo, hhi, hmin, hfirst⟩ := bestWidthFW_isCheapest (s.gapSeq g)
  obtain ⟨hw, hbits, hwords⟩ := s.optAnswered_toNat (hok.optFw_fits g)
  exact ⟨decode_fieldWord (op := 0x30#8) (b := .b0) rfl ⟨rfl, rfl⟩ arg, _, _, exec_optFw s g, hlo, hhi, hmin, hfirst, hw,
    hbits, hwords, rfl, rfl, ⟨rfl, rfl, rfl⟩, rfl⟩

/-- Settles O36: the choice is R175's from width 0 on, and its width, bits and words fit their registers. -/
theorem optRgChoosesCheapestWidth : Obligations.OptRgChoosesCheapestWidth := by
  intro s g arg hinv
  obtain ⟨hok, -⟩ := s.inv_iff.1 hinv
  obtain ⟨-, hhi, hmin, hfirst⟩ := bestWidthRG_isCheapest (s.gapSeq g)
  obtain ⟨hw, hbits, hwords⟩ := s.optAnswered_toNat (hok.optRg_fits g)
  exact ⟨decode_fieldWord (op := 0x31#8) (b := .b0) rfl ⟨rfl, rfl⟩ arg, _, _, exec_optRg s g, hhi,
    fun w' => hmin w' w'.zero_le, fun w' => hfirst w' w'.zero_le, hw, hbits, hwords, rfl, rfl, ⟨rfl, rfl, rfl⟩, rfl⟩

/-! ### An encode that fits (R191, R211) -/

/-- `PutField` of each field of a list, one behind the other from position `o` on (R57, R91). -/
def State.putFields (s : State) (b : BufId) (o : Nat) : List (Nat × Nat) → State
  | [] => s
  | f :: fs => (s.putField b o f.1 f.2).putFields b (o + f.1) fs

@[simp] theorem State.putFields_responses (s : State) (b : BufId) (o : Nat) (fields : List (Nat × Nat)) :
    (s.putFields b o fields).responses = s.responses := by
  induction fields generalizing s o with
  | nil => rfl
  | cons f fs ih => rw [State.putFields, ih, State.putField_responses]

/-- The cursor an append finds is overwritten by the one it leaves. -/
theorem State.setLen_putField_setLen (s : State) (b : BufId) (o k x : Nat) (v v' : Word) :
    ((s.setLen b v).putField b o k x).setLen b v' = (s.putField b o k x).setLen b v' := by cases b <;> rfl

theorem fieldsLen_cons (f : Nat × Nat) (fs : List (Nat × Nat)) : fieldsLen (f :: fs) = f.1 + fieldsLen fs := List.sum_cons

/-- Appends that all fit, from a cursor at `o`, put their fields from `o` on and advance the cursor over them (R59). -/
theorem appendFields_fits {s : State} {b : BufId} {o : Nat} {fields : List (Nat × Nat)}
    (hfit : o + fieldsLen fields ≤ s.capBits b) (hcap : s.capBits b < 2 ^ 64) :
    appendFields b fields (s.setLen b (BitVec.ofNat 64 o)) =
      .returned () ((s.putFields b o fields).setLen b (BitVec.ofNat 64 (o + fieldsLen fields))) := by
  induction fields generalizing s o with
  | nil => rfl
  | cons f fs ih =>
    rw [fieldsLen_cons, ← Nat.add_assoc] at hfit ⊢
    have hlen : ((s.setLen b (BitVec.ofNat 64 o)).len b).toNat = o := by
      rw [State.setLen_len, if_pos rfl, BitVec.toNat_ofNat]
      omega
    have hfirst : ((s.setLen b (BitVec.ofNat 64 o)).len b).toNat + f.1 ≤ (s.setLen b (BitVec.ofNat 64 o)).capBits b := by
      rw [hlen, State.setLen_capBits]
      omega
    rw [appendFields, State.append_fits hfirst, andThen_returned, hlen, State.setLen_putField_setLen, State.putFields]
    exact ih (by simpa using hfit) (by simpa using hcap)

/-- An encode whose fields fit writes them from position 0 on and returns their length. -/
theorem encode_fits {s : State} {b : BufId} {fields : List (Nat × Nat)} (hfit : fieldsLen fields ≤ s.capBits b)
    (hcap : s.capBits b < 2 ^ 64) :
    (andThen (appendFields b fields (s.setLen b 0#64)) fun _ t => .returned (t.len b).toNat t) =
      .returned (fieldsLen fields) ((s.putFields b 0 fields).setLen b (BitVec.ofNat 64 (fieldsLen fields))) := by
  have happend := appendFields_fits (o := 0) (by rwa [Nat.zero_add]) hcap
  rw [Nat.zero_add] at happend
  rw [happend, andThen_returned, State.setLen_len, if_pos rfl, BitVec.toNat_ofNat, Nat.mod_eq_of_lt (hfit.trans_lt hcap)]

section
variable {s : State} {b : BufId} {g : GapId} {w : Width}

theorem exec_encFw_fits (hw : w ≠ 0#6) (hfit : fieldsLen (fieldsFW w.toNat (s.gapSeq g)) ≤ s.capBits b)
    (hcap : s.capBits b < 2 ^ 64) :
    exec (.encFw b g w) s = .next (((s.putFields b 0 (fieldsFW w.toNat (s.gapSeq g))).setLen b
      (BitVec.ofNat 64 (fieldsLen (fieldsFW w.toNat (s.gapSeq g))))).respond statusOk
        (BitVec.ofNat 64 (fieldsLen (fieldsFW w.toNat (s.gapSeq g))))) := by
  have hexec : exec (.encFw b g w) s = execEncFw b g w s := rfl
  rw [hexec, execEncFw, if_neg hw, encodeInto_fw b w.toNat (one_le_toNat_of_ne_zero hw), encode_fits hfit hcap,
    conclude_returned]

theorem exec_encRg_fits (hfit : fieldsLen (fieldsRG w.toNat (s.gapSeq g)) ≤ s.capBits b) (hcap : s.capBits b < 2 ^ 64) :
    exec (.encRg b g w) s = .next (((s.putFields b 0 (fieldsRG w.toNat (s.gapSeq g))).setLen b
      (BitVec.ofNat 64 (fieldsLen (fieldsRG w.toNat (s.gapSeq g))))).respond statusOk
        (BitVec.ofNat 64 (fieldsLen (fieldsRG w.toNat (s.gapSeq g))))) := by
  have hexec : exec (.encRg b g w) s = execEncRg b g w s := rfl
  rw [hexec, execEncRg, encodeInto_rg, encode_fits hfit hcap, conclude_returned]

/-- ENC.FW at an admissible width is answered with R173's cost of its gaps, where that fits (R94). -/
theorem exec_encFw_answersCost {gaps : List Nat} {n : Nat} (hgaps : s.gapSeq g = gaps) (hlo : 1 ≤ n) (hhi : n < 64)
    (hfit : bitsFW gaps n ≤ s.capBits b) (hcap : s.capBits b < 2 ^ 64) :
    ∃ u, exec (.encFw b g (BitVec.ofNat 6 n)) s = .next u ∧ answered s u 0#8 (BitVec.ofNat 64 (bitsFW gaps n)) := by
  have hn : (BitVec.ofNat 6 n).toNat = n := Nat.mod_eq_of_lt hhi
  have hw : BitVec.ofNat 6 n ≠ 0#6 := by
    intro hzero
    rw [hzero, BitVec.toNat_zero] at hn
    omega
  have hexec := exec_encFw_fits (b := b) (g := g) (s := s) hw (by rwa [hn, hgaps, fieldsLen_fieldsFW]) hcap
  rw [hn, hgaps, fieldsLen_fieldsFW] at hexec
  exact ⟨_, hexec, by rw [answered, State.respond_responses, State.setLen_responses, State.putFields_responses, statusOk]⟩

/-- ENC.RG is answered with R174's cost of its gaps, where that fits (R94). -/
theorem exec_encRg_answersCost {gaps : List Nat} {n : Nat} (hgaps : s.gapSeq g = gaps) (hhi : n < 64)
    (hfit : bitsRG gaps n ≤ s.capBits b) (hcap : s.capBits b < 2 ^ 64) :
    ∃ u, exec (.encRg b g (BitVec.ofNat 6 n)) s = .next u ∧ answered s u 0#8 (BitVec.ofNat 64 (bitsRG gaps n)) := by
  have hn : (BitVec.ofNat 6 n).toNat = n := Nat.mod_eq_of_lt hhi
  have hexec := exec_encRg_fits (b := b) (g := g) (s := s) (w := BitVec.ofNat 6 n)
    (by rwa [hn, hgaps, fieldsLen_fieldsRG]) hcap
  rw [hn, hgaps, fieldsLen_fieldsRG] at hexec
  exact ⟨_, hexec, by rw [answered, State.respond_responses, State.setLen_responses, State.putFields_responses, statusOk]⟩

end

/-! ### The optimizer and the encoders (R179) -/

/-- Settles O54: the optimizer leaves the gaps and the capacity as they are, and the encoder's fields number and measure what it
recorded (R94). -/
theorem optimizerPredictsEncoder : Obligations.OptimizerPredictsEncoder := by
  intro s b g hinv
  obtain ⟨hok, -⟩ := s.inv_iff.1 hinv
  have hcap : s.capBits b < 2 ^ 64 := (hok.capBits_lt b).trans (by decide)
  have hsearched : Config.maxWidth < 64 := by decide
  constructor
  case left =>
    obtain ⟨hlo, hhi, -, -⟩ := bestWidthFW_isCheapest (s.gapSeq g)
    obtain ⟨hw, hbits, hwords⟩ := s.optAnswered_toNat (hok.optFw_fits g)
    refine ⟨_, exec_optFw s g, by rw [hw, hwords, fieldsFW_length], fun hfit => ?_⟩
    rw [hbits] at hfit
    rw [hw, State.optAnswered_optBits]
    exact exec_encFw_answersCost (State.optAnswered_gapSeq ..) hlo (hhi.trans hsearched) (by simpa using hfit)
      (by simpa using hcap)
  case right =>
    obtain ⟨-, hhi, -, -⟩ := bestWidthRG_isCheapest (s.gapSeq g)
    obtain ⟨hw, hbits, hwords⟩ := s.optAnswered_toNat (hok.optRg_fits g)
    refine ⟨_, exec_optRg s g, by rw [hw, hwords, fieldsRG_length], fun hfit => ?_⟩
    rw [hbits] at hfit
    rw [hw, State.optAnswered_optBits]
    exact exec_encRg_answersCost (State.optAnswered_gapSeq ..) (hhi.trans hsearched) (by simpa using hfit)
      (by simpa using hcap)

end Machine
end Sys2Proof

/-! ## The family of spec/43_fixed_width_codec.md: the streams ENC.FW writes, what DEC.FW reads back, and their errors -/

namespace Sys2Proof
namespace Machine

/-! ### The state an encode leaves (R191, R211) -/

theorem fieldBits_length (k v : Nat) : (fieldBits k v).length = k := by simp [fieldBits]
theorem fieldBits_getElem? {k i : Nat} (v : Nat) (h : i < k) : (fieldBits k v)[i]? = some (v.testBit i) := by
  simp [fieldBits, h]
theorem streamOf_cons (f : Nat × Nat) (fs : List (Nat × Nat)) : streamOf (f :: fs) = fieldBits f.1 f.2 ++ streamOf fs := rfl

/-- The bits of a list of fields are, below the end of the first field, that field's, and from there on those of the rest. -/
theorem streamOf_cons_getElem? (f : Nat × Nat) (fs : List (Nat × Nat)) (i : Nat) :
    (streamOf (f :: fs))[i]? = if i < f.1 then some (f.2.testBit i) else (streamOf fs)[i - f.1]? := by
  rw [streamOf_cons, List.getElem?_append, fieldBits_length]
  split
  · exact fieldBits_getElem? f.2 ‹_›
  · rfl

/-- Fields put one behind the other write the bits of their stream and leave every other bit. -/
theorem State.putFields_bit (s : State) (b b' : BufId) (o p : Nat) (fields : List (Nat × Nat)) :
    (s.putFields b o fields).bit b' p =
      if b' = b ∧ o ≤ p then ((streamOf fields)[p - o]?).getD (s.bit b p) else s.bit b' p := by
  induction fields generalizing s o with
  | nil =>
    split
    · next h => rw [h.1]; rfl
    · rfl
  | cons f fs ih =>
    rw [State.putFields, ih, State.putField_bit, State.putField_bit, streamOf_cons_getElem?]
    by_cases hb : b' = b
    · subst hb
      rcases Nat.lt_or_ge p o with hlt | hge
      · have hlt' : ¬ o + f.1 ≤ p := by omega
        simp [hlt', Nat.not_le.2 hlt]
      · by_cases hin : p < o + f.1
        · have hsub : p - o < f.1 := by omega
          simp [hge, hin, hsub, Nat.not_le.2 hin]
        · have hsub : ¬ p - o < f.1 := by omega
          simp [hge, hin, hsub, Nat.not_lt.1 hin, Nat.sub_sub]
    · simp [hb]

/-- Fields put into a buffer write that buffer's memory and nothing else. -/
theorem State.putFields_eq_setBuf (s : State) (b : BufId) (o : Nat) (fields : List (Nat × Nat)) :
    ∃ m, s.putFields b o fields = s.setBuf b m := by
  induction fields generalizing s o with
  | nil => exact ⟨s.buf b, by cases b <;> rfl⟩
  | cons f fs ih =>
    obtain ⟨m, hm⟩ := ih (s.putField b o f.1 f.2) (o + f.1)
    exact ⟨m, by rw [State.putFields, hm]; cases b <;> rfl⟩

/-- The state with the fields of a list in buffer `b` from position 0 on and `LEN[b]` their length. -/
def State.encoded (s : State) (b : BufId) (fields : List (Nat × Nat)) : State :=
  (s.putFields b 0 fields).setLen b (BitVec.ofNat 64 (fieldsLen fields))

section
variable (s : State) (b : BufId) (fields : List (Nat × Nat))

theorem State.encoded_bitsAre : bitsAre s (s.encoded b fields) b (streamOf fields) := by
  intro b' p
  rw [State.encoded, State.setLen_bit, State.putFields_bit]
  simp
theorem State.encoded_sameGaps : sameGaps s (s.encoded b fields) := by
  obtain ⟨m, hm⟩ := s.putFields_eq_setBuf b 0 fields
  intro g i
  rw [State.encoded, State.setLen_gapRead, hm, State.setBuf_gapRead]
theorem State.encoded_sameHost : sameHost s (s.encoded b fields) := by
  obtain ⟨m, hm⟩ := s.putFields_eq_setBuf b 0 fields
  rw [State.encoded, hm]
  exact ⟨rfl, rfl, rfl⟩
@[simp] theorem State.encoded_regs :
    (s.encoded b fields).regs = s.regs.setLen b (BitVec.ofNat 64 (fieldsLen fields)) := by
  obtain ⟨m, hm⟩ := s.putFields_eq_setBuf b 0 fields
  rw [State.encoded, State.setLen_regs, hm, State.setBuf_regs]
@[simp] theorem State.encoded_responses : (s.encoded b fields).responses = s.responses := by
  rw [State.encoded, State.setLen_responses, State.putFields_responses]

end

/-! ### An encode that does not fit (R191, R211, R213, R254) -/

section
variable {s : State} {b : BufId} {fields : List (Nat × Nat)} {n : Nat}

/-- Appends of which the first `n` fit and the next does not put those `n` and raise. -/
theorem appendFields_full (hn : n < fields.length) (hfit : fieldsLen (fields.take n) ≤ s.capBits b)
    (hfull : s.capBits b < fieldsLen (fields.take (n + 1))) (hcap : s.capBits b < 2 ^ 64) :
    appendFields b fields (s.setLen b 0#64) = .raised .capacityViolation (s.encoded b (fields.take n)) := by
  have hsplit : fields = fields.take n ++ fields[n] :: fields.drop (n + 1) := by
    rw [← List.drop_eq_getElem_cons hn, List.take_append_drop]
  have hfirst := appendFields_fits (o := 0) (by rwa [Nat.zero_add]) hcap
  rw [Nat.zero_add] at hfirst
  have hlen : ((s.encoded b (fields.take n)).len b).toNat = fieldsLen (fields.take n) := by
    rw [State.encoded, State.setLen_len, if_pos rfl, BitVec.toNat_ofNat, Nat.mod_eq_of_lt (hfit.trans_lt hcap)]
  have hcapBits : (s.encoded b (fields.take n)).capBits b = s.capBits b := by
    obtain ⟨m, hm⟩ := s.putFields_eq_setBuf b 0 (fields.take n)
    rw [State.encoded, State.setLen_capBits, hm, State.setBuf_capBits]
  have hnext : (s.encoded b (fields.take n)).capBits b <
      ((s.encoded b (fields.take n)).len b).toNat + fields[n].1 := by
    rw [List.take_succ_eq_append_getElem hn, fieldsLen_append] at hfull
    rw [hcapBits, hlen]
    exact hfull
  calc appendFields b fields (s.setLen b 0#64)
      = appendFields b (fields.take n ++ fields[n] :: fields.drop (n + 1)) (s.setLen b 0#64) := by rw [← hsplit]
    _ = appendFields b (fields[n] :: fields.drop (n + 1)) (s.encoded b (fields.take n)) := by
        rw [appendFields_append, hfirst]; rfl
    _ = .raised .capacityViolation (s.encoded b (fields.take n)) := by
        rw [appendFields, State.append_full hnext, andThen_raised]

/-- An encode whose fields do not all fit keeps those that do and raises. -/
theorem encode_full (hn : n < fields.length) (hfit : fieldsLen (fields.take n) ≤ s.capBits b)
    (hfull : s.capBits b < fieldsLen (fields.take (n + 1))) (hcap : s.capBits b < 2 ^ 64) :
    (andThen (appendFields b fields (s.setLen b 0#64)) fun _ t => .returned (t.len b).toNat t : Ended Nat) =
      .raised .capacityViolation (s.encoded b (fields.take n)) := by
  rw [appendFields_full hn hfit hfull hcap, andThen_raised]

end

/-- Fields that do not fit together have a first one that does not. -/
theorem exists_first_full {fields : List (Nat × Nat)} {cap : Nat} (h : cap < fieldsLen fields) :
    ∃ n < fields.length, fieldsLen (fields.take n) ≤ cap ∧ cap < fieldsLen (fields.take (n + 1)) := by
  induction fields generalizing cap with
  | nil => exact absurd h (Nat.not_lt_zero cap)
  | cons f fs ih =>
    rw [fieldsLen_cons] at h
    rcases Nat.lt_or_ge cap f.1 with hfirst | hfirst
    · exact ⟨0, Nat.succ_pos _, Nat.zero_le _, by simpa [fieldsLen] using hfirst⟩
    · obtain ⟨n, hn, hfit, hfull⟩ := ih (cap := cap - f.1) (by omega)
      refine ⟨n + 1, Nat.succ_lt_succ hn, ?_, ?_⟩
      · rw [List.take_succ_cons, fieldsLen_cons]; omega
      · rw [List.take_succ_cons, fieldsLen_cons]; omega


/-! ### ENC.FW (R191) -/

theorem exec_encFw (s : State) (b : BufId) (g : GapId) (w : Width) : exec (.encFw b g w) s =
    conclude 0x40#8 (if w = 0#6 then .raised .argumentError s
      else encodeInto (fun x => encodeGapFW b w.toNat (x + 1) x) b (s.gapSeq g) s) := rfl

section
variable {s : State} {b : BufId} {g : GapId} {w : Width} {n : Nat}

/-- ENC.FW of a stream that does not fit. -/
theorem exec_encFw_full (hw : w ≠ 0#6) (hn : n < (fieldsFW w.toNat (s.gapSeq g)).length)
    (hfit : fieldsLen ((fieldsFW w.toNat (s.gapSeq g)).take n) ≤ s.capBits b)
    (hfull : s.capBits b < fieldsLen ((fieldsFW w.toNat (s.gapSeq g)).take (n + 1))) (hcap : s.capBits b < 2 ^ 64) :
    exec (.encFw b g w) s =
      .next ((s.encoded b ((fieldsFW w.toNat (s.gapSeq g)).take n)).takeError 0x40#8 .capacityViolation) := by
  rw [exec_encFw, if_neg hw, encodeInto_fw b w.toNat (one_le_toNat_of_ne_zero hw), encode_full hn hfit hfull hcap,
    conclude_raised]

end

/-- Positions inside a capacity fit `LEN` (R36). -/
theorem EngineOk.capBits_lt_word {s : State} (h : EngineOk s) (b : BufId) : s.capBits b < 2 ^ 64 :=
  (h.capBits_lt b).trans (by decide)

/-- What an encode that fitted leaves, once it is answered. -/
theorem State.encoded_respond_frame (s : State) (b : BufId) (fields : List (Nat × Nat)) (ret : Word) :
    bitsAre s ((s.encoded b fields).respond statusOk ret) b (streamOf fields) ∧
      sameGaps s ((s.encoded b fields).respond statusOk ret) ∧
      ((s.encoded b fields).respond statusOk ret).regs = s.regs.setLen b (BitVec.ofNat 64 (fieldsLen fields)) ∧
      sameHost s ((s.encoded b fields).respond statusOk ret) ∧
      answered s ((s.encoded b fields).respond statusOk ret) 0#8 ret :=
  ⟨fun b' p => by rw [State.respond_bit, s.encoded_bitsAre], fun g i => by rw [State.respond_gapRead, s.encoded_sameGaps],
    s.encoded_regs b fields, s.encoded_sameHost b fields,
    by rw [answered, State.respond_responses, State.encoded_responses, statusOk]⟩

/-- What an encode that did not fit leaves, once its error is taken: the fields that fitted (R254). -/
theorem State.encoded_takeError_frame (s : State) (b : BufId) (fields : List (Nat × Nat)) (op : Byte) :
    bitsAre s ((s.encoded b fields).takeError op .capacityViolation) b (streamOf fields) ∧
      sameGaps s ((s.encoded b fields).takeError op .capacityViolation) ∧
      ((s.encoded b fields).takeError op .capacityViolation).regs =
        { s.regs.setLen b (BitVec.ofNat 64 (fieldsLen fields)) with fault := faultAfter s.regs.fault op.toNat 3 } ∧
      sameHost s ((s.encoded b fields).takeError op .capacityViolation) ∧
      answered s ((s.encoded b fields).takeError op .capacityViolation) 3#8 0#64 := by
  refine ⟨fun b' p => ?bits, fun g i => ?gaps, ?regs, s.encoded_sameHost b fields, ?answer⟩
  case bits => rw [State.takeError_bit, s.encoded_bitsAre]
  case gaps => rw [State.takeError_gapRead, s.encoded_sameGaps]
  case regs => rw [State.takeError_regs, State.encoded_regs, updateFault_eq_faultAfter, Regs.setLen_fault]; rfl
  case answer => rw [answered, State.takeError_responses, State.encoded_responses, errorCode]

/-- Settles O42: the command's fields are those of the stream (R92), and they fit. -/
theorem encFwWritesStream : Obligations.EncFwWritesStream := by
  intro s b g w arg hinv hw hfit
  obtain ⟨hok, -⟩ := s.inv_iff.1 hinv
  exact ⟨decode_fieldWord (op := 0x40#8) rfl trivial arg, _, exec_encFw_fits hw hfit (hok.capBits_lt_word b),
    s.encoded_respond_frame b _ _⟩

/-- Settles O43: the first `n` fields fit and the next one is refused by `Append` (R59). -/
theorem encFwAbortsAtCapacity : Obligations.EncFwAbortsAtCapacity := by
  intro s b g w n hinv hw hn hfit hfull
  obtain ⟨hok, -⟩ := s.inv_iff.1 hinv
  exact ⟨_, exec_encFw_full hw hn hfit hfull (hok.capBits_lt_word b), s.encoded_takeError_frame b _ 0x40#8⟩


/-! ### Fields read back from a buffer (R56, R91) -/

/-- The fields of a list read back from buffer `b`, one behind the other from position `o` on. -/
def State.HoldsFields (s : State) (b : BufId) : (o : Nat) → List (Nat × Nat) → Prop
  | _, [] => True
  | o, f :: fs => s.getField b o f.1 = f.2 ∧ s.HoldsFields b (o + f.1) fs

theorem State.holdsFields_append {s : State} {b : BufId} {o : Nat} {xs ys : List (Nat × Nat)} :
    s.HoldsFields b o (xs ++ ys) ↔ s.HoldsFields b o xs ∧ s.HoldsFields b (o + fieldsLen xs) ys := by
  induction xs generalizing o with
  | nil => simp [State.HoldsFields, fieldsLen]
  | cons f fs ih => rw [List.cons_append, State.HoldsFields, State.HoldsFields, ih, fieldsLen_cons, Nat.add_assoc, and_assoc]

/-- A buffer with the bits of a stream from position `o` on holds its fields, if every value fits its width. -/
theorem State.holdsFields_of_bits {s : State} {b : BufId} {o : Nat} {fields : List (Nat × Nat)}
    (hvalues : ∀ f ∈ fields, f.2 < 2 ^ f.1) (hbits : ∀ i x, (streamOf fields)[i]? = some x → s.bit b (o + i) = x) :
    s.HoldsFields b o fields := by
  induction fields generalizing o with
  | nil => trivial
  | cons f fs ih =>
    obtain ⟨hvalue, hrest⟩ := List.forall_mem_cons.1 hvalues
    refine ⟨State.getField_eq_of_bits hvalue fun i hi => hbits i _ ?_, ih hrest fun i x hx => ?_⟩
    · rw [streamOf_cons_getElem?, if_pos hi]
    · rw [Nat.add_assoc]
      refine hbits (f.1 + i) x ?_
      rw [streamOf_cons_getElem?, if_neg (Nat.not_lt.2 (Nat.le_add_right _ _)), Nat.add_sub_cancel_left]
      exact hx

theorem State.holdsFields_of_holdsStream {s : State} {b : BufId} {fields : List (Nat × Nat)}
    (hvalues : ∀ f ∈ fields, f.2 < 2 ^ f.1) (h : holdsStream s b (streamOf fields)) : s.HoldsFields b 0 fields :=
  State.holdsFields_of_bits hvalues fun i x hx => by rw [Nat.zero_add]; exact h i x hx

/-! ### The decoders' loop over codes it can read (R192, R212) -/

/-- `one` reads the code of each of these gaps wherever buffer `b` of `src` holds it below `limit`: the gap, and the position
behind the code. -/
def ReadsCodes (one : Nat → Option (Nat × Nat)) (code : Nat → List (Nat × Nat)) (src : State) (b : BufId) (limit : Nat)
    (gaps : List Nat) : Prop :=
  ∀ x ∈ gaps, ∀ pos, src.HoldsFields b pos (code x) → pos + fieldsLen (code x) ≤ limit →
    one pos = some (x, pos + fieldsLen (code x))

/-- While every code reads back as its gap, the loop stores the gaps and goes on behind their codes. -/
theorem decodeGaps_codes {one : Nat → Option (Nat × Nat)} {code : Nat → List (Nat × Nat)} {src : State} {b : BufId}
    {limit : Nat} (g : GapId) {gaps : List Nat} (hone : ReadsCodes one code src b limit gaps) (n k pos : Nat)
    (s : State) (hheld : src.HoldsFields b pos (gaps.flatMap code)) (hlimit : pos + fieldsLen (gaps.flatMap code) ≤ limit) :
    decodeGaps one g (gaps.length + n) k pos s =
      decodeGaps one g n (k + gaps.length) (pos + fieldsLen (gaps.flatMap code)) (s.writeGaps g k gaps) := by
  induction gaps generalizing k pos s with
  | nil => rw [State.writeGaps_nil, List.length_nil, Nat.zero_add]; rfl
  | cons x xs ih =>
    rw [List.flatMap_cons, State.holdsFields_append] at hheld
    obtain ⟨hfirst, hrest⟩ := hheld
    rw [List.flatMap_cons, fieldsLen_append, ← Nat.add_assoc] at hlimit ⊢
    have hread := hone x List.mem_cons_self pos hfirst (by omega)
    have hcount : (x :: xs).length + n = (xs.length + n) + 1 := by rw [List.length_cons]; omega
    have hstored : k + (x :: xs).length = k + 1 + xs.length := by rw [List.length_cons]; omega
    rw [hcount, hstored, decodeGaps, hread, State.writeGaps_cons]
    exact ih (fun y hy => hone y (List.mem_cons_of_mem x hy)) _ _ _ hrest hlimit

/-- The state with the gaps of a list in gap memory `g` from entry 0 on and `GLEN[g]` their number. -/
def State.decoded (s : State) (g : GapId) (gaps : List Nat) : State :=
  (s.writeGaps g 0 gaps).setGlen g (BitVec.ofNat 64 gaps.length)

section
variable {one : Nat → Option (Nat × Nat)} {code : Nat → List (Nat × Nat)} {s : State} {b : BufId} {limit count : Nat}
  {g : GapId} {gaps : List Nat} (hone : ReadsCodes one code s b limit gaps)
  (hheld : s.HoldsFields b 0 (gaps.flatMap code)) (hlimit : fieldsLen (gaps.flatMap code) ≤ limit)
include hone hheld hlimit

/-- A decode of as many gaps as the stream has codes stores them all and returns the bits consumed. -/
theorem decodeInto_codes (hentries : gaps.length ≤ s.params.gapEntries) :
    decodeInto one g gaps.length s = .returned (fieldsLen (gaps.flatMap code)) (s.decoded g gaps) := by
  have hloop := decodeGaps_codes g hone 0 0 0 s hheld (by rwa [Nat.zero_add])
  rw [Nat.zero_add, Nat.zero_add, Nat.add_zero] at hloop
  rw [decodeInto, if_neg (Nat.not_lt.2 hentries), hloop]
  rfl

/-- A decode of more gaps, which meets an unreadable code behind the last readable one, keeps the complete gaps (R255). -/
theorem decodeInto_unreadable (hcount : gaps.length < count) (hentries : count ≤ s.params.gapEntries)
    (hnone : one (fieldsLen (gaps.flatMap code)) = none) :
    decodeInto one g count s = .raised .decodeError (s.decoded g gaps) := by
  obtain ⟨n, rfl⟩ := Nat.exists_eq_add_of_lt hcount
  have hloop := decodeGaps_codes g hone (n + 1) 0 0 s hheld (by rwa [Nat.zero_add])
  rw [Nat.zero_add, Nat.zero_add] at hloop
  rw [decodeInto, if_neg (Nat.not_lt.2 hentries), Nat.add_assoc, hloop, decodeGaps, hnone]
  rfl

end

section
variable (s : State) (g : GapId) (gaps : List Nat)

theorem State.decoded_gapsAre : gapsAre s (s.decoded g gaps) g gaps :=
  gapsAre_of_writeGaps fun g' i => by rw [State.decoded, State.setGlen_gapRead]
theorem State.decoded_sameBits : sameBits s (s.decoded g gaps) := fun b p => by
  rw [State.decoded, State.setGlen_bit, State.writeGaps_bit]
@[simp] theorem State.decoded_regs : (s.decoded g gaps).regs = s.regs.setGlen g (BitVec.ofNat 64 gaps.length) := rfl

/-- What a decode that found all its gaps leaves, once it is answered. -/
theorem State.decoded_respond_frame (ret : Word) :
    gapsAre s ((s.decoded g gaps).respond statusOk ret) g gaps ∧
      sameBits s ((s.decoded g gaps).respond statusOk ret) ∧
      ((s.decoded g gaps).respond statusOk ret).regs = s.regs.setGlen g (BitVec.ofNat 64 gaps.length) ∧
      sameHost s ((s.decoded g gaps).respond statusOk ret) ∧
      answered s ((s.decoded g gaps).respond statusOk ret) 0#8 ret :=
  ⟨fun g' i => by rw [State.respond_gapRead, s.decoded_gapsAre], fun b p => by rw [State.respond_bit, s.decoded_sameBits],
    rfl, ⟨rfl, rfl, rfl⟩, rfl⟩

/-- What a decode that met an unreadable code leaves, once its error is taken: the complete gaps (R255). -/
theorem State.decoded_takeError_frame (op : Byte) :
    gapsAre s ((s.decoded g gaps).takeError op .decodeError) g gaps ∧
      sameBits s ((s.decoded g gaps).takeError op .decodeError) ∧
      ((s.decoded g gaps).takeError op .decodeError).regs =
        { s.regs.setGlen g (BitVec.ofNat 64 gaps.length) with fault := faultAfter s.regs.fault op.toNat 4 } ∧
      sameHost s ((s.decoded g gaps).takeError op .decodeError) ∧
      answered s ((s.decoded g gaps).takeError op .decodeError) 4#8 0#64 := by
  refine ⟨fun g' i => ?gaps, fun b p => ?bits, ?regs, ⟨rfl, rfl, rfl⟩, rfl⟩
  case gaps => rw [State.takeError_gapRead, s.decoded_gapsAre]
  case bits => rw [State.takeError_bit, s.decoded_sameBits]
  case regs => rw [State.takeError_regs, State.decoded_regs, updateFault_eq_faultAfter, Regs.setGlen_fault]; rfl

end

/-! ### The fixed-width code of one gap, read back (R192, R194, R196) -/

/-- The fields of one gap (R92). -/
def codeFW (w x : Nat) : List (Nat × Nat) := List.replicate (x / sentinel w) (w, sentinel w) ++ [(w, x % sentinel w)]

theorem fieldsFW_eq_flatMap (w : Nat) (gaps : List Nat) : fieldsFW w gaps = gaps.flatMap (codeFW w) := rfl

theorem fieldsLen_replicate (n k v : Nat) : fieldsLen (List.replicate n (k, v)) = n * k := by simp [fieldsLen]
theorem fieldsLen_codeFW (w x : Nat) : fieldsLen (codeFW w x) = x / sentinel w * w + w := by
  rw [codeFW, fieldsLen_append, fieldsLen_replicate]
  rfl

theorem sentinel_pos {w : Nat} (hw : 1 ≤ w) : 0 < sentinel w := Nat.sub_pos_of_lt (Nat.one_lt_two_pow (by omega))
theorem sentinel_lt (w : Nat) : sentinel w < 2 ^ w := Nat.sub_lt (Nat.two_pow_pos w) Nat.one_pos

/-- Every word of the fixed-width code fits its `w` bits. -/
theorem fieldsFW_values {w : Nat} (hw : 1 ≤ w) (gaps : List Nat) : ∀ f ∈ fieldsFW w gaps, f.2 < 2 ^ f.1 := by
  intro f hf
  obtain ⟨x, -, hx⟩ := List.mem_flatMap.1 hf
  rcases List.mem_append.1 hx with hrep | hlast
  · obtain rfl := List.eq_of_mem_replicate hrep
    exact sentinel_lt w
  · obtain rfl := List.mem_singleton.1 hlast
    exact (Nat.mod_lt x (sentinel_pos hw)).trans (sentinel_lt w)

section
variable {src : State} {b : BufId} {w pos acc : Nat}

/-- A run of sentinels, below the declared length and below `2^32`, is read over and added up. -/
theorem decodeGapFW_sentinels {j : Nat} (fuel : Nat) (hheld : src.HoldsFields b pos (List.replicate j (w, sentinel w)))
    (hlen : pos + j * w ≤ (src.len b).toNat) (hacc : acc + j * sentinel w < 2 ^ 32) :
    decodeGapFW src b w (fuel + j) pos acc = decodeGapFW src b w fuel (pos + j * w) (acc + j * sentinel w) := by
  induction j generalizing pos acc with
  | zero => rw [Nat.zero_mul, Nat.zero_mul]; rfl
  | succ j ih =>
    obtain ⟨hfield, hrest⟩ := hheld
    rw [Nat.succ_mul] at hlen hacc ⊢
    rw [Nat.succ_mul]
    have hread : ¬ pos + w > (src.len b).toNat := by omega
    have htotal : ¬ acc + sentinel w ≥ 2 ^ Config.gapBits := by unfold Config.gapBits; omega
    rw [← Nat.add_assoc, decodeGapFW, hfield, if_neg hread, if_neg htotal, if_pos rfl,
      ih hrest (by omega) (by omega)]
    congr 1 <;> omega

/-- A word that is no sentinel ends the gap (R198). -/
theorem decodeGapFW_last {v : Nat} (fuel : Nat) (hfield : src.getField b pos w = v) (hv : v < sentinel w)
    (hlen : pos + w ≤ (src.len b).toNat) (hacc : acc + v < 2 ^ 32) :
    decodeGapFW src b w (fuel + 1) pos acc = some (acc + v, pos + w) := by
  have htotal : ¬ acc + v ≥ 2 ^ Config.gapBits := Nat.not_le.2 hacc
  rw [decodeGapFW, hfield, if_neg (Nat.not_lt.2 hlen), if_neg htotal, if_neg hv.ne]

/-- A word past the declared length, or one that brings the total to `2^32`, is an error (R194, R196). -/
theorem decodeGapFW_rejects (fuel : Nat)
    (h : (src.len b).toNat < pos + w ∨ 2 ^ 32 ≤ acc + src.getField b pos w) :
    decodeGapFW src b w (fuel + 1) pos acc = none := by
  rw [decodeGapFW]
  split
  · rfl
  · next hread => exact if_pos (h.resolve_left hread)

/-- The code of a gap reads back as the gap, and the position behind it. -/
theorem decodeGapFW_code {x fuel : Nat} (hw : 1 ≤ w) (hx : x < 2 ^ 32) (hfuel : (src.len b).toNat < fuel)
    (hheld : src.HoldsFields b pos (codeFW w x)) (hlen : pos + fieldsLen (codeFW w x) ≤ (src.len b).toNat) :
    decodeGapFW src b w fuel pos 0 = some (x, pos + fieldsLen (codeFW w x)) := by
  obtain ⟨hrun, hlast, -⟩ := State.holdsFields_append.1 hheld
  rw [fieldsLen_codeFW] at hlen ⊢
  rw [fieldsLen_replicate] at hlast
  have hvalue : x / sentinel w * sentinel w + x % sentinel w = x := Nat.div_add_mod' x (sentinel w)
  have hwords : x / sentinel w ≤ x / sentinel w * w := Nat.le_mul_of_pos_right _ hw
  obtain ⟨n, rfl⟩ : ∃ n, fuel = n + 1 + x / sentinel w := ⟨fuel - 1 - x / sentinel w, by omega⟩
  rw [decodeGapFW_sentinels (n + 1) hrun (by omega) (by omega), Nat.zero_add,
    decodeGapFW_last n hlast (Nat.mod_lt x (sentinel_pos hw)) (by omega) (by omega), hvalue, Nat.add_assoc]

/-- DEC.FW's fuel is enough for a gap of `j` sentinels and a word that is refused. -/
theorem decodeGapFW_rejects_after_sentinels {j : Nat} (hw : 1 ≤ w)
    (hheld : src.HoldsFields b pos (List.replicate j (w, sentinel w))) (hlen : pos + j * w ≤ (src.len b).toNat)
    (hacc : j * sentinel w < 2 ^ 32)
    (hbad : (src.len b).toNat < pos + j * w + w ∨ 2 ^ 32 ≤ j * sentinel w + src.getField b (pos + j * w) w) :
    decodeGapFW src b w ((src.len b).toNat + 1) pos 0 = none := by
  have hwords : j ≤ j * w := Nat.le_mul_of_pos_right _ hw
  obtain ⟨n, hfuel⟩ : ∃ n, (src.len b).toNat + 1 = n + 1 + j := ⟨(src.len b).toNat - j, by omega⟩
  rw [hfuel, decodeGapFW_sentinels (n + 1) hheld hlen (by rwa [Nat.zero_add]), Nat.zero_add]
  exact decodeGapFW_rejects n hbad

end

/-- DEC.FW's reader reads the codes of 32-bit gaps. -/
theorem decodeGapFW_readsCodes (s : State) (b : BufId) {w : Nat} (hw : 1 ≤ w) {gaps : List Nat}
    (hlt : ∀ x ∈ gaps, x < 2 ^ 32) :
    ReadsCodes (fun pos => decodeGapFW s b w ((s.len b).toNat + 1) pos 0) (codeFW w) s b (s.len b).toNat gaps :=
  fun x hx _ => decodeGapFW_code hw (hlt x hx) (Nat.lt_succ_self _)

/-! ### DEC.FW (R192) -/

theorem exec_decFw (s : State) (b : BufId) (g : GapId) (w : Width) (count : Word) : exec (.decFw b g w count) s =
    conclude 0x41#8 (if w = 0#6 then .raised .argumentError s
      else decodeInto (fun pos => decodeGapFW s b w.toNat ((s.len b).toNat + 1) pos 0) g count.toNat s) := rfl
theorem exec_decRg (s : State) (b : BufId) (g : GapId) (w : Width) (count : Word) : exec (.decRg b g w count) s =
    conclude 0x51#8 (decodeInto (fun pos => decodeGapRG s b w.toNat pos) g count.toNat s) := rfl

section
variable {s : State} {b : BufId} {g : GapId} {w : Width} {gaps : List Nat} {count : Word} (hw : w ≠ 0#6)
  (hlt : ∀ x ∈ gaps, x < 2 ^ 32)
include hw hlt

/-- DEC.FW of the number of gaps whose stream the buffer holds. -/
theorem exec_decFw_reads (hlen : fieldsLen (fieldsFW w.toNat gaps) ≤ (s.len b).toNat) (hcount : count.toNat = gaps.length)
    (hentries : gaps.length ≤ s.params.gapEntries) (hheld : holdsStream s b (streamOf (fieldsFW w.toNat gaps))) :
    exec (.decFw b g w count) s =
      .next ((s.decoded g gaps).respond statusOk (BitVec.ofNat 64 (fieldsLen (fieldsFW w.toNat gaps)))) := by
  have hpos := one_le_toNat_of_ne_zero hw
  have hfields := State.holdsFields_of_holdsStream (fieldsFW_values hpos gaps) hheld
  rw [exec_decFw, if_neg hw, hcount, decodeInto_codes (decodeGapFW_readsCodes s b hpos hlt) hfields hlen hentries,
    conclude_returned, fieldsFW_eq_flatMap]

/-- DEC.FW of more gaps than the buffer holds codes of, with an unreadable one behind those. -/
theorem exec_decFw_rejects {j : Nat} (hcount : gaps.length < count.toNat) (hentries : count.toNat ≤ s.params.gapEntries)
    (hacc : j * sentinel w.toNat < 2 ^ 32) (hrun : fieldsLen (fieldsFW w.toNat gaps) + j * w.toNat ≤ (s.len b).toNat)
    (hheld : holdsStream s b (streamOf (fieldsFW w.toNat gaps ++ List.replicate j (w.toNat, sentinel w.toNat))))
    (hbad : (s.len b).toNat < fieldsLen (fieldsFW w.toNat gaps) + j * w.toNat + w.toNat ∨
      2 ^ 32 ≤ j * sentinel w.toNat + s.getField b (fieldsLen (fieldsFW w.toNat gaps) + j * w.toNat) w.toNat) :
    exec (.decFw b g w count) s = .next ((s.decoded g gaps).takeError 0x41#8 .decodeError) := by
  have hpos := one_le_toNat_of_ne_zero hw
  have hlen : fieldsLen (fieldsFW w.toNat gaps) ≤ (s.len b).toNat := le_of_add_le_left hrun
  have hvalues : ∀ f ∈ fieldsFW w.toNat gaps ++ List.replicate j (w.toNat, sentinel w.toNat), f.2 < 2 ^ f.1 := by
    refine List.forall_mem_append.2 ⟨fieldsFW_values hpos gaps, fun f hf => ?_⟩
    rw [List.eq_of_mem_replicate hf]
    exact sentinel_lt _
  obtain ⟨hcodes, hsentinels⟩ := State.holdsFields_append.1 (State.holdsFields_of_holdsStream hvalues hheld)
  rw [Nat.zero_add] at hsentinels
  have hnone := decodeGapFW_rejects_after_sentinels hpos hsentinels hrun hacc hbad
  rw [exec_decFw, if_neg hw,
    decodeInto_unreadable (decodeGapFW_readsCodes s b hpos hlt) hcodes hlen hcount hentries hnone, conclude_raised]

end

/-- A number of entries of the gap memory fits the operand and `GLEN` (R6). -/
theorem EngineOk.toNat_ofNat_entries {s : State} (h : EngineOk s) {n : Nat} (hn : n ≤ s.params.gapEntries) :
    (BitVec.ofNat 64 n).toNat = n := by
  obtain ⟨-, -, -, hentries⟩ := h.legal
  rw [BitVec.toNat_ofNat]
  omega

/-- Settles O48: every code of the stream reads back as its gap, and the count asks for no more. -/
theorem decFwReadsStream : Obligations.DecFwReadsStream := by
  intro s b g w gaps hinv hw hlt hentries hlen hheld
  obtain ⟨hok, -⟩ := s.inv_iff.1 hinv
  exact ⟨decode_fieldWord (op := 0x41#8) rfl trivial _, _,
    exec_decFw_reads hw hlt hlen (hok.toNat_ofNat_entries hentries) hentries hheld, s.decoded_respond_frame g gaps _⟩

/-- Settles O50: the codes of the complete gaps and the sentinels are read, and the next word is refused. -/
theorem decFwRejectsStream : Obligations.DecFwRejectsStream := by
  intro s b g w gaps j count _ hw hlt hcount hentries hacc hrun hheld hbad
  exact ⟨_, exec_decFw_rejects hw hlt hcount hentries hacc hrun hheld hbad, s.decoded_takeError_frame g gaps 0x41#8⟩

/-! ### Operands the fixed-width commands and the decoders refuse (R192, R193, R212) -/

/-- Settles O46: the width is tested first. -/
theorem fixedWidthZeroRefused : Obligations.FixedWidthZeroRefused := by
  intro s b g count
  rw [exec_encFw, exec_decFw, if_pos rfl, if_pos rfl]
  exact ⟨conclude_raised_onlyError 0x40#8 .argumentError s, conclude_raised_onlyError 0x41#8 .argumentError s⟩

/-- A decode of more gaps than the gap memory has entries is refused with nothing written (R257). -/
theorem decodeInto_onlyError {s : State} {count : Nat} (h : s.params.gapEntries < count) (op : Byte)
    (one : Nat → Option (Nat × Nat)) (g : GapId) :
    ∃ t, conclude op (decodeInto one g count s) = .next t ∧ onlyError op.toNat 5 s t := by
  rw [decodeInto, if_pos h]
  exact conclude_raised_onlyError op .gapCapacityViolation s

/-- Settles O47: both decoders test the count in `decodeInto`, before their loop. -/
theorem decodeCountRefused : Obligations.DecodeCountRefused := by
  intro s b g w count hcount
  refine ⟨fun hw => ?_, ?_⟩
  · rw [exec_decFw, if_neg hw]
    exact decodeInto_onlyError hcount 0x41#8 _ g
  · rw [exec_decRg]
    exact decodeInto_onlyError hcount 0x51#8 _ g

/-! ### The round trip (R197) -/

/-- A buffer that an encode left holds its stream. -/
theorem holdsStream_of_bitsAre {s t : State} {b : BufId} {bits : List Bool} (h : bitsAre s t b bits) :
    holdsStream t b bits := by
  intro p x hx
  rw [h, if_pos rfl, hx]
  rfl

/-- The entry a decode of another memory's gap sequence leaves is that memory's. -/
theorem State.overlay_gapSeq (s : State) (g : GapId) {i : Nat} (hi : i < (s.glen g).toNat) (old : Gap) :
    overlay (s.gapSeq g) i old = s.gapRead g i := by
  have hget : (s.gapSeq g)[i]? = some (s.gapRead g i).toNat := by
    simp [State.gapSeq, State.gapList, hi]
  simp [overlay, hget]

/-- A register is read from the register file. -/
theorem State.len_congr {s t : State} (h : t.regs = s.regs) (b : BufId) : t.len b = s.len b := by
  cases b <;> simp [State.len, h]
theorem State.glen_congr {s t : State} (h : t.regs = s.regs) (g : GapId) : t.glen g = s.glen g := by
  cases g <;> simp [State.glen, h]

/-- Settles O52: an encode that does not fit is not answered `OK` (O43); one that fits leaves the stream of the gaps (O42), which
DEC.FW reads back. -/
theorem fixedWidthRoundTrip : Obligations.FixedWidthRoundTrip := by
  intro s b g g' w hinv hw
  obtain ⟨hok, -⟩ := s.inv_iff.1 hinv
  rcases Nat.lt_or_ge (s.capBits b) (fieldsLen (fieldsFW w.toNat (s.gapSeq g))) with hfull | hfit
  · obtain ⟨n, hn, hfits, hnext⟩ := exists_first_full hfull
    obtain ⟨t, ht, -, -, -, -, herr⟩ := encFwAbortsAtCapacity s b g w n hinv hw hn hfits hnext
    exact ⟨t, ht, fun L hL => absurd (answered_inj herr hL).1 (by decide)⟩
  obtain ⟨-, t, ht, hbits, -, hregs, ⟨hparams, -, -⟩, hanswer⟩ := encFwWritesStream s b g w 0#64 hinv hw hfit
  refine ⟨t, ht, fun L hL => ?_⟩
  obtain ⟨-, rfl⟩ := answered_inj hanswer hL
  have hcount : (s.glen g).toNat = (s.gapSeq g).length := (s.gapSeq_length g).symm
  have hentries : (s.gapSeq g).length ≤ t.params.gapEntries := by rw [hparams, ← hcount]; exact hok.counts g
  have htlen : t.len b = BitVec.ofNat 64 (fieldsLen (fieldsFW w.toNat (s.gapSeq g))) :=
    (State.len_congr (s := s.setLen b _) hregs b).trans (by simp)
  have hlen : fieldsLen (fieldsFW w.toNat (s.gapSeq g)) ≤ (t.len b).toNat := by
    rw [htlen, BitVec.toNat_ofNat, Nat.mod_eq_of_lt (hfit.trans_lt (hok.capBits_lt_word b))]
  have hread := exec_decFw_reads (g := g') hw (s.gapSeq_lt g) hlen hcount hentries (holdsStream_of_bitsAre hbits)
  obtain ⟨hgaps, -, huregs, -, hans⟩ :=
    t.decoded_respond_frame g' (s.gapSeq g) (BitVec.ofNat 64 (fieldsLen (fieldsFW w.toNat (s.gapSeq g))))
  refine ⟨_, hread, hans, ?ulen, htlen, ?uglen, fun i hi => ?entry⟩
  case ulen => exact (State.len_congr (s := t.setGlen g' _) huregs b).trans ((State.setGlen_len ..).trans htlen)
  case uglen => exact (State.glen_congr (s := t.setGlen g' _) huregs g').trans (by simp [← hcount])
  case entry => rw [hgaps, if_pos rfl, s.overlay_gapSeq g hi]

end Machine
end Sys2Proof

/-! ## The family of spec/44_rice_golomb_codec.md: the streams ENC.RG writes, what DEC.RG reads back, and their errors -/

namespace Sys2Proof
namespace Machine

/-! ### ENC.RG (R211, R213) -/

theorem exec_encRg (s : State) (b : BufId) (g : GapId) (w : Width) : exec (.encRg b g w) s =
    conclude 0x50#8 (encodeInto (fun x => encodeGapRG b w.toNat x) b (s.gapSeq g) s) := rfl

/-- ENC.RG of a stream that does not fit. -/
theorem exec_encRg_full {s : State} {b : BufId} {g : GapId} {w : Width} {n : Nat}
    (hn : n < (fieldsRG w.toNat (s.gapSeq g)).length)
    (hfit : fieldsLen ((fieldsRG w.toNat (s.gapSeq g)).take n) ≤ s.capBits b)
    (hfull : s.capBits b < fieldsLen ((fieldsRG w.toNat (s.gapSeq g)).take (n + 1))) (hcap : s.capBits b < 2 ^ 64) :
    exec (.encRg b g w) s =
      .next ((s.encoded b ((fieldsRG w.toNat (s.gapSeq g)).take n)).takeError 0x50#8 .capacityViolation) := by
  rw [exec_encRg, encodeInto_rg, encode_full hn hfit hfull hcap, conclude_raised]

/-- Settles O44: the command's fields are those of the stream (R93), and they fit. -/
theorem encRgWritesStream : Obligations.EncRgWritesStream := by
  intro s b g w arg hinv hfit
  obtain ⟨hok, -⟩ := s.inv_iff.1 hinv
  exact ⟨decode_fieldWord (op := 0x50#8) rfl trivial arg, _, exec_encRg_fits hfit (hok.capBits_lt_word b),
    s.encoded_respond_frame b _ _⟩

/-- Settles O45: every quotient bit, terminator and remainder is an append of its own (R213), so the first `n` of them fit and
the next one is refused (R59). -/
theorem encRgAbortsAtCapacity : Obligations.EncRgAbortsAtCapacity := by
  intro s b g w n hinv hn hfit hfull
  obtain ⟨hok, -⟩ := s.inv_iff.1 hinv
  exact ⟨_, exec_encRg_full hn hfit hfull (hok.capBits_lt_word b), s.encoded_takeError_frame b _ 0x50#8⟩

/-! ### The Rice-Golomb code of one gap, read back (R212, R214, R216) -/

/-- The fields of one gap (R93). -/
def codeRG (w x : Nat) : List (Nat × Nat) := List.replicate (x / 2 ^ w) (1, 1) ++ [(1, 0), (w, x % 2 ^ w)]

theorem fieldsRG_eq_flatMap (w : Nat) (gaps : List Nat) : fieldsRG w gaps = gaps.flatMap (codeRG w) := rfl

theorem fieldsLen_codeRG (w x : Nat) : fieldsLen (codeRG w x) = x / 2 ^ w + 1 + w := by
  rw [codeRG, fieldsLen_append, fieldsLen_replicate, Nat.mul_one, Nat.add_assoc]
  rfl

/-- Every field of the Rice-Golomb code fits its width, the remainder of width 0 included. -/
theorem fieldsRG_values (w : Nat) (gaps : List Nat) : ∀ f ∈ fieldsRG w gaps, f.2 < 2 ^ f.1 := by
  intro f hf
  obtain ⟨x, -, hx⟩ := List.mem_flatMap.1 hf
  rcases List.mem_append.1 hx with hones | hlast
  · obtain rfl := List.eq_of_mem_replicate hones
    exact Nat.one_lt_two
  · rcases List.mem_pair.1 hlast with rfl | rfl
    · exact Nat.two_pos
    · exact Nat.mod_lt x (Nat.two_pow_pos w)

/-- A field of one bit is that bit (R56). -/
theorem State.getField_one (s : State) (b : BufId) (p : Nat) : s.getField b p 1 = (s.bit b p).toNat := by
  simp [State.getField]

section
variable {src : State} {b : BufId} {w pos q : Nat}

/-- Ones below the declared length are read over and counted. -/
theorem decodeUnary_ones (fuel count : Nat) (hheld : src.HoldsFields b pos (List.replicate q (1, 1)))
    (hlen : pos + q ≤ (src.len b).toNat) :
    decodeUnary src b (fuel + q) pos count = decodeUnary src b fuel (pos + q) (count + q) := by
  induction q generalizing pos count with
  | zero => rfl
  | succ q ih =>
    obtain ⟨hfield, hrest⟩ := hheld
    have hone : src.bit b pos = true := by rwa [State.getField_one, Bool.toNat_eq_one] at hfield
    have hread : ¬ pos + 1 > (src.len b).toNat := by omega
    rw [← Nat.add_assoc, decodeUnary, if_neg hread, if_pos hone, ih (count + 1) hrest (by omega)]
    congr 1 <;> omega

/-- DEC.RG's fuel lasts beyond a run of ones below the declared length. -/
theorem decodeUnary_behind_ones (hheld : src.HoldsFields b pos (List.replicate q (1, 1)))
    (hlen : pos + q ≤ (src.len b).toNat) :
    ∃ n, decodeUnary src b ((src.len b).toNat + 1) pos 0 = decodeUnary src b (n + 1) (pos + q) q := by
  obtain ⟨n, hfuel⟩ : ∃ n, (src.len b).toNat + 1 = n + 1 + q := ⟨(src.len b).toNat - q, by omega⟩
  exact ⟨n, by rw [hfuel, decodeUnary_ones (n + 1) 0 hheld hlen, Nat.zero_add]⟩

/-- A run of ones that a zero ends, below the declared length, is the quotient. -/
theorem decodeUnary_terminated (hheld : src.HoldsFields b pos (List.replicate q (1, 1)))
    (hzero : src.bit b (pos + q) = false) (hlen : pos + q < (src.len b).toNat) :
    decodeUnary src b ((src.len b).toNat + 1) pos 0 = some (q, pos + q + 1) := by
  obtain ⟨n, hrun⟩ := decodeUnary_behind_ones hheld hlen.le
  rw [hrun, decodeUnary, if_neg (Nat.not_lt.2 hlen), hzero, if_neg Bool.false_ne_true]

/-- A run of ones up to the declared length has no terminator to read (R214). -/
theorem decodeUnary_unterminated (hheld : src.HoldsFields b pos (List.replicate q (1, 1)))
    (hlen : (src.len b).toNat = pos + q) : decodeUnary src b ((src.len b).toNat + 1) pos 0 = none := by
  obtain ⟨n, hrun⟩ := decodeUnary_behind_ones hheld hlen.ge
  rw [hrun, decodeUnary, if_pos (hlen ▸ Nat.lt_succ_self _)]

/-- Behind a terminated quotient there is the remainder, below the declared length (R214) and of a value below `2^32` (R216). -/
theorem decodeGapRG_terminated (hheld : src.HoldsFields b pos (List.replicate q (1, 1)))
    (hzero : src.bit b (pos + q) = false) (hlen : pos + q < (src.len b).toNat) :
    decodeGapRG src b w pos =
      if pos + q + 1 + w > (src.len b).toNat then none
      else if q * 2 ^ w + src.getField b (pos + q + 1) w ≥ 2 ^ Config.gapBits then none
      else some (q * 2 ^ w + src.getField b (pos + q + 1) w, pos + q + 1 + w) := by
  rw [decodeGapRG, decodeUnary_terminated hheld hzero hlen]

/-- The code of a gap reads back as the gap, and the position behind it. -/
theorem decodeGapRG_code {x : Nat} (hx : x < 2 ^ 32) (hheld : src.HoldsFields b pos (codeRG w x))
    (hlen : pos + fieldsLen (codeRG w x) ≤ (src.len b).toNat) :
    decodeGapRG src b w pos = some (x, pos + fieldsLen (codeRG w x)) := by
  obtain ⟨hones, hterminator, hremainder, -⟩ := State.holdsFields_append.1 hheld
  rw [fieldsLen_codeRG] at hlen ⊢
  rw [fieldsLen_replicate, Nat.mul_one] at hterminator hremainder
  have hzero : src.bit b (pos + x / 2 ^ w) = false := by rwa [State.getField_one, Bool.toNat_eq_zero] at hterminator
  have hvalue : x / 2 ^ w * 2 ^ w + x % 2 ^ w = x := Nat.div_add_mod' x (2 ^ w)
  have hread : ¬ pos + x / 2 ^ w + 1 + w > (src.len b).toNat := by omega
  have hfits : ¬ x ≥ 2 ^ Config.gapBits := Nat.not_le.2 hx
  rw [decodeGapRG_terminated hones hzero (by omega), hremainder, hvalue, if_neg hread, if_neg hfits]
  simp only [Nat.add_assoc]

/-- No terminator, no room for the remainder, or a value of `2^32` or more: the code is refused (R214, R216). -/
theorem decodeGapRG_rejects (hheld : src.HoldsFields b pos (List.replicate q (1, 1)))
    (hlen : pos + q ≤ (src.len b).toNat)
    (hbad : (src.len b).toNat = pos + q ∨ (src.bit b (pos + q) = false ∧
      ((src.len b).toNat < pos + q + 1 + w ∨ 2 ^ 32 ≤ q * 2 ^ w + src.getField b (pos + q + 1) w))) :
    decodeGapRG src b w pos = none := by
  rcases hlen.eq_or_lt with hend | hin
  · rw [decodeGapRG, decodeUnary_unterminated hheld hend.symm]
  · obtain ⟨hzero, hremainder⟩ := hbad.resolve_left hin.ne'
    rw [decodeGapRG_terminated hheld hzero hin]
    split
    · rfl
    · next hread => exact if_pos (hremainder.resolve_left hread)

end

/-- DEC.RG's reader reads the codes of 32-bit gaps. -/
theorem decodeGapRG_readsCodes (s : State) (b : BufId) (w : Nat) {gaps : List Nat} (hlt : ∀ x ∈ gaps, x < 2 ^ 32) :
    ReadsCodes (fun pos => decodeGapRG s b w pos) (codeRG w) s b (s.len b).toNat gaps :=
  fun x hx _ => decodeGapRG_code (hlt x hx)

/-! ### DEC.RG (R212) -/

section
variable {s : State} {b : BufId} {g : GapId} {w : Width} {gaps : List Nat} {count : Word} (hlt : ∀ x ∈ gaps, x < 2 ^ 32)
include hlt

/-- DEC.RG of the number of gaps whose stream the buffer holds. -/
theorem exec_decRg_reads (hlen : fieldsLen (fieldsRG w.toNat gaps) ≤ (s.len b).toNat) (hcount : count.toNat = gaps.length)
    (hentries : gaps.length ≤ s.params.gapEntries) (hheld : holdsStream s b (streamOf (fieldsRG w.toNat gaps))) :
    exec (.decRg b g w count) s =
      .next ((s.decoded g gaps).respond statusOk (BitVec.ofNat 64 (fieldsLen (fieldsRG w.toNat gaps)))) := by
  have hfields := State.holdsFields_of_holdsStream (fieldsRG_values w.toNat gaps) hheld
  rw [exec_decRg, hcount, decodeInto_codes (decodeGapRG_readsCodes s b w.toNat hlt) hfields hlen hentries,
    conclude_returned, fieldsRG_eq_flatMap]

/-- DEC.RG of more gaps than the buffer holds codes of, with an unreadable one behind those. -/
theorem exec_decRg_rejects {q : Nat} (hcount : gaps.length < count.toNat) (hentries : count.toNat ≤ s.params.gapEntries)
    (hrun : fieldsLen (fieldsRG w.toNat gaps) + q ≤ (s.len b).toNat)
    (hheld : holdsStream s b (streamOf (fieldsRG w.toNat gaps ++ List.replicate q (1, 1))))
    (hbad : (s.len b).toNat = fieldsLen (fieldsRG w.toNat gaps) + q ∨
      (s.bit b (fieldsLen (fieldsRG w.toNat gaps) + q) = false ∧
        ((s.len b).toNat < fieldsLen (fieldsRG w.toNat gaps) + q + 1 + w.toNat ∨
          2 ^ 32 ≤ q * 2 ^ w.toNat + s.getField b (fieldsLen (fieldsRG w.toNat gaps) + q + 1) w.toNat))) :
    exec (.decRg b g w count) s = .next ((s.decoded g gaps).takeError 0x51#8 .decodeError) := by
  have hlen : fieldsLen (fieldsRG w.toNat gaps) ≤ (s.len b).toNat := le_of_add_le_left hrun
  have hvalues : ∀ f ∈ fieldsRG w.toNat gaps ++ List.replicate q (1, 1), f.2 < 2 ^ f.1 := by
    refine List.forall_mem_append.2 ⟨fieldsRG_values w.toNat gaps, fun f hf => ?_⟩
    rw [List.eq_of_mem_replicate hf]
    exact Nat.one_lt_two
  obtain ⟨hcodes, hones⟩ := State.holdsFields_append.1 (State.holdsFields_of_holdsStream hvalues hheld)
  rw [Nat.zero_add] at hones
  have hnone := decodeGapRG_rejects hones hrun hbad
  rw [exec_decRg, decodeInto_unreadable (decodeGapRG_readsCodes s b w.toNat hlt) hcodes hlen hcount hentries hnone,
    conclude_raised]

end

/-- Settles O49: every code of the stream reads back as its gap, and the count asks for no more. -/
theorem decRgReadsStream : Obligations.DecRgReadsStream := by
  intro s b g w gaps hinv hlt hentries hlen hheld
  obtain ⟨hok, -⟩ := s.inv_iff.1 hinv
  exact ⟨decode_fieldWord (op := 0x51#8) rfl trivial _, _,
    exec_decRg_reads hlt hlen (hok.toNat_ofNat_entries hentries) hentries hheld, s.decoded_respond_frame g gaps _⟩

/-- Settles O51: the codes of the complete gaps are read, and the code behind them, which starts with `q` ones, is refused. -/
theorem decRgRejectsStream : Obligations.DecRgRejectsStream := by
  intro s b g w gaps q count _ hlt hcount hentries hrun hheld hbad
  exact ⟨_, exec_decRg_rejects hlt hcount hentries hrun hheld hbad, s.decoded_takeError_frame g gaps 0x51#8⟩

/-! ### The round trip (R217) -/

/-- A decode leaves the cursors and sets its own count. -/
theorem State.decoded_len (s : State) (g : GapId) (gaps : List Nat) (b : BufId) : (s.decoded g gaps).len b = s.len b :=
  (State.len_congr (s := s.setGlen g _) (s.decoded_regs g gaps) b).trans (State.setGlen_len ..)
theorem State.decoded_glen (s : State) (g : GapId) (gaps : List Nat) :
    (s.decoded g gaps).glen g = BitVec.ofNat 64 gaps.length := by
  rw [State.decoded, State.setGlen_glen, if_pos rfl]

/-- DEC.RG, over a buffer that holds the stream of another state's gap sequence, gives that sequence back. -/
theorem exec_decRg_gapSeq {s t : State} {b : BufId} {g : GapId} {w : Width} (g' : GapId)
    (hlen : fieldsLen (fieldsRG w.toNat (s.gapSeq g)) ≤ (t.len b).toNat)
    (hentries : (s.glen g).toNat ≤ t.params.gapEntries)
    (hheld : holdsStream t b (streamOf (fieldsRG w.toNat (s.gapSeq g)))) :
    ∃ u, exec (.decRg b g' w (s.glen g)) t = .next u ∧
      answered t u 0#8 (BitVec.ofNat 64 (fieldsLen (fieldsRG w.toNat (s.gapSeq g)))) ∧ u.len b = t.len b ∧
      u.glen g' = s.glen g ∧ ∀ i, i < (s.glen g).toNat → u.gapRead g' i = s.gapRead g i := by
  have hcount : (s.glen g).toNat = (s.gapSeq g).length := (s.gapSeq_length g).symm
  refine ⟨_, exec_decRg_reads (s.gapSeq_lt g) hlen hcount (hcount ▸ hentries) hheld, rfl, ?len, ?glen, fun i hi => ?entry⟩
  case len => rw [State.respond_len, State.decoded_len]
  case glen => rw [State.respond_glen, State.decoded_glen, ← hcount, BitVec.ofNat_toNat, BitVec.setWidth_eq]
  case entry => rw [State.respond_gapRead, State.decoded_gapsAre, if_pos rfl, s.overlay_gapSeq g hi]

/-- Settles O53: an encode that does not fit is answered with an error (O45); one that fits leaves the stream of the gaps (O44),
which DEC.RG reads back. -/
theorem riceGolombRoundTrip : Obligations.RiceGolombRoundTrip := by
  intro s b g g' w hinv
  obtain ⟨hok, -⟩ := s.inv_iff.1 hinv
  rcases Nat.lt_or_ge (s.capBits b) (fieldsLen (fieldsRG w.toNat (s.gapSeq g))) with hfull | hfit
  case inl =>
    obtain ⟨n, hn, hfits, hnext⟩ := exists_first_full hfull
    obtain ⟨t, ht, -, -, -, -, herr⟩ := encRgAbortsAtCapacity s b g w n hinv hn hfits hnext
    exact ⟨t, ht, fun L hL => absurd (answered_inj herr hL).1 (by decide)⟩
  case inr =>
    obtain ⟨-, t, ht, hbits, -, hregs, ⟨hparams, -, -⟩, hanswer⟩ := encRgWritesStream s b g w 0#64 hinv hfit
    refine ⟨t, ht, fun L hL => ?_⟩
    obtain ⟨-, rfl⟩ := answered_inj hanswer hL
    have htlen : t.len b = BitVec.ofNat 64 (fieldsLen (fieldsRG w.toNat (s.gapSeq g))) :=
      (State.len_congr (s := s.setLen b _) hregs b).trans (by simp)
    have hlen : fieldsLen (fieldsRG w.toNat (s.gapSeq g)) ≤ (t.len b).toNat := by
      rw [htlen, BitVec.toNat_ofNat, Nat.mod_eq_of_lt (hfit.trans_lt (hok.capBits_lt_word b))]
    obtain ⟨u, hu, hans, hulen, hglen, hentry⟩ :=
      exec_decRg_gapSeq g' hlen (hparams ▸ hok.counts g) (holdsStream_of_bitsAre hbits)
    exact ⟨u, hu, hans, hulen.trans htlen, htlen, hglen, hentry⟩

end Machine
end Sys2Proof

/-! ## The family of spec/45_system_commands.md: RESET, and the registers by number -/

namespace Sys2Proof
namespace Machine

/-! ### Only RESET clears a recorded error (R230, R256) -/

/-- From `s` to `t` FAULT did not change. -/
def KeepsFault (s t : State) : Prop := t.regs.fault = s.regs.fault

theorem KeepsFault.refl (s : State) : KeepsFault s s := rfl

theorem TouchesBuffer.keepsFault {b : BufId} {s t : State} (h : TouchesBuffer b s t) : KeepsFault s t := by
  obtain ⟨v, hregs⟩ := h.regs
  rw [KeepsFault, hregs, Regs.setLen_fault]
theorem TouchesGaps.keepsFault {g : GapId} {s t : State} (h : TouchesGaps g s t) : KeepsFault s t := by
  obtain ⟨v, hregs⟩ := h.regs
  rw [KeepsFault, hregs, Regs.setGlen_fault]
theorem State.writeReg_keepsFault (s : State) (r : Reg) (v : Word) : KeepsFault s (s.writeReg r v) := by
  obtain ⟨-, -, -, -, -, hfault⟩ := s.writeReg_frame r v
  exact hfault

/-- Every command but RESET is a procedure that leaves FAULT alone, and then its answer. -/
theorem exec_concludes_keepsFault {i : Instr} (hi : i ≠ .reset) (s : State) :
    ∃ r, exec i s = conclude i.opcode r ∧ KeepsFault s r.state := by
  have hrefl : KeepsFault s s := .refl s
  cases i with
  | reset => exact absurd rfl hi
  | rdreg r =>
    refine ⟨_, rfl, ?_⟩
    split <;> exact hrefl
  | wrreg r value =>
    refine ⟨_, rfl, ?_⟩
    split
    · exact hrefl
    · exact state_of_guard hrefl fun _ => s.writeReg_keepsFault _ value
  | setbit b pos => exact ⟨_, rfl, state_of_guard hrefl fun _ => hrefl⟩
  | getbit b pos => exact ⟨_, rfl, state_of_guard hrefl fun _ => hrefl⟩
  | append b w value => exact ⟨_, rfl, state_of_guard hrefl fun _ => (s.append_touches b _ _).keepsFault⟩
  | readf b w offset => exact ⟨_, rfl, state_of_guard hrefl fun _ => hrefl⟩
  | bbclr b => exact ⟨.returned _ _, rfl, (State.setLen_touches (s.setBuf b _) b _).keepsFault⟩
  | extract b g n => exact ⟨_, rfl, state_of_guard hrefl fun _ => (extractScan_touches s b g _ _ _ _ s).keepsFault⟩
  | gaprd g index => exact ⟨_, rfl, state_of_guard hrefl fun _ => hrefl⟩
  | gapwr g index value => exact ⟨_, rfl, state_of_guard hrefl fun _ => (s.gapWrite_touches g _ value).keepsFault⟩
  | optFw g => exact ⟨.returned _ _, rfl, hrefl⟩
  | optRg g => exact ⟨.returned _ _, rfl, hrefl⟩
  | encFw b g w =>
    exact ⟨_, rfl, state_of_refusal hrefl fun _ =>
      (encodeInto_touches (fun x => encodeGapFW_touches b _ (x + 1) x) _ s).keepsFault⟩
  | decFw b g w count => exact ⟨_, rfl, state_of_refusal hrefl fun _ => (decodeInto_touches _ g _ s).keepsFault⟩
  | encRg b g w => exact ⟨_, rfl, (encodeInto_touches (encodeGapRG_touches b _) _ s).keepsFault⟩
  | decRg b g w count => exact ⟨_, rfl, (decodeInto_touches _ g _ s).keepsFault⟩

/-- A procedure's end does not replace an error FAULT already holds (R256). -/
theorem conclude_keepsFault {op : Byte} {r : Ended Nat} {s t : State} (h : KeepsFault s r.state)
    (hf : faultCode s.regs.fault ≠ 0#8) (ht : conclude op r = .next t) : KeepsFault s t := by
  obtain ⟨n, u, rfl, rfl⟩ | ⟨e, u, rfl, rfl⟩ := conclude_cases ht
  · exact h
  · have hu : u.regs.fault = s.regs.fault := h
    rw [KeepsFault, State.takeError_regs, Regs.setFault_fault, hu, updateFault_later hf]

theorem exec_keepsFault {i : Instr} {s t : State} (hi : i ≠ .reset) (hf : faultCode s.regs.fault ≠ 0#8)
    (ht : exec i s = .next t) : KeepsFault s t := by
  obtain ⟨r, hexec, hr⟩ := exec_concludes_keepsFault hi s
  exact conclude_keepsFault hr hf (hexec ▸ ht)

theorem exec_reset (s : State) : exec .reset s = .next (({ s with regs := Regs.zero } : State).respond statusOk 0#64) := rfl

/-- Settles O19: RESET has one way to end, with zero registers; every other command keeps the error FAULT holds. -/
theorem resetClearsRegisters : Obligations.ResetClearsRegisters := by
  intro s arg
  refine ⟨?decodes, ⟨_, exec_reset s, State.readReg_of_zero rfl, rfl, ⟨rfl, rfl, rfl⟩, rfl⟩, fun i u hi hf hu => ?others⟩
  case decodes =>
    exact decode_fieldWord (op := 0x01#8) (w := 0#6) (b := .b0) (g := .g0) rfl ⟨rfl, rfl, rfl⟩ arg
  case others => exact exec_keepsFault hi (mt (faultCode_eq_zero_iff _).1 hf) hu

/-! ### The words that name a register (R24, R85) -/

/-- RDREG's word and WRREG's, of a number below 10, are commands. -/
theorem decode_rdreg {r : Width} (hr : registerNumberOk r) (arg : Word) :
    decode (fieldWord 0x02 r 0 0) arg = .ok (.rdreg r) :=
  decode_fieldWord (op := 0x02#8) (b := .b0) (g := .g0) rfl ⟨hr, rfl, rfl⟩ arg
theorem decode_wrreg {r : Width} (hr : registerNumberOk r) (v : Word) :
    decode (fieldWord 0x03 r 0 0) v = .ok (.wrreg r v) :=
  decode_fieldWord (op := 0x03#8) (b := .b0) (g := .g0) rfl ⟨hr, rfl, rfl⟩ v

/-- A word whose row takes a register number, but whose number is none, is refused for it. -/
theorem decode_registerNumber {op : Byte} {row : Row} (hrow : rowOf op = some row) (hformat : row.format = .r) {r : Width}
    (hr : ¬ registerNumberOk r) (arg : Word) :
    decode (fieldWord op.toNat r 0 0) arg = .error .registerNumber := by
  have hword : fieldWord op.toNat r 0 0 = commandWord op r .b0 .g0 := fieldWord_eq_commandWord op r .b0 .g0
  rw [hword]
  simp [decode, hrow, hformat, hr, formatUsesW, bitOfBuf, bitOfGap]

/-! ### Registers by number (R24) -/

/-- The registers in the order of their numbers. -/
def Regs.file (r : Regs) : List Word :=
  [r.fault, r.capw0, r.capw1, r.len0, r.len1, r.glen0, r.glen1, r.optW, r.optBits, r.optWords]

/-- A number finds in that list the register it names, and nothing if it names none. -/
theorem Regs.file_getElem? (s : State) (r : Width) : s.regs.file[r.toNat]? = (regOfNumber r).map s.readReg := by
  unfold regOfNumber
  generalize r.toNat = n
  match n with
  | 0 | 1 | 2 | 3 | 4 | 5 | 6 | 7 | 8 | 9 => rfl
  | n + 10 => rfl

@[simp] theorem regOfNumber_capwNumber (b : BufId) : regOfNumber (capwNumber b) = some (.capw b) := by cases b <;> rfl
@[simp] theorem regOfNumber_lenNumber (b : BufId) : regOfNumber (lenNumber b) = some (.len b) := by cases b <;> rfl
@[simp] theorem regOfNumber_glenNumber (g : GapId) : regOfNumber (glenNumber g) = some (.glen g) := by cases g <;> rfl

/-! ### RDREG (R231) -/

theorem exec_rdreg {r : Width} {reg : Reg} (hreg : regOfNumber r = some reg) (s : State) :
    exec (.rdreg r) s = .next (s.respond statusOk (s.readReg reg)) := by
  have hexec : exec (.rdreg r) s = execRdreg r s := rfl
  rw [hexec, execRdreg, hreg, conclude_returned, BitVec.ofNat_toNat, BitVec.setWidth_eq]

/-- Settles O20: a number that finds a register in the list names it, and RDREG answers it; a number of 10 or more is refused
by the decoder. -/
theorem rdregReturnsRegister : Obligations.RdregReturnsRegister := by
  intro s r arg
  refine ⟨fun v hv => ?register, fun hr => decode_registerNumber (op := 0x02#8) rfl rfl (Nat.not_lt.2 hr) arg⟩
  case register =>
    obtain ⟨hlt, -⟩ := List.getElem?_eq_some_iff.1 hv
    obtain ⟨reg, hreg, rfl⟩ := Option.map_eq_some_iff.1 ((Regs.file_getElem? s r).symm.trans hv)
    exact ⟨decode_rdreg hlt arg, _, exec_rdreg hreg s, rfl, rfl, ⟨rfl, rfl, rfl⟩, rfl⟩

/-! ### WRREG (R232) -/

theorem State.writeLegal_capw_iff (s : State) (b : BufId) (v : Word) :
    s.writeLegal (.capw b) v = true ↔ v.toNat ≤ s.params.bbWords ∧ (s.len b).toNat ≤ 64 * v.toNat := decide_eq_true_iff
theorem State.writeLegal_len_iff (s : State) (b : BufId) (v : Word) :
    s.writeLegal (.len b) v = true ↔ v.toNat ≤ 64 * (s.capw b).toNat := decide_eq_true_iff
theorem State.writeLegal_glen_iff (s : State) (g : GapId) (v : Word) :
    s.writeLegal (.glen g) v = true ↔ v.toNat ≤ s.params.gapEntries := decide_eq_true_iff

section
variable {s : State} {r : Width} {reg : Reg} {v : Word}

theorem exec_wrreg (hreg : regOfNumber r = some reg) : exec (.wrreg r v) s =
    conclude 0x03#8 (if s.writeLegal reg v then .returned 0 (s.writeReg reg v) else .raised .argumentError s) := by
  have hexec : exec (.wrreg r v) s = execWrreg r v s := rfl
  rw [hexec, execWrreg, hreg, Instr.opcode]

/-- WRREG of a legal value is one register write, answered `OK`. -/
theorem exec_wrreg_legal (hreg : regOfNumber r = some reg) (hv : s.writeLegal reg v = true) :
    exec (.wrreg r v) s = .next ((s.writeReg reg v).respond statusOk 0#64) := by
  rw [exec_wrreg hreg, if_pos hv, conclude_returned]

/-- WRREG to a register it may not write, or of a value that is not legal there, is refused with nothing written. -/
theorem exec_wrreg_illegal (hreg : regOfNumber r = some reg) (hv : ¬ s.writeLegal reg v = true) :
    ∃ t, exec (.wrreg r v) s = .next t ∧ onlyError 0x03 2 s t := by
  rw [exec_wrreg hreg, if_neg hv]
  exact conclude_raised_onlyError 0x03#8 .argumentError s

end

/-- Settles O21, by the kinds of register WRREG may write: the number names the register, the conditions are those of its
legality. -/
theorem wrregWritesLegalValue : Obligations.WrregWritesLegalValue := by
  intro s v
  refine ⟨fun r hr => decode_wrreg hr v, fun b hwords hlen => ?capw, fun b hv => ?len, fun g hv => ?glen⟩
  case capw =>
    exact ⟨_, exec_wrreg_legal (regOfNumber_capwNumber b) ((s.writeLegal_capw_iff b v).2 ⟨hwords, hlen⟩), rfl, rfl,
      ⟨rfl, rfl, rfl⟩, rfl⟩
  case len =>
    exact ⟨_, exec_wrreg_legal (regOfNumber_lenNumber b) ((s.writeLegal_len_iff b v).2 hv), rfl, rfl, ⟨rfl, rfl, rfl⟩, rfl⟩
  case glen =>
    exact ⟨_, exec_wrreg_legal (regOfNumber_glenNumber g) ((s.writeLegal_glen_iff g v).2 hv), rfl, rfl, ⟨rfl, rfl, rfl⟩, rfl⟩

/-- The read-only registers are FAULT and the optimizer's three (R24); no value is legal for them. -/
theorem exists_readOnly_of_number {r : Width} (h : r.toNat ∈ [0, 7, 8, 9]) :
    ∃ reg, regOfNumber r = some reg ∧ ∀ (s : State) (v : Word), ¬ s.writeLegal reg v = true := by
  simp only [List.mem_cons, List.not_mem_nil, or_false] at h
  obtain h | h | h | h := h
  · exact ⟨.fault, by simp [regOfNumber, h], fun _ _ => Bool.false_ne_true⟩
  · exact ⟨.optW, by simp [regOfNumber, h], fun _ _ => Bool.false_ne_true⟩
  · exact ⟨.optBits, by simp [regOfNumber, h], fun _ _ => Bool.false_ne_true⟩
  · exact ⟨.optWords, by simp [regOfNumber, h], fun _ _ => Bool.false_ne_true⟩

/-- Settles O22, by the kinds of register: each condition denies the legality test of the register the number names. -/
theorem wrregRefusesIllegalValue : Obligations.WrregRefusesIllegalValue := by
  rintro s r v (hr | ⟨b, rfl, hv⟩ | ⟨b, rfl, hv⟩ | ⟨g, rfl, hv⟩)
  case inl =>
    obtain ⟨reg, hreg, hro⟩ := exists_readOnly_of_number hr
    exact exec_wrreg_illegal hreg (hro s v)
  case inr.inl =>
    refine exec_wrreg_illegal (regOfNumber_capwNumber b) fun hlegal => ?_
    obtain ⟨hwords, hlen⟩ := (s.writeLegal_capw_iff b v).1 hlegal
    omega
  case inr.inr.inl =>
    exact exec_wrreg_illegal (regOfNumber_lenNumber b) (mt (s.writeLegal_len_iff b v).1 (Nat.not_le.2 hv))
  case inr.inr.inr =>
    exact exec_wrreg_illegal (regOfNumber_glenNumber g) (mt (s.writeLegal_glen_iff g v).1 (Nat.not_le.2 hv))

end Machine
end Sys2Proof

/-! ## The family of spec/60_exceptions.md: illegal words, the FAULT record, and the statuses of each command -/

namespace Sys2Proof

/-- A command's word carries its opcode in `cw[7:0]` (R81). -/
theorem opField_encode (i : Instr) : opField (encode i).1 = i.opcode := by
  cases i <;> exact opField_commandWord _ _ _ _

namespace Machine

/-! ### Illegal words (R252) -/

/-- A word that no line of R86's table accepts does not decode. -/
theorem exists_decode_error {cw : CmdWord} (arg : Word)
    (h : ∀ row ∈ commandTable, ¬ (cw.toNat &&& row.1 = row.2.1 ∧ (row.2.2 = true → cw.toNat / 256 % 64 < 10))) :
    ∃ e, decode cw arg = .error e := by
  cases hd : decode cw arg with
  | error e => exact ⟨e, rfl⟩
  | ok i =>
    obtain ⟨haccepts, -⟩ := decodeAcceptsByMask cw arg
    obtain ⟨row, hrow, hmatch⟩ := haccepts.1 ⟨i, hd⟩
    exact absurd hmatch (h row hrow)

/-- Settles O8: such a word raises before anything is written, with `cw[7:0]` as its opcode byte. -/
theorem stepIllegalWord : Obligations.StepIllegalWord := by
  intro s cw arg rest hp hillegal
  obtain ⟨e, hd⟩ := exists_decode_error arg hillegal
  have hhead : s.withoutHead = { s with pending := rest } := by rw [State.withoutHead, hp, List.tail_cons]
  rw [step_of_decode_error hp hd, execIllegal, hhead, ← opField_toNat]
  exact conclude_raised_onlyError (opField cw) .illegalCommand _

/-! ### The status a procedure's end is answered with (R11, R251) -/

/-- `OK` where the procedure returned, and the error's code where it raised. -/
def Ended.status {α : Type} : Ended α → Byte
  | .returned _ _ => statusOk
  | .raised e _ => errorCode e

@[simp] theorem Ended.status_returned {α : Type} (a : α) (s : State) : (Ended.returned a s).status = statusOk := rfl
@[simp] theorem Ended.status_raised {α : Type} (e : Error) (s : State) : (Ended.raised e s : Ended α).status = errorCode e := rfl

section
variable {op : Byte} {r : Ended Nat} {t : State} {a : Response} {rs : List Response}

theorem status_of_answer (ht : conclude op r = .next t) (ha : t.responses = a :: rs) : a.status = r.status := by
  obtain ⟨n, u, rfl, rfl⟩ | ⟨e, u, rfl, rfl⟩ := conclude_cases ht
  · obtain ⟨rfl, -⟩ := List.cons.inj ha
    rfl
  · obtain ⟨rfl, -⟩ := List.cons.inj ha
    rfl

/-- R256 for a procedure that itself leaves FAULT alone: what its end does to FAULT is told by the status of the answer. -/
theorem fault_of_answer {s : State} (h : KeepsFault s r.state) (ht : conclude op r = .next t) (ha : t.responses = a :: rs) :
    t.regs.fault = if a.status = 0#8 then s.regs.fault else updateFault s.regs.fault op a.status := by
  rw [status_of_answer ht ha]
  obtain ⟨n, u, rfl, rfl⟩ | ⟨e, u, rfl, rfl⟩ := conclude_cases ht
  · exact Eq.trans h (if_pos rfl).symm
  · have hu : u.regs.fault = s.regs.fault := h
    rw [State.takeError_regs, Regs.setFault_fault, hu, Ended.status_raised, if_neg (errorCode_ne_zero e)]

end

/-! ### FAULT after a command word (R256) -/

/-- Every word but RESET's, legal or not, runs a procedure that leaves FAULT alone, concluded under the opcode byte of the
word. -/
theorem step_concludes_keepsFault {s : State} {cw : CmdWord} {arg : Word} {rest : List HostEvent}
    (hp : s.pending = .command cw arg :: rest) (hcw : cw ≠ 0x00000001#32) :
    ∃ r, step s = conclude (opField cw) r ∧ KeepsFault s r.state := by
  cases hd : decode cw arg with
  | error e => exact ⟨.raised .illegalCommand s.withoutHead, step_of_decode_error hp hd, rfl⟩
  | ok i =>
    obtain ⟨rfl, -⟩ := decodeDeterminesWord cw arg i hd
    have hi : i ≠ .reset := by
      rintro rfl
      exact hcw rfl
    obtain ⟨r, hexec, hr⟩ := exec_concludes_keepsFault hi s.withoutHead
    exact ⟨r, by rw [step_of_decode_ok hp hd, hexec, opField_encode], hr⟩

/-- Settles O16: RESET's word has its own end; every other word's is `fault_of_answer`. -/
theorem faultRecordsFirstError : Obligations.FaultRecordsFirstError := by
  intro s cw arg rest hp
  by_cases hcw : cw = 0x00000001#32
  case pos =>
    subst hcw
    obtain ⟨hd, -⟩ := resetClearsRegisters s arg
    exact ⟨_, _, (step_of_decode_ok hp hd).trans (exec_reset _), rfl, fun h => absurd rfl h, fun _ h => absurd rfl h,
      fun _ => ⟨rfl, rfl⟩⟩
  case neg =>
    obtain ⟨t, ht, -, a, ha, -⟩ := step_command_answersOnce hp
    obtain ⟨r, hstep, hr⟩ := step_concludes_keepsFault hp hcw
    have hfault := fault_of_answer hr (hstep ▸ ht) ha
    refine ⟨t, a, ht, ha, fun herror => ?error, fun hok _ => ?ok, fun h => absurd h hcw⟩
    case error => rw [hfault, if_neg herror, updateFault_eq_faultAfter, opField_toNat]
    case ok => rw [hfault, if_pos hok]

/-! ### The statuses of each command (R258) -/

section
variable {α β : Type} {codes : List Nat}

theorem status_of_guard {c : Prop} [Decidable c] {r : Ended α} {e : Error} {s : State} (he : (errorCode e).toNat ∈ codes)
    (hr : c → r.status.toNat ∈ codes) : (if c then r else .raised e s).status.toNat ∈ codes := by
  split
  · exact hr ‹c›
  · exact he

/-- The same with the test that refuses an operand written first. -/
theorem status_of_refusal {c : Prop} [Decidable c] {r : Ended α} {e : Error} {s : State} (he : (errorCode e).toNat ∈ codes)
    (hr : ¬ c → r.status.toNat ∈ codes) : (if c then .raised e s else r).status.toNat ∈ codes := by
  split
  · exact he
  · exact hr ‹¬ c›

theorem status_of_andThen {r : Ended α} {f : α → State → Ended β} (hr : r.status.toNat ∈ codes)
    (hf : ∀ a s, (f a s).status.toNat ∈ codes) : (andThen r f).status.toNat ∈ codes := by
  cases r with
  | returned a s => exact hf a s
  | raised e s => exact hr

end

/-- A procedure that only tests its operands and returns is answered `OK` or with the test's error. -/
theorem status_of_test {c : Prop} [Decidable c] (a : Nat) (s' : State) (e : Error) (s : State) :
    (if c then .returned a s' else .raised e s : Ended Nat).status.toNat ∈ [0, (errorCode e).toNat] :=
  status_of_guard (by simp) fun _ => by simp [statusOk]

/-- An append raises CapacityViolation or nothing (R59). -/
theorem State.append_status (s : State) (b : BufId) (k v : Nat) : (s.append b k v).status.toNat ∈ [0, 3] := by
  obtain ⟨-, heq⟩ | ⟨-, heq⟩ := s.append_cases b k v
  · simp [heq, statusOk]
  · simp [heq, errorCode]

theorem appendFields_status (b : BufId) (fields : List (Nat × Nat)) (s : State) :
    (appendFields b fields s).status.toNat ∈ [0, 3] := by
  induction fields generalizing s with
  | nil => simp [appendFields, statusOk]
  | cons f fs ih => exact status_of_andThen (s.append_status b f.1 f.2) fun _ => ih

/-- An encode is appends, and raises what they raise (R191, R211). -/
theorem encode_status (b : BufId) (fields : List (Nat × Nat)) (s : State) :
    (andThen (appendFields b fields (s.setLen b 0#64)) fun _ s' => .returned (s'.len b).toNat s' : Ended Nat).status.toNat ∈
      [0, 3] :=
  status_of_andThen (appendFields_status b fields _) fun _ _ => by simp [statusOk]

/-- A decode's loop raises DecodeError or nothing (R255). -/
theorem decodeGaps_status (one : Nat → Option (Nat × Nat)) (g : GapId) (n k pos : Nat) (s : State) :
    (decodeGaps one g n k pos s).status.toNat ∈ [0, 4] := by
  induction n generalizing k pos s with
  | zero => simp [decodeGaps, statusOk]
  | succ n ih =>
    rw [decodeGaps]
    split
    · simp [errorCode]
    · exact ih _ _ _

theorem decodeInto_status (one : Nat → Option (Nat × Nat)) (g : GapId) (count : Nat) (s : State) :
    (decodeInto one g count s).status.toNat ∈ [0, 4, 5] := by
  have hsub : [0, 4] ⊆ [0, 4, 5] := by simp
  exact status_of_refusal (by simp [errorCode]) fun _ => hsub (decodeGaps_status one g count 0 0 s)

/-- The scan of EXTRACT raises GapCapacityViolation or nothing (R151, R257). -/
theorem extractScan_status (src : State) (b : BufId) (g : GapId) (n p d k : Nat) (s : State) :
    (extractScan src b g n p d k s).status.toNat ∈ [0, 5] := by
  induction n generalizing p d k s with
  | zero => exact status_of_guard (by simp [errorCode]) fun _ => by simp [statusOk]
  | succ n ih =>
    rw [extractScan]
    split
    · exact status_of_guard (by simp [errorCode]) fun _ => ih _ _ _ _
    · exact ih _ _ _ _

/-- A register number that decoding admits names a register (R24). -/
theorem exists_reg_of_registerNumberOk {r : Width} (h : registerNumberOk r) : ∃ reg, regOfNumber r = some reg :=
  Option.isSome_iff_exists.1 ((regOfNumber_isSome r).trans (decide_eq_true h))

/-- Every command is a procedure that ends with a status of its row, and then its answer. -/
theorem exec_concludes_allowedStatus {i : Instr} (hi : i.wellFormed = true) (s : State) :
    ∃ r, exec i s = conclude i.opcode r ∧ r.status.toNat ∈ allowedStatus i := by
  cases i with
  | reset => exact ⟨.returned _ _, rfl, by simp [allowedStatus, statusOk]⟩
  | rdreg r =>
    obtain ⟨reg, hreg⟩ := exists_reg_of_registerNumberOk (of_decide_eq_true hi)
    refine ⟨_, rfl, ?_⟩
    simp [hreg, allowedStatus, statusOk]
  | wrreg r value =>
    obtain ⟨reg, hreg⟩ := exists_reg_of_registerNumberOk (of_decide_eq_true hi)
    exact ⟨_, exec_wrreg hreg, status_of_test _ _ _ _⟩
  | setbit b pos => exact ⟨_, rfl, status_of_test _ _ _ _⟩
  | getbit b pos => exact ⟨_, rfl, status_of_test _ _ _ _⟩
  | append b w value =>
    have hsub : [0, 3] ⊆ allowedStatus (.append b w value) := by simp [allowedStatus]
    refine ⟨_, rfl, status_of_guard ?_ fun _ => hsub (s.append_status b _ _)⟩
    simp [allowedStatus, errorCode]
  | readf b w offset => exact ⟨_, rfl, status_of_test _ _ _ _⟩
  | bbclr b => exact ⟨.returned _ _, rfl, by simp [allowedStatus, statusOk]⟩
  | extract b g n =>
    have hsub : [0, 5] ⊆ allowedStatus (.extract b g n) := by simp [allowedStatus]
    refine ⟨_, rfl, status_of_guard ?_ fun _ => hsub (extractScan_status s b g _ _ _ _ s)⟩
    simp [allowedStatus, errorCode]
  | gaprd g index => exact ⟨_, rfl, status_of_test _ _ _ _⟩
  | gapwr g index value => exact ⟨_, rfl, status_of_test _ _ _ _⟩
  | optFw g => exact ⟨.returned _ _, rfl, by simp [allowedStatus, statusOk]⟩
  | optRg g => exact ⟨.returned _ _, rfl, by simp [allowedStatus, statusOk]⟩
  | encFw b g w =>
    have hsub : [0, 3] ⊆ allowedStatus (.encFw b g w) := by simp [allowedStatus]
    refine ⟨_, exec_encFw s b g w, status_of_refusal ?_ fun hw => ?_⟩
    · simp [allowedStatus, errorCode]
    · rw [encodeInto_fw b _ (one_le_toNat_of_ne_zero hw)]
      exact hsub (encode_status b _ s)
  | decFw b g w count =>
    have hsub : [0, 4, 5] ⊆ allowedStatus (.decFw b g w count) := by simp [allowedStatus]
    refine ⟨_, exec_decFw s b g w count, status_of_refusal ?_ fun _ => hsub (decodeInto_status _ g _ s)⟩
    simp [allowedStatus, errorCode]
  | encRg b g w =>
    refine ⟨_, exec_encRg s b g w, ?_⟩
    rw [encodeInto_rg]
    exact encode_status b _ s
  | decRg b g w count => exact ⟨_, exec_decRg s b g w count, decodeInto_status _ g _ s⟩

/-- Settles O18: the one answer a command gives has the status its procedure ends with. -/
theorem statusesAsTabled : Obligations.StatusesAsTabled := by
  intro i s t hi ht
  obtain ⟨r, hexec, hstatus⟩ := exec_concludes_allowedStatus hi s
  obtain ⟨u, hu, -, a, ha, -⟩ := exec_answersOnce i s
  obtain rfl : t = u := Host.Outcome.next.inj (ht.symm.trans hu)
  exact ⟨a, ha, status_of_answer (hexec ▸ ht) ha ▸ hstatus⟩

end Machine
end Sys2Proof

/-! ## The family of spec/70_reset_and_hazards.md: the idle engine, and what `FAULT = 0` says of a run -/

namespace Sys2Proof
namespace Machine

/-- Settles O9: it is the first branch of `step`. -/
theorem stepIdleWaits : Obligations.StepIdleWaits := by
  intro s hp
  rw [step, hp]

/-! ### No reset pending (R306) -/

/-- The host has neither a hardware reset nor a RESET command ready. -/
def State.ResetFree (s : State) : Prop := ∀ ev ∈ s.pending, isReset ev = false

section
variable {s : State} {ev : HostEvent} {rest : List HostEvent}

/-- The next event of a reset-free port is a command word other than RESET's. -/
theorem State.ResetFree.exists_command (h : s.ResetFree) (hp : s.pending = ev :: rest) :
    ∃ cw arg, ev = .command cw arg ∧ cw ≠ 0x00000001#32 := by
  have hev : isReset ev = false := h ev (hp ▸ List.mem_cons_self)
  cases ev with
  | hardwareReset => cases hev
  | command cw arg => exact ⟨cw, arg, rfl, of_decide_eq_false hev⟩

theorem State.ResetFree.of_tail {t : State} (h : s.ResetFree) (hp : s.pending = ev :: rest) (ht : t.pending = rest) :
    t.ResetFree := by
  intro ev' hev'
  exact h ev' (hp ▸ List.mem_cons_of_mem ev (ht ▸ hev'))

end

theorem step_resetFree {s t : State} (h : s.ResetFree) (ht : step s = .next t) : t.ResetFree := by
  cases hp : s.pending with
  | nil =>
    obtain rfl : s = t := Host.Outcome.next.inj ((stepIdleWaits s hp).symm.trans ht)
    exact h
  | cons ev rest =>
    obtain ⟨u, hstep, hrest, -⟩ := stepAnswersEveryCommand s ev rest hp
    obtain rfl : u = t := Host.Outcome.next.inj (hstep.symm.trans ht)
    exact h.of_tail hp hrest

/-! ### An error leaves a code in FAULT (R25, R256) -/

theorem faultCode_updateFault_of_ne_zero {code : Byte} (hcode : code ≠ 0#8) (f : Word) (op : Byte) :
    faultCode (updateFault f op code) ≠ 0#8 := by
  by_cases hf : faultCode f = 0#8
  · rwa [updateFault_first hf, faultCode_faultRecord]
  · rwa [updateFault_later hf]

/-- A FAULT without a code at `t` had none at `s`, and every answer given from `s` to `t` is `OK`. It speaks of CODE and not of
the whole register, since an error changes FAULT only where CODE was 0 (R256). -/
def ErrorsShow (s t : State) : Prop :=
  faultCode t.regs.fault = 0#8 →
    faultCode s.regs.fault = 0#8 ∧ ∃ rs, t.responses = rs ++ s.responses ∧ ∀ r ∈ rs, r.status = 0#8

theorem ErrorsShow.refl (s : State) : ErrorsShow s s := fun h => ⟨h, [], rfl, nofun⟩

theorem ErrorsShow.trans {s t u : State} (hst : ErrorsShow s t) (htu : ErrorsShow t u) : ErrorsShow s u := by
  intro hu
  obtain ⟨ht, late, hlate, hlateOk⟩ := htu hu
  obtain ⟨hs, early, hearly, hearlyOk⟩ := hst ht
  exact ⟨hs, late ++ early, by rw [hlate, hearly, List.append_assoc], List.forall_mem_append.2 ⟨hlateOk, hearlyOk⟩⟩

/-- The step of a command word other than RESET's: an `OK` leaves FAULT as it was, any other status leaves a code there. -/
theorem step_command_errorsShow {s t : State} {cw : CmdWord} {arg : Word} {rest : List HostEvent}
    (hp : s.pending = .command cw arg :: rest) (hcw : cw ≠ 0x00000001#32) (ht : step s = .next t) : ErrorsShow s t := by
  obtain ⟨u, r, hstep, hanswer, herror, hok, -⟩ := faultRecordsFirstError s cw arg rest hp
  obtain rfl : u = t := Host.Outcome.next.inj (hstep.symm.trans ht)
  intro hcode
  by_cases hr : r.status = 0#8
  case pos => exact ⟨hok hr hcw ▸ hcode, [r], hanswer, List.forall_mem_singleton.2 hr⟩
  case neg =>
    rw [herror hr, ← opField_toNat, ← updateFault_eq_faultAfter] at hcode
    exact absurd hcode (faultCode_updateFault_of_ne_zero hr _ _)

theorem step_errorsShow {s t : State} (h : s.ResetFree) (ht : step s = .next t) : ErrorsShow s t := by
  cases hp : s.pending with
  | nil =>
    obtain rfl : s = t := Host.Outcome.next.inj ((stepIdleWaits s hp).symm.trans ht)
    exact .refl s
  | cons ev rest =>
    obtain ⟨cw, arg, rfl, hcw⟩ := h.exists_command hp
    exact step_command_errorsShow hp hcw ht

/-- Along a run that starts with no reset pending, errors show in FAULT from the start on. -/
theorem run_errorsShow {n : Nat} {s t : State} (h : s.ResetFree) (ht : Host.Core.run Sys2Proof.core n s = .next t) :
    ErrorsShow s t := by
  have hstep : ∀ u v, u.ResetFree ∧ ErrorsShow s u → step u = .next v → v.ResetFree ∧ ErrorsShow s v :=
    fun u v ⟨hfree, hshow⟩ huv => ⟨step_resetFree hfree huv, hshow.trans (step_errorsShow hfree huv)⟩
  exact (run_keeps hstep n ⟨h, .refl s⟩ ht).2

/-- Settles O17: `FAULT = 0` has no code, so by `run_errorsShow` every answer of the run is `OK`. -/
theorem faultZeroMeansAllOk : Obligations.FaultZeroMeansAllOk := by
  intro n s t hfree hrun hzero
  have hcode : faultCode t.regs.fault = 0#8 := by rw [hzero]; rfl
  exact (run_errorsShow hfree hrun hcode).2

end Machine
end Sys2Proof
